-- ==== Sys2Proof/Word.lean ====
section
/-! DEFINITION. The words of the block and the two kinds of level a signal can take (rules R11, R14, R50). -/

namespace Sys2Proof

/-- `u8` of rule R11: a duty value, a colour channel, a gamma entry. -/
abbrev Byte := BitVec 8

/-- A command word or a response word; each crosses its port whole (rules R50, R80). -/
abbrev PortWord := BitVec 64

/-- The level of a line (rule R14): `low` is 0, `high` is 1. -/
inductive Level
  | low
  | high
  deriving DecidableEq, Repr, Inhabited

/-- `lvl` of rules R146 and R152: true (1) is high, false (0) is low. -/
def Level.ofBool : Bool → Level
  | true => .high
  | false => .low

/-- The bit a level stands for (rule R14). -/
def Level.toBool : Level → Bool
  | .high => true
  | .low => false

/-- The other level (rule R14: the electrical level of `off` is the other level). -/
def Level.other : Level → Level
  | .high => .low
  | .low => .high

/-- The logical sense of the output-enable line (rule R14): `on` lights the display, `off` blanks it. -/
inductive Sense
  | on
  | off
  deriving DecidableEq, Repr, Inhabited

end Sys2Proof
end

