-- ==== Sys2Proof/Syntax.lean ====
section
/-! DEFINITION. The seven commands of the opcode table (rule R84), with the operands of rule R82. -/

namespace Sys2Proof

/-- One constructor per row of the opcode table (rule R84). -/
inductive Instr
  /-- INIT `bits` (rule R200): construction. -/
  | init (bits : Byte)
  /-- WRPIX `x, y, r, g, b` (rule R110): write one pixel; `x`, `y` are signed (rule R82). -/
  | wrpix (x y : Int) (r g b : Byte)
  /-- CLEAR `r, g, b` (rule R120): fill. -/
  | clear (r g b : Byte)
  /-- CLRD (rule R122): blank the framebuffer. -/
  | clrd
  /-- SIZE (rule R125): report the logical size. -/
  | size
  /-- PWM (rule R170): one threshold-PWM cycle. -/
  | pwm
  /-- BCM `base` (rule R185): one binary-code-modulation cycle; `base` in microseconds. -/
  | bcm (base : Nat)
  deriving DecidableEq, Repr

/-- One element of `write_many`'s list (rule R89). -/
structure Pixel where
  x : Int
  y : Int
  r : Byte
  g : Byte
  b : Byte
  deriving DecidableEq, Repr

end Sys2Proof
end

