-- ==== Sys2Proof/WellFormed.lean ====
section
/-! DEFINITION. Which commands have a command word: the operand ranges of rule R82. The ranges of `bits`, `r`, `g`
and `b` are their types'. -/

namespace Sys2Proof

/-- A 16-bit two's-complement value: -32768 to 32767 (rules R11, R82). -/
def fitsS16 (v : Int) : Bool := decide (-32768 ≤ v) && decide (v ≤ 32767)

/-- A command whose operands fit their fields (rule R82). -/
def Instr.wf : Instr → Bool
  | .init _ => true
  | .wrpix x y _ _ _ => fitsS16 x && fitsS16 y
  | .clear _ _ _ => true
  | .clrd => true
  | .size => true
  | .pwm => true
  | .bcm base => decide (base ≤ 65535)

end Sys2Proof
end

