-- ==== Sys2Proof/Decode.lean ====
section
/-! DEFINITION. Decoding a command word (rules R81, R82, R84 to R87) and encoding a command, each written from the
format table. -/

namespace Sys2Proof

/-- The mnemonics of rule R84. -/
inductive Mnemonic
  | init | wrpix | clear | clrd | size | pwm | bcm
  deriving DecidableEq, Repr

/-- One row of the opcode table (rule R84). -/
structure TableRow where
  mnemonic : Mnemonic
  pattern : PortWord
  mask : PortWord
  deriving DecidableEq, Repr

/-- The opcode table of rule R84, row for row. -/
def opcodeTable : List TableRow :=
  [ ⟨.init,  0x0100000000000000#64, 0xFFFFFFFFFFFFFF00#64⟩,
    ⟨.wrpix, 0x0200000000000000#64, 0xFF00000000000000#64⟩,
    ⟨.clear, 0x0300000000000000#64, 0xFFFFFFFFFF000000#64⟩,
    ⟨.clrd,  0x0400000000000000#64, 0xFFFFFFFFFFFFFFFF#64⟩,
    ⟨.size,  0x0500000000000000#64, 0xFFFFFFFFFFFFFFFF#64⟩,
    ⟨.pwm,   0x0600000000000000#64, 0xFFFFFFFFFFFFFFFF#64⟩,
    ⟨.bcm,   0x0700000000000000#64, 0xFFFFFFFFFFFF0000#64⟩ ]

/-- A word is the command of a row exactly when `cw & mask = match` (rule R84). -/
def TableRow.matches (row : TableRow) (cw : PortWord) : Bool := cw &&& row.mask == row.pattern

/-- Why a word is not a command. Both are answered `IllegalCommand` (rules R85, R86). -/
inductive DecodeError
  /-- The opcode is 0x00 or 0x08 to 0xFF (rule R86). -/
  | unknownOpcode
  /-- The opcode is in the table and a reserved field of its format is not zero (rule R85). -/
  | reservedField
  deriving DecidableEq, Repr

/-- `cw[63:56]` (rule R81). -/
def opcodeField (cw : PortWord) : Byte := cw.extractLsb' 56 8

/-- `x = int(cw[55:40])` (rule R82). -/
def xField (cw : PortWord) : Int := (cw.extractLsb' 40 16).toInt

/-- `y = int(cw[39:24])` (rule R82). -/
def yField (cw : PortWord) : Int := (cw.extractLsb' 24 16).toInt

/-- `r = cw[23:16]` (rule R82). -/
def rField (cw : PortWord) : Byte := cw.extractLsb' 16 8

/-- `g = cw[15:8]` (rule R82). -/
def gField (cw : PortWord) : Byte := cw.extractLsb' 8 8

/-- `b = cw[7:0]`, and INIT's `bits = cw[7:0]` (rule R82). -/
def bField (cw : PortWord) : Byte := cw.extractLsb' 0 8

/-- `base = cw[15:0]` (rule R82). -/
def baseField (cw : PortWord) : Nat := (cw.extractLsb' 0 16).toNat

/-- The operands of a row's format, read from the word (rules R81, R82). -/
def operandsOf (cw : PortWord) : Mnemonic → Instr
  | .init => .init (bField cw)
  | .wrpix => .wrpix (xField cw) (yField cw) (rField cw) (gField cw) (bField cw)
  | .clear => .clear (rField cw) (gField cw) (bField cw)
  | .clrd => .clrd
  | .size => .size
  | .pwm => .pwm
  | .bcm => .bcm (baseField cw)

/-- The opcodes of rule R84 are 0x01 to 0x07. -/
def knownOpcode (op : Byte) : Bool := decide (1 ≤ op.toNat) && decide (op.toNat ≤ 7)

/-- Decoding (rules R84 to R86): total, every word is one command or is illegal. No mode changes it (rule R87). -/
def decode (cw : PortWord) : Except DecodeError Instr :=
  match opcodeTable.find? (fun row => row.matches cw) with
  | some row => .ok (operandsOf cw row.mnemonic)
  | none => if knownOpcode (opcodeField cw) then .error .reservedField else .error .unknownOpcode

/-- The word of a command, field by field from the format table (rule R81): opcode in the top byte, operands right
aligned, reserved fields zero. -/
def encode : Instr → PortWord
  | .init bits => (0x01#8 ++ 0#48 ++ bits : BitVec 64)
  | .wrpix x y r g b => (0x02#8 ++ BitVec.ofInt 16 x ++ BitVec.ofInt 16 y ++ r ++ g ++ b : BitVec 64)
  | .clear r g b => (0x03#8 ++ 0#32 ++ r ++ g ++ b : BitVec 64)
  | .clrd => (0x04#8 ++ 0#56 : BitVec 64)
  | .size => (0x05#8 ++ 0#56 : BitVec 64)
  | .pwm => (0x06#8 ++ 0#56 : BitVec 64)
  | .bcm base => (0x07#8 ++ 0#40 ++ BitVec.ofNat 16 base : BitVec 64)

/-- The command word whose `nbits` low bits are those of `w` and whose other bits are 0. -/
def tableWord (nbits w : Nat) : PortWord := BitVec.ofNat 64 (w % 2 ^ nbits)

/-- What the decoder reads from a word numbered as the opcode table numbers it (one 64-bit word, bit 0 least
significant, rule R11). Nothing longer than 64 bits is a command (rule R80). -/
def decodeTableWord (nbits w : Nat) : Option Instr :=
  if nbits ≤ 64 then (decode (tableWord nbits w)).toOption else none

/-- `write_many` as commands (rule R89): WRPIX for each element, in the order written; the empty list is nothing. -/
def wrmany (pixels : List Pixel) : List Instr :=
  pixels.map fun p => .wrpix p.x p.y p.r p.g p.b

end Sys2Proof
end

