-- ==== Sys2Proof/Config.lean ====
section
/-! DEFINITION. The configuration record `CFG` (rules R5 to R9): fixed before power-up, constant for the life of the
block, and the free values no rule fixes (the answers of the pin/port handle beyond those a state lists). -/

namespace Sys2Proof

/-- The fourteen signals of rule R140. `f` exists only when `SCAN_ROWS = 32`.
`a b c d f` are the row-address lines, `b1 b2` the blue data lines (rule R18). -/
inductive Signal
  | r1 | g1 | b1 | r2 | g2 | b2
  | a | b | c | d | f
  | clk | lat | oe
  deriving DecidableEq, Repr, Inhabited

/-- `PORT_VARIANT` (rule R8): discrete lines, or one parallel output word. -/
inductive PortVariant
  | pins
  | word
  deriving DecidableEq, Repr, Inhabited

/-- What the pin/port handle answers to a write (rule R65). -/
inductive Answer
  | ok
  | fault
  deriving DecidableEq, Repr, Inhabited

/-- `BITPOS` (rules R8, R9, R68): the bit of the output word that carries each signal. -/
structure BitPos where
  r1 : Nat
  g1 : Nat
  b1 : Nat
  r2 : Nat
  g2 : Nat
  b2 : Nat
  a : Nat
  b : Nat
  c : Nat
  d : Nat
  f : Nat
  clk : Nat
  lat : Nat
  oe : Nat
  deriving DecidableEq, Repr

/-- `BITPOS[s]`. -/
def BitPos.of (p : BitPos) : Signal → Nat
  | .r1 => p.r1
  | .g1 => p.g1
  | .b1 => p.b1
  | .r2 => p.r2
  | .g2 => p.g2
  | .b2 => p.b2
  | .a => p.a
  | .b => p.b
  | .c => p.c
  | .d => p.d
  | .f => p.f
  | .clk => p.clk
  | .lat => p.lat
  | .oe => p.oe

/-- The default positions of rule R68. -/
def BitPos.standard : BitPos :=
  { r1 := 0, g1 := 1, b1 := 2, r2 := 3, g2 := 4, b2 := 5
    a := 6, b := 7, c := 8, d := 9, f := 10, clk := 11, lat := 12, oe := 13 }

/-- `CFG`: every parameter of rules R5, R6, R8 and R9 except `BITS`, which INIT supplies. -/
structure Config where
  /-- `SCAN_ROWS`, 16 or 32 (rule R5). -/
  scanRows : Nat
  /-- `ROW_LENGTH` (rule R6). -/
  rowLength : Nat
  /-- `STRIPE_MUX` (rule R6). -/
  stripeMux : Bool
  /-- `PORT_VARIANT` (rule R8). -/
  variant : PortVariant
  /-- `GAMMA`, 256 entries (rules R9, R27). -/
  gamma : Vector Byte 256
  /-- `T_SETTLE_US`, 1 or 2 (rules R9, R150). -/
  settleUs : Nat
  /-- `T_BCM_TAIL_US` (rules R9, R189). -/
  bcmTailUs : Nat
  /-- `BCM_DWELL_PER_ROW` (rules R9, R190). -/
  bcmDwellPerRow : Bool
  /-- `PHYS_SCAN_ROWS` (rules R9, R113). -/
  physScanRows : Nat
  /-- `HALF_SPLIT` (rules R9, R113). -/
  halfSplit : Nat
  /-- `STRIPE_W` (rules R9, R113). -/
  stripeW : Nat
  /-- `OE_ON_LEVEL` (rules R9, R14). -/
  oeOnLevel : Level
  /-- `PORT_WIDTH` (rules R9, R68). -/
  portWidth : Nat
  /-- `BITPOS` (rules R9, R68). -/
  bitpos : BitPos
  deriving DecidableEq, Repr

/-- The configuration with every default of rule R9; the parameters without a default are the arguments. -/
def Config.standard (scanRows rowLength : Nat) (stripeMux : Bool) (variant : PortVariant)
    (gamma : Vector Byte 256) (bcmTailUs : Nat) : Config :=
  { scanRows := scanRows
    rowLength := rowLength
    stripeMux := stripeMux
    variant := variant
    gamma := gamma
    settleUs := 2
    bcmTailUs := bcmTailUs
    bcmDwellPerRow := false
    physScanRows := 2 * scanRows
    halfSplit := 15
    stripeW := 32
    oeOnLevel := .low
    portWidth := 16
    bitpos := BitPos.standard }

/-- The identity table: one legal instance of `GAMMA` (95_test_vectors.md), not the source's table. -/
def Config.identityGamma : Vector Byte 256 :=
  ⟨⟨(List.range 256).map (BitVec.ofNat 8)⟩, by simp⟩

/-- DESIGN CHOICE (notes/assumptions/1.md), unsafe: the configuration `State.reset` carries. No rule gives one; it is
the convention of 95_test_vectors.md on a 32 by 32 panel. No statement rests on it. -/
def Config.atReset : Config :=
  Config.standard 16 32 false .pins Config.identityGamma 5

/-- FREE VALUE (notes/assumptions/3.md): what the handle answers to the `n`-th write since power-up, where the state
lists no answer (rule R65: a model takes the answers from an oracle that may answer `fault` to any write). -/
opaque Config.portAnswer : Nat → Answer

end Sys2Proof
end

