-- ==== Sys2Proof/Machine/State.lean ====
section
/-! DEFINITION. The state of the block (10_state.md), as plain data, its two stop reasons, and the state after
power-up (rules R37, R240). -/

namespace Sys2Proof.Machine

/-- The framebuffer as (linear index, value) pairs (rule R34), in one canonical form: indices strictly rising, no entry
equal to what an unlisted index reads as. -/
abbrev Memory := List Host.Cell

/-- What an unlisted framebuffer index reads as: the contents after INIT (rule R24). Before the first INIT the contents
are unspecified and unreachable (rule R24, U13); notes/assumptions/4.md. -/
def Memory.unlisted : Byte := 0

/-- The canonical form of the framebuffer. -/
abbrev Memory.wf (m : Memory) : Prop :=
  m.Pairwise (fun c d => c.1 < d.1) ∧ ∀ c ∈ m, c.2 ≠ Memory.unlisted

/-- The six fields of a cell (rule R21), in the order of rule R34. -/
inductive Field
  | rTop | gTop | bTop | rBot | gBot | bBot
  deriving DecidableEq, Repr

/-- The half of a cell a pixel uses (rules R18, R21). -/
inductive Half
  | top | bot
  deriving DecidableEq, Repr

/-- `MODE`, the lifecycle mode (rules R25, R224). -/
inductive Mode
  | unconstructed | ready | busy
  deriving DecidableEq, Repr

/-- The 2-bit code of `MODE` (rule R25); 3 is never taken. -/
def Mode.code : Mode → BitVec 2
  | .unconstructed => 0
  | .ready => 1
  | .busy => 2

/-- The events of rule R13: `W(s, l)` with the electrical level, `WW(w)`, `D(n)`. -/
inductive Event
  | w (s : Signal) (l : Level)
  | ww (v : Nat)
  | d (us : Nat)
  deriving DecidableEq, Repr

/-- `OUT`, the output shadow register (rule R28); `none` is `unknown`. `OE` is kept by sense. -/
structure Out where
  r1 : Option Level
  g1 : Option Level
  b1 : Option Level
  r2 : Option Level
  g2 : Option Level
  b2 : Option Level
  a : Option Level
  b : Option Level
  c : Option Level
  d : Option Level
  /-- Exists only when `SCAN_ROWS = 32` (rule R28); stays `none` otherwise. -/
  f : Option Level
  clk : Option Level
  lat : Option Level
  oe : Option Sense
  deriving DecidableEq, Repr

/-- `OUT` with every field `unknown` (rules R28, R37). -/
def Out.unknown : Out :=
  { r1 := none, g1 := none, b1 := none, r2 := none, g2 := none, b2 := none
    a := none, b := none, c := none, d := none, f := none
    clk := none, lat := none, oe := none }

/-- The predicate `lit` of rule R144, as data: PWM's `d >= t`, BCM's `d[p] = 1`. -/
inductive Lit
  | atLeast (t : Nat)
  | bit (p : Nat)
  deriving DecidableEq, Repr

/-- Where the level of a driven signal comes from: a fixed level, a sense of `OE`, or a field of the framebuffer seen
through `lit`, read when the write is issued (rules R56, R145). -/
inductive Source
  | level (l : Level)
  | sense (o : Sense)
  | pixel (lit : Lit) (row col : Nat) (f : Field)
  deriving DecidableEq, Repr

/-- One request to an external port: a write of one line (`PINS`), a write of the output word that gives some signals
new levels (`WORD`), or a delay (rules R66, R69, R71). -/
inductive Request
  | line (s : Signal) (v : Source)
  | word (vs : List (Signal × Source))
  | delay (us : Nat)
  deriving DecidableEq, Repr

/-- Which cycle a pass is (rule R30). -/
inductive PassKind
  | pwm | bcm
  deriving DecidableEq, Repr

/-- Where in the loop nest a request stands (rule R30): before the rows of a pass or a plane, in a row, after them. -/
inductive PassPart
  | prologue | scan | epilogue
  deriving DecidableEq, Repr

/-- The position of rule R30 within a pass of a known kind: `level`, `row`, `col`, `phase`. -/
structure SeqPos where
  part : PassPart
  level : Nat
  row : Nat
  col : Nat
  phase : Nat
  deriving DecidableEq, Repr

/-- One request of a pass with its position. -/
structure Slot where
  pos : SeqPos
  req : Request
  deriving DecidableEq, Repr

/-- `SEQ`, the sequencer position (rule R30): `idle`, or the next event of a pass and those after it (rule R30: a model
may represent `SEQ` by the remaining event list of the pass). -/
inductive Seq
  | idle
  | running (kind : PassKind) (now : Slot) (later : List Slot)
  deriving DecidableEq, Repr

/-- Why the machine stops with a fault. -/
inductive Fault
  /-- Raised by the one framebuffer store of WRPIX and by a pass's read of a pixel, for an index outside the framebuffer
  space of rule R34. Safe: rules R53 and R116 say no command produces one, and no well-formed run raises it. -/
  | outsideFramebuffer
  deriving DecidableEq, Repr

/-- Why a step has no meaning. -/
inductive Refusal
  /-- Raised by an arm of `exec` whose command has no meaning yet. Safe. No arm raises it now. -/
  | notModelled (mnemonic : String)
  /-- Raised by every step and every command when `CFG` is ill formed: "a model refuses (gives no meaning to) an
  ill-formed one" (rule R10, U15). Safe. -/
  | illFormedConfig
  /-- Raised when a command is given while `MODE = BUSY`: the port "does not accept a command word" and there is no step
  (rule R226, U6; DEDUCED, notes/assumptions/13.md). Also raised by a step in `BUSY` with `SEQ` idle, a state no run reaches (rule R30). Safe. -/
  | portClosed
  deriving DecidableEq, Repr

/-- The state of the block, with the ghost and environment parts a run needs. -/
structure State where
  /-- `CFG` (rules R9, R242): build-time configuration; no step writes it. Not a register: notes/assumptions/1.md. -/
  cfg : Config
  /-- `MODE` (rule R25). -/
  mode : Mode
  /-- `BITS` (rule R26). -/
  bitsReg : BitVec 4
  /-- `STEP` (rule R26). -/
  stepReg : BitVec 8
  /-- `COUNT` (rule R26). -/
  countReg : BitVec 8
  /-- `SHIFT` (rule R26). -/
  shiftReg : BitVec 3
  /-- `FB`, the framebuffer (rules R20 to R24, R34). -/
  fb : Memory
  /-- `OUT` (rule R28). -/
  out : Out
  /-- `SEQ` (rule R30). -/
  seq : Seq
  /-- The event trace since power-up (rule R13, ghost), newest first; `State.trace` is in issue order
  (notes/assumptions/9.md). -/
  log : List Event
  /-- The command port (rule R80): the words the host presents, in its order (rule R60); environment. -/
  port : List PortWord
  /-- The response words given so far (rules R80, R83), newest first. -/
  responses : List PortWord
  /-- The answers of the pin/port handle to the coming writes, next first (rule R65, an oracle); environment. -/
  answers : List Answer
  /-- How many writes the handle has been asked for since power-up: the index of the free answers
  (`Config.portAnswer`); the model's own counter. -/
  asked : Nat
  deriving DecidableEq, Repr

/-- The outcome of a command or a step. -/
abbrev Result := Host.Outcome State Fault Refusal

/-- The event trace in issue order (rule R13). -/
def State.trace (s : State) : List Event := s.log.reverse

/-- The state after power-up (rules R37, R240) of a block built with configuration `cfg`. `BITS`, `STEP`, `COUNT` and
`SHIFT` are unspecified there (rule R26); 0 is notes/assumptions/2.md. Nothing is presented and no answer is listed. -/
def State.resetWith (cfg : Config) : State :=
  { cfg := cfg
    mode := .unconstructed
    bitsReg := 0
    stepReg := 0
    countReg := 0
    shiftReg := 0
    fb := []
    out := Out.unknown
    seq := .idle
    log := []
    port := []
    responses := []
    answers := []
    asked := 0 }

/-- The machine right after power-up, with the configuration of notes/assumptions/1.md. -/
def State.reset : State := State.resetWith Config.atReset

/-- A power-up reset of an existing block (rule R240): the only way back to `UNCONSTRUCTED`; `CFG` is identical after
every reset (rule R242). No command does it. -/
def State.powerUp (s : State) : State := State.resetWith s.cfg

end Sys2Proof.Machine
end

