-- ==== Sys2Proof/Machine/Flags.lean ====
section
/-! DEFINITION. The outcome of a command. The block has no flags (rule R31): a command's outcome is its response code
alone, so this file holds the error codes and the response word (rules R83, R210). -/

namespace Sys2Proof.Machine

/-- The four errors (rule R210). -/
inductive Error
  | configError
  | pinFault
  | illegalCommand
  | badState
  deriving DecidableEq, Repr

/-- The status field of a response (rule R83): `OK`, or the code of an error. -/
inductive Status
  | ok
  | error (e : Error)
  deriving DecidableEq, Repr

/-- The code of an error (rules R83, R210). -/
def Error.code : Error → Byte
  | .configError => 0x01
  | .pinFault => 0x02
  | .illegalCommand => 0x03
  | .badState => 0x04

/-- The code of a status (rule R83). -/
def Status.code : Status → Byte
  | .ok => 0x00
  | .error e => e.code

/-- The response word (rule R83): `rw[63:56] = status`, `rw[55:32] = 0`, `rw[31:0] = payload`. -/
def responseWord (status : Status) (payload : BitVec 32) : PortWord :=
  (status.code ++ 0#24 ++ payload : BitVec 64)

/-- SIZE's payload (rules R83, R125): width in `rw[31:16]`, height in `rw[15:0]`. -/
def sizePayload (width height : Nat) : BitVec 32 :=
  (BitVec.ofNat 16 width ++ BitVec.ofNat 16 height : BitVec 32)

end Sys2Proof.Machine
end

