-- ==== Sys2Proof/Machine/Params.lean ====
section
/-! DEFINITION. What `CFG` fixes: the derived sizes (rules R5, R6, R10, R125), the signals that exist (rules R28, R140),
the levels of output-enable (rule R14) and when a configuration is well formed (rule R10). -/

namespace Sys2Proof

/-- `FB_ROWS = SCAN_ROWS` (rule R6). -/
def Config.fbRows (cfg : Config) : Nat := cfg.scanRows

/-- `FB_COLS = ROW_LENGTH` (rule R6). -/
def Config.fbCols (cfg : Config) : Nat := cfg.rowLength

/-- The number of elements of the framebuffer space (rule R34). -/
def Config.fbSize (cfg : Config) : Nat := cfg.fbRows * cfg.fbCols * 6

/-- Line `F` exists exactly when `SCAN_ROWS = 32` (rules R5, R140). -/
def Config.hasF (cfg : Config) : Bool := decide (cfg.scanRows = 32)

/-- `N_ADDR` (rule R5). -/
def Config.nAddr (cfg : Config) : Nat := if cfg.hasF then 5 else 4

/-- `WIDTH` (rule R125). -/
def Config.width (cfg : Config) : Nat := if cfg.stripeMux then cfg.rowLength / 2 else cfg.rowLength

/-- `HEIGHT` (rule R125). -/
def Config.height (cfg : Config) : Nat := if cfg.stripeMux then 4 * cfg.scanRows else 2 * cfg.scanRows

/-- The signals that exist (rules R28, R140). In the `WORD` variant these are the mapped signals (rule R68: bit 10 is
unmapped when `SCAN_ROWS = 16`). -/
def Config.signals (cfg : Config) : List Signal :=
  [.r1, .g1, .b1, .r2, .g2, .b2, .a, .b, .c, .d] ++ (if cfg.hasF then [.f] else []) ++ [.clk, .lat, .oe]

/-- The electrical level of a sense of output-enable (rule R14). -/
def Config.electrical (cfg : Config) : Sense → Level
  | .on => cfg.oeOnLevel
  | .off => cfg.oeOnLevel.other

/-- The sense whose electrical level is `l` (rules R14, R69). -/
def Config.senseOf (cfg : Config) (l : Level) : Sense := if l = cfg.oeOnLevel then .on else .off

/-- `GAMMA[i]` (rules R12, R27). -/
def Config.gammaAt (cfg : Config) (i : Byte) : Byte := cfg.gamma[i.toNat]'i.isLt

/-- A list of bytes that never falls. -/
def nondecreasing : List Byte → Bool
  | v :: w :: rest => decide (v.toNat ≤ w.toNat) && nondecreasing (w :: rest)
  | _ => true

/-- The three properties of `GAMMA` (rule R27): non-decreasing, `GAMMA[0] = 0`, `GAMMA[255] = 255`. -/
def Config.gammaOk (cfg : Config) : Bool :=
  nondecreasing cfg.gamma.toList && cfg.gammaAt 0 == 0 && cfg.gammaAt 255 == 255

/-- `BITPOS` is injective on the signals that exist and every position is below `PORT_WIDTH` (rules R9, R10 item 5). -/
def Config.bitposOk (cfg : Config) : Bool :=
  decide ((cfg.signals.map cfg.bitpos.of).Nodup) && cfg.signals.all fun s => decide (cfg.bitpos.of s < cfg.portWidth)

/-- A well-formed configuration: the six items of rule R10, and `T_SETTLE_US` of its type in rule R9 (1 or 2;
DEDUCED, notes/assumptions/7.md). -/
def Config.wf (cfg : Config) : Bool :=
  (cfg.scanRows == 16 || cfg.scanRows == 32)
    && decide (1 ≤ cfg.rowLength) && decide (cfg.rowLength ≤ 32768)
    && (!cfg.stripeMux || cfg.rowLength % (2 * cfg.stripeW) == 0)
    && cfg.gammaOk
    && (cfg.variant == .pins || cfg.bitposOk)
    && decide (1 ≤ cfg.physScanRows) && decide (1 ≤ cfg.stripeW)
    && (cfg.settleUs == 1 || cfg.settleUs == 2)

end Sys2Proof
end

