-- ==== Sys2Proof/Machine/Operands.lean ====
section
/-! DEFINITION. Operands: the bounds of a pixel and the coordinate mapper (rules R112 to R114), the framebuffer index
(rule R34), the fields of a half (rules R21, R55), the brightness constants (rule R7), thresholds and dwells (rules R17,
R172, R190), the bit of a duty value (rule R144), and the fields of `OUT`. -/

namespace Sys2Proof.Machine

/-- The half-slot a pixel is stored in: buffer row, buffer column, half (rules R113, R114). -/
structure Slot3 where
  row : Nat
  col : Nat
  half : Half
  deriving DecidableEq, Repr

/-- `in_bounds(x, y)` (rule R112): signed comparison with `WIDTH` and `HEIGHT`. -/
def inBounds (cfg : Config) (x y : Int) : Bool :=
  decide (0 ≤ x) && decide (x < cfg.width) && decide (0 ≤ y) && decide (y < cfg.height)

/-- The non-multiplexed mapper `map_plain` (rule R114). -/
def mapPlain (cfg : Config) (x y : Nat) : Slot3 :=
  { row := y % cfg.scanRows
    col := x
    half := if y < cfg.scanRows then .top else .bot }

/-- The stripe-multiplexed mapper `map_mux` (rule R113), its formulas as written: `is_top_half` and the half-selector
are two different tests (90_conflicts.md C3). -/
def mapMux (cfg : Config) (x y : Nat) : Slot3 :=
  let halfBlock := cfg.scanRows
  let ym := y % cfg.physScanRows
  let isTopHalf := decide (ym < halfBlock)
  let stripeIndex := x / cfg.stripeW
  let x1 := x + cfg.stripeW * stripeIndex
  let x2 := if isTopHalf then x1 + cfg.stripeW else x1
  { row := y % halfBlock
    col := x2
    half := if ym > cfg.halfSplit then .top else .bot }

/-- The coordinate mapper (rule R110), for in-bounds coordinates. -/
def mapPixel (cfg : Config) (x y : Nat) : Slot3 :=
  if cfg.stripeMux then mapMux cfg x y else mapPlain cfg x y

/-- The place of a field in its cell (rule R34). -/
def Field.index : Field → Nat
  | .rTop => 0
  | .gTop => 1
  | .bTop => 2
  | .rBot => 3
  | .gBot => 4
  | .bBot => 5

/-- The red, green and blue fields of a half (rules R21, R55). -/
def Half.fields : Half → Field × Field × Field
  | .top => (.rTop, .gTop, .bTop)
  | .bot => (.rBot, .gBot, .bBot)

/-- The six fields in the order of rule R34. -/
def allFields : List Field := [.rTop, .gTop, .bTop, .rBot, .gBot, .bBot]

/-- The linear index of `(r, c, f)` (rule R34). -/
def fbIndex (cfg : Config) (r c : Nat) (f : Field) : Nat := (r * cfg.fbCols + c) * 6 + f.index

/-- `(r, c)` names a cell: `0 <= r < FB_ROWS` and `0 <= c < FB_COLS` (rule R20). -/
def cellInRange (cfg : Config) (r c : Nat) : Bool := decide (r < cfg.fbRows) && decide (c < cfg.fbCols)

/-- Every cell, row by row (rules R120, R122). -/
def allCells (cfg : Config) : List (Nat × Nat) :=
  (List.range cfg.fbRows).flatMap fun r => (List.range cfg.fbCols).map fun c => (r, c)

/-- Which `bits` operands construct a block: 1 to 8 (rules R7, R201). -/
def bitsLegal (bits : Byte) : Bool := decide (1 ≤ bits.toNat) && decide (bits.toNat ≤ 8)

/-- `STEP = 2^(8 - BITS)` (rule R7). -/
def stepOf (bits : Nat) : Nat := 2 ^ (8 - bits)

/-- `COUNT = 2^BITS - 1` (rule R7). -/
def countOf (bits : Nat) : Nat := 2 ^ bits - 1

/-- `SHIFT = 8 - BITS` (rule R7). -/
def shiftOf (bits : Nat) : Nat := 8 - bits

/-- The threshold of iteration `i`, `min(255, (i + 1) * STEP)` in naturals (rules R17, R172). -/
def threshold (step i : Nat) : Nat := min 255 ((i + 1) * step)

/-- The planes of a BCM cycle in scan order, `7, 6, ..., SHIFT` (rule R187). -/
def planes (shift : Nat) : List Nat := (List.range (8 - shift)).map fun k => 7 - k

/-- `dwell(p) = base * 2^(p - SHIFT)` in naturals (rules R17, R190). -/
def dwell (base shift p : Nat) : Nat := base * 2 ^ (p - shift)

/-- `lit` of rule R144: the comparison and the bit test of rule R15. -/
def Lit.test : Lit → Byte → Bool
  | .atLeast t, d => decide (t ≤ d.toNat)
  | .bit p, d => d.getLsbD p

/-- The electrical level `OUT` remembers for a signal, `none` if unknown (rules R28, R14). -/
def Out.level (cfg : Config) (o : Out) : Signal → Option Level
  | .r1 => o.r1
  | .g1 => o.g1
  | .b1 => o.b1
  | .r2 => o.r2
  | .g2 => o.g2
  | .b2 => o.b2
  | .a => o.a
  | .b => o.b
  | .c => o.c
  | .d => o.d
  | .f => o.f
  | .clk => o.clk
  | .lat => o.lat
  | .oe => o.oe.map cfg.electrical

/-- `OUT.s <- l` for an electrical level `l` (rules R141, R69): `OE` takes the sense whose level is `l`. -/
def Out.put (cfg : Config) (o : Out) (s : Signal) (l : Level) : Out :=
  match s with
  | .r1 => { o with r1 := some l }
  | .g1 => { o with g1 := some l }
  | .b1 => { o with b1 := some l }
  | .r2 => { o with r2 := some l }
  | .g2 => { o with g2 := some l }
  | .b2 => { o with b2 := some l }
  | .a => { o with a := some l }
  | .b => { o with b := some l }
  | .c => { o with c := some l }
  | .d => { o with d := some l }
  | .f => { o with f := some l }
  | .clk => { o with clk := some l }
  | .lat => { o with lat := some l }
  | .oe => { o with oe := some (cfg.senseOf l) }

/-- The level a mapped signal has in the next output word (rule R69): its new level if the request names it, else the
remembered one, an unknown field contributing 0. -/
def wordLevel (cfg : Config) (o : Out) (named : List (Signal × Level)) (s : Signal) : Level :=
  match named.lookup s with
  | some l => l
  | none => (o.level cfg s).getD .low

/-- The output word of rule R69: bit `BITPOS[s]` for every mapped signal, unmapped bits 0 (rules R35, R68). -/
def composeWord (cfg : Config) (o : Out) (named : List (Signal × Level)) : Nat :=
  cfg.signals.foldr
    (fun s w => (if wordLevel cfg o named s = .high then 2 ^ cfg.bitpos.of s else 0) ||| w) 0

/-- `OUT` after an output word was answered ok: every mapped field holds the level just written (rule R69). -/
def outAfterWord (cfg : Config) (o : Out) (named : List (Signal × Level)) : Out :=
  cfg.signals.foldl (fun acc s => acc.put cfg s (wordLevel cfg o named s)) o

end Sys2Proof.Machine
end

