-- ==== Sys2Proof/Machine/Ops.lean ====
section
/-! DEFINITION. The named operations: framebuffer access (rules R54, R55), the response and `raise` (rules R83, R219 to
R221), the mode and configuration checks (rules R10, R214, R226), one event of a pass (rules R61, R141, R142, R212) and
a whole pass (rules R30, R60), and the command port (rules R80, R60). -/

namespace Sys2Proof.Machine

/-! Named writes of single fields of the state. -/

/-- `MODE <- m`. -/
def State.withMode (s : State) (m : Mode) : State := { s with mode := m }

/-- `SEQ <- q`. -/
def State.withSeq (s : State) (q : Seq) : State := { s with seq := q }

/-- The framebuffer replaced. -/
def State.withFb (s : State) (m : Memory) : State := { s with fb := m }

/-- `OUT` replaced. -/
def State.withOut (s : State) (o : Out) : State := { s with out := o }

/-- The words still to be presented at the command port. -/
def State.withPort (s : State) (ws : List PortWord) : State := { s with port := ws }

/-- An event issued to the delay port (rules R13, R71). -/
def State.logEvent (s : State) (e : Event) : State := { s with log := e :: s.log }

/-- A write issued to the pin/port handle (rules R13, R65): the event, and one answer consumed. -/
def State.issueWrite (s : State) (e : Event) : State :=
  { s with log := e :: s.log, answers := s.answers.tail, asked := s.asked + 1 }

/-- The response to a command (rules R80, R83). -/
def State.respond (s : State) (status : Status) (payload : BitVec 32) : State :=
  { s with responses := responseWord status payload :: s.responses }

/-- `BITS`, `STEP`, `COUNT`, `SHIFT` as INIT computes them (rules R7, R26). -/
def State.withBrightness (s : State) (bits : Nat) : State :=
  { s with
    bitsReg := BitVec.ofNat 4 bits
    stepReg := BitVec.ofNat 8 (stepOf bits)
    countReg := BitVec.ofNat 8 (countOf bits)
    shiftReg := BitVec.ofNat 3 (shiftOf bits) }

/-! The framebuffer. -/

/-- The value at a framebuffer index (rule R54). -/
def Memory.read : Memory → Nat → Byte
  | [], _ => Memory.unlisted
  | (a, v) :: rest, i => if a = i then v else Memory.read rest i

/-- The framebuffer with one index replaced (rule R54), in canonical form. -/
def Memory.write : Memory → Nat → Byte → Memory
  | [], i, v => if v = Memory.unlisted then [] else [(i, v)]
  | (a, w) :: rest, i, v =>
    if i < a then
      if v = Memory.unlisted then (a, w) :: rest else (i, v) :: (a, w) :: rest
    else if i = a then
      if v = Memory.unlisted then rest else (i, v) :: rest
    else (a, w) :: Memory.write rest i v

/-- Several writes, in order. -/
def Memory.writeAll (m : Memory) (ws : List (Nat × Byte)) : Memory :=
  ws.foldl (fun acc w => acc.write w.1 w.2) m

/-- `FB[r][c].f` (rule R54). -/
def State.readField (s : State) (r c : Nat) (f : Field) : Byte := s.fb.read (fbIndex s.cfg r c f)

/-- The three writes of `FbWriteHalf(r, c, h, (vr, vg, vb))` (rule R55). -/
def halfWrites (cfg : Config) (r c : Nat) (h : Half) (v : Byte × Byte × Byte) : List (Nat × Byte) :=
  [ (fbIndex cfg r c h.fields.1, v.1),
    (fbIndex cfg r c h.fields.2.1, v.2.1),
    (fbIndex cfg r c h.fields.2.2, v.2.2) ]

/-- `FbWriteHalf(r, c, h, (vr, vg, vb))` (rule R55), for a cell of the framebuffer; rule R53: no rule produces another
index. -/
def fbWriteHalf (s : State) (r c : Nat) (h : Half) (v : Byte × Byte × Byte) : Result :=
  if cellInRange s.cfg r c then .next (s.withFb (s.fb.writeAll (halfWrites s.cfg r c h v)))
  else .fault .outsideFramebuffer

/-- The writes of a fill: both halves of every cell (rule R120). -/
def fillWrites (cfg : Config) (v : Byte × Byte × Byte) : List (Nat × Byte) :=
  (allCells cfg).flatMap fun rc => halfWrites cfg rc.1 rc.2 .top v ++ halfWrites cfg rc.1 rc.2 .bot v

/-- The writes of a blanking: 0 to every field of every cell (rule R122). -/
def blankWrites (cfg : Config) : List (Nat × Byte) :=
  (allCells cfg).flatMap fun rc => allFields.map fun f => (fbIndex cfg rc.1 rc.2 f, 0)

/-- The corrected triple of a colour (rules R110, R115). -/
def gammaTriple (cfg : Config) (r g b : Byte) : Byte × Byte × Byte :=
  (cfg.gammaAt r, cfg.gammaAt g, cfg.gammaAt b)

/-! The end of a command. -/

/-- A pass that ends, normally or by `PinFault`: `MODE <- READY`, `SEQ <- idle` (rules R30, R170, R185, R221). -/
def endPass (s : State) : State := (s.withMode .ready).withSeq .idle

/-- `raise E` (rule R219): the command ends with the code of `E` and payload 0. Nothing is saved and there is no vector.
`PinFault` ends the pass (rule R221); the other three leave the state as it was (rule R220). There is no return
operation (rule R222). -/
def raise (e : Error) (s : State) : State :=
  match e with
  | .pinFault => (endPass s).respond (.error .pinFault) 0
  | .configError => s.respond (.error .configError) 0
  | .illegalCommand => s.respond (.error .illegalCommand) 0
  | .badState => s.respond (.error .badState) 0

/-- The normal end of a command without a payload: `respond(0)` (rule R12). -/
def done (s : State) : State := s.respond .ok 0

/-! The checks before a command's own work (rule R218). -/

/-- A command that needs `READY` (rule R214): `BadState` before construction, no step while `BUSY` (rule R226), no
meaning under an ill-formed configuration (rule R10). -/
def inReady (s : State) (body : State → Result) : Result :=
  if s.cfg.wf then
    match s.mode with
    | .ready => body s
    | .unconstructed => .next (raise .badState s)
    | .busy => .refused .portClosed
  else .refused .illFormedConfig

/-- A command that needs `UNCONSTRUCTED`: INIT (rules R203, R214). -/
def inUnconstructed (s : State) (body : State → Result) : Result :=
  if s.cfg.wf then
    match s.mode with
    | .unconstructed => body s
    | .ready => .next (raise .badState s)
    | .busy => .refused .portClosed
  else .refused .illFormedConfig

/-! One event of a pass. -/

/-- The level a source gives now (rules R14, R144 to R146); the framebuffer is read here (rule R56). -/
def Source.eval (s : State) : Source → Level
  | .level l => l
  | .sense o => s.cfg.electrical o
  | .pixel lit row col f => Level.ofBool (lit.test (s.readField row col f))

/-- The source reads no cell outside the framebuffer. -/
def Source.inRange (cfg : Config) : Source → Bool
  | .level _ => true
  | .sense _ => true
  | .pixel _ row col _ => cellInRange cfg row col

/-- Every source of the request is in range. -/
def Request.inRange (cfg : Config) : Request → Bool
  | .line _ v => v.inRange cfg
  | .word vs => vs.all fun p => p.2.inRange cfg
  | .delay _ => true

/-- The new levels a word request names. -/
def namedLevels (s : State) (vs : List (Signal × Source)) : List (Signal × Level) :=
  vs.map fun p => (p.1, p.2.eval s)

/-- The event a request issues (rules R13, R66, R69, R71). -/
def Request.event (s : State) : Request → Event
  | .line sig v => .w sig (v.eval s)
  | .word vs => .ww (composeWord s.cfg s.out (namedLevels s vs))
  | .delay us => .d us

/-- `OUT` after the request was answered ok (rules R69, R141). -/
def Request.outAfter (s : State) : Request → Out
  | .line sig v => s.out.put s.cfg sig (v.eval s)
  | .word vs => outAfterWord s.cfg s.out (namedLevels s vs)
  | .delay _ => s.out

/-- The request is a write, which the handle answers; a delay never faults (rule R71). -/
def Request.isWrite : Request → Bool
  | .line _ _ => true
  | .word _ => true
  | .delay _ => false

/-- The handle's answer to the `k`-th coming write (rule R65): listed in the state, or free. -/
def State.answerAt (s : State) (k : Nat) : Answer :=
  match s.answers[k]? with
  | some a => a
  | none => Config.portAnswer (s.asked + k)

/-- `SEQ` moves to the next event, or the pass ends with `OK` when its last event has been answered (rules R30, R170,
R185). -/
def advance (kind : PassKind) (later : List Slot) (s : State) : State :=
  match later with
  | [] => done (endPass s)
  | next :: rest => s.withSeq (.running kind next rest)

/-- The event at `SEQ` is issued and answered (rules R61, R141, R142, R212): a write answered ok updates `OUT`, a write
answered `fault` leaves `OUT` and raises `PinFault`, a delay is answered done. -/
def passStep (s : State) : Result :=
  match s.seq with
  | .idle => .refused .portClosed
  | .running kind now later =>
    if now.req.inRange s.cfg then
      if now.req.isWrite then
        match s.answerAt 0 with
        | .ok => .next (advance kind later ((s.issueWrite (now.req.event s)).withOut (now.req.outAfter s)))
        | .fault => .next (raise .pinFault (s.issueWrite (now.req.event s)))
      else .next (advance kind later (s.logEvent (now.req.event s)))
    else .fault .outsideFramebuffer

/-- The engine runs on its own until the pass has ended (rules R60, R226), at most `fuel` events. -/
def runPass : Nat → State → Result
  | 0, s => .next s
  | fuel + 1, s =>
    match s.mode with
    | .busy =>
      match passStep s with
      | .next t => runPass fuel t
      | .fault e => .fault e
      | .refused e => .refused e
    | _ => .next s

/-- A pass starts at its own beginning (rules R30, R221): `MODE <- BUSY`, `SEQ` at the first event. -/
def beginPass (kind : PassKind) (slots : List Slot) (s : State) : State := advance kind slots (s.withMode .busy)

/-- A whole output pass: it starts, and runs to its end (rules R60, R170, R185). -/
def runWholePass (kind : PassKind) (slots : List Slot) (s : State) : Result :=
  runPass slots.length (beginPass kind slots s)

/-! The command port. -/

/-- The host's next word and the words after it (rules R60, R80); `none` if it presents nothing. -/
def takeCommand (s : State) : Option (PortWord × State) :=
  match s.port with
  | [] => none
  | cw :: rest => some (cw, s.withPort rest)

/-- A word presented before all others. -/
def presentCommand (s : State) (cw : PortWord) : State := s.withPort (cw :: s.port)

/-- A word that is no command (rules R85, R86, R213): `IllegalCommand`, in every mode, no state change, no event. -/
def illegalCommand (s : State) : Result := .next (raise .illegalCommand s)

end Sys2Proof.Machine
end

