-- ==== Sys2Proof/Machine/Protocol.lean ====
section
/-! DEFINITION. The signal protocol of one scanned row (41_signal_protocol.md): `drive`, `drive_group`, `shift_column`,
`shift_row`, `commit_row`, `scan_row`, as the requests each issues, in order, and their positions (rules R30, R155). -/

namespace Sys2Proof.Machine

/-- `drive_group` (rule R142): one write per signal on discrete lines, one word on the parallel port. -/
def driveGroup (cfg : Config) (vs : List (Signal × Source)) : List Request :=
  match cfg.variant with
  | .pins => vs.map fun p => .line p.1 p.2
  | .word => [.word vs]

/-- `drive(s, l)` (rule R141). It is issued even to the level the signal already has. -/
def drive (cfg : Config) (s : Signal) (v : Source) : List Request := driveGroup cfg [(s, v)]

/-- The data group of a column (rules R142, R145): `R1 G1 B1` from the top half, `R2 G2 B2` from the bottom half. -/
def dataGroup (lit : Lit) (row col : Nat) : List (Signal × Source) :=
  [ (.r1, .pixel lit row col .rTop), (.g1, .pixel lit row col .gTop), (.b1, .pixel lit row col .bTop),
    (.r2, .pixel lit row col .rBot), (.g2, .pixel lit row col .gBot), (.b2, .pixel lit row col .bBot) ]

/-- `addr_levels(row)` (rules R51, R142, R152): least significant bit on `A`, `F` only when it exists. -/
def addrLevels (cfg : Config) (row : Nat) : List (Signal × Source) :=
  [ (.a, .level (.ofBool (row.testBit 0))), (.b, .level (.ofBool (row.testBit 1))),
    (.c, .level (.ofBool (row.testBit 2))), (.d, .level (.ofBool (row.testBit 3))) ]
    ++ (if cfg.hasF then [(.f, .level (.ofBool (row.testBit 4)))] else [])

/-- `shift_column(row, col, lit)` (rule R146). -/
def shiftColumn (cfg : Config) (lit : Lit) (row col : Nat) : List Request :=
  driveGroup cfg (dataGroup lit row col)
    ++ drive cfg .clk (.level .high)
    ++ drive cfg .clk (.level .low)

/-- `shift_row(row, lit)` (rule R147): columns in ascending buffer order (rule R52). -/
def shiftRow (cfg : Config) (lit : Lit) (row : Nat) : List Request :=
  (List.range cfg.fbCols).flatMap fun col => shiftColumn cfg lit row col

/-- `commit_row(row)` (rule R148), with the three settling delays (rule R150). -/
def commitRow (cfg : Config) (row : Nat) : List Request :=
  drive cfg .oe (.sense .off)
    ++ [.delay cfg.settleUs]
    ++ drive cfg .lat (.level .low)
    ++ [.delay cfg.settleUs]
    ++ drive cfg .lat (.level .high)
    ++ driveGroup cfg (addrLevels cfg row)
    ++ [.delay cfg.settleUs]
    ++ drive cfg .oe (.sense .on)

/-- `scan_row(row, lit)` (rule R153). -/
def scanRow (cfg : Config) (lit : Lit) (row : Nat) : List Request :=
  shiftRow cfg lit row ++ commitRow cfg row

/-- Events per shifted column (rule R146): 8 on discrete lines, 3 on the parallel port. -/
def eventsPerColumn (cfg : Config) : Nat :=
  match cfg.variant with
  | .pins => 8
  | .word => 3

/-- The column being shifted at a phase (rule R155); during the commit it stays the last one. -/
def columnOfPhase (cfg : Config) (phase : Nat) : Nat := min (phase / eventsPerColumn cfg) (cfg.fbCols - 1)

/-- The requests of one row with their positions: `phase` counts the events of the row (rules R30, R155). -/
def scanSlots (cfg : Config) (level row : Nat) (reqs : List Request) : List Slot :=
  reqs.zipIdx.map fun p =>
    { pos := { part := .scan, level := level, row := row, col := columnOfPhase cfg p.2, phase := p.2 }, req := p.1 }

/-- Requests before the first row of a pass or plane, with their positions (rule R30). -/
def prologueSlots (level : Nat) (reqs : List Request) : List Slot :=
  reqs.zipIdx.map fun p =>
    { pos := { part := .prologue, level := level, row := 0, col := 0, phase := p.2 }, req := p.1 }

/-- Requests after the last row of a pass or plane, with their positions (rule R30). -/
def epilogueSlots (cfg : Config) (level : Nat) (reqs : List Request) : List Slot :=
  reqs.zipIdx.map fun p =>
    { pos := { part := .epilogue, level := level, row := cfg.fbRows - 1, col := cfg.fbCols - 1, phase := p.2 }
      req := p.1 }

end Sys2Proof.Machine
end

