-- ==== Sys2Proof/Machine/Bcm.lean ====
section
/-! DEFINITION. BCM, the binary-code-modulation output cycle (43_bcm.md). -/

namespace Sys2Proof.Machine

/-- The rows of one plane, ascending (rule R186), each followed by the dwell if `BCM_DWELL_PER_ROW` (rule R190). -/
def bcmRows (cfg : Config) (base shift p : Nat) : List Slot :=
  (List.range cfg.fbRows).flatMap fun row =>
    scanSlots cfg p row
      (scanRow cfg (.bit p) row ++ (if cfg.bcmDwellPerRow then [.delay (dwell base shift p)] else []))

/-- One plane (rule R186): blank before its first row (rule R188), its rows, the tail delay (rule R189), the dwell
(rule R190). -/
def bcmPlane (cfg : Config) (base shift p : Nat) : List Slot :=
  prologueSlots p (drive cfg .oe (.sense .off))
    ++ bcmRows cfg base shift p
    ++ epilogueSlots cfg p
      (.delay cfg.bcmTailUs :: (if cfg.bcmDwellPerRow then [] else [.delay (dwell base shift p)]))

/-- The events of a BCM cycle (rule R186): the planes, most significant first (rule R187), then `OE off` (rule R191).
Rule R30 gives no `level` outside the planes; the model labels the closing write `SHIFT` (DESIGN CHOICE,
notes/assumptions/6.md). -/
def bcmSlots (cfg : Config) (base shift : Nat) : List Slot :=
  (planes shift).flatMap (fun p => bcmPlane cfg base shift p)
    ++ epilogueSlots cfg shift (drive cfg .oe (.sense .off))

/-- BCM `base` (rules R185, R186): reads `SHIFT` (rule R26). -/
def execBcm (base : Nat) (s : State) : Result :=
  inReady s fun s => runWholePass .bcm (bcmSlots s.cfg base s.shiftReg.toNat) s

end Sys2Proof.Machine
end

