-- ==== Sys2Proof/Machine/Construction.lean ====
section
/-! DEFINITION. INIT, construction and validation (44_construction.md). -/

namespace Sys2Proof.Machine

/-- What a legal INIT leaves (rule R200): the brightness constants, a framebuffer of zeros (rule R24), `SEQ` idle,
`MODE = READY`. `OUT` is not written and no event is issued (rule R202). -/
def construct (bits : Nat) (s : State) : State :=
  (((s.withBrightness bits).withFb []).withSeq .idle).withMode .ready

/-- INIT `bits` (rules R200 to R203): the mode is checked before the operand. -/
def execInit (bits : Byte) (s : State) : Result :=
  inUnconstructed s fun s =>
    if bitsLegal bits then .next (done (construct bits.toNat s)) else .next (raise .configError s)

end Sys2Proof.Machine
end

