-- ==== Sys2Proof/Machine/PixelWrite.lean ====
section
/-! DEFINITION. The pixel-write commands WRPIX, CLEAR, CLRD and SIZE (40_pixel_write.md). -/

namespace Sys2Proof.Machine

/-- WRPIX `x, y, r, g, b` (rules R110 to R116): out-of-bounds coordinates are ignored with `OK`; else the corrected
triple is stored in the mapped half-slot. -/
def execWrpix (x y : Int) (r g b : Byte) (s : State) : Result :=
  inReady s fun s =>
    if inBounds s.cfg x y then
      let slot := mapPixel s.cfg x.toNat y.toNat
      match fbWriteHalf s slot.row slot.col slot.half (gammaTriple s.cfg r g b) with
      | .next t => .next (done t)
      | .fault e => .fault e
      | .refused e => .refused e
    else .next (done s)

/-- CLEAR `r, g, b` (rule R120): every cell's both halves get the same corrected colour. -/
def execClear (r g b : Byte) (s : State) : Result :=
  inReady s fun s => .next (done (s.withFb (s.fb.writeAll (fillWrites s.cfg (gammaTriple s.cfg r g b)))))

/-- CLRD (rule R122): every duty value is zeroed directly, bypassing gamma. -/
def execClrd (s : State) : Result :=
  inReady s fun s => .next (done (s.withFb (s.fb.writeAll (blankWrites s.cfg))))

/-- SIZE (rule R125). -/
def execSize (s : State) : Result :=
  inReady s fun s => .next (s.respond .ok (sizePayload s.cfg.width s.cfg.height))

end Sys2Proof.Machine
end

