-- ==== Sys2Proof/Machine/Pwm.lean ====
section
/-! DEFINITION. PWM, the threshold-PWM output cycle (42_pwm.md). -/

namespace Sys2Proof.Machine

/-- One iteration: every row in ascending order against the threshold of rule R172 (rule R171). -/
def pwmIteration (cfg : Config) (step i : Nat) : List Slot :=
  (List.range cfg.fbRows).flatMap fun row =>
    scanSlots cfg i row (scanRow cfg (.atLeast (threshold step i)) row)

/-- The events of a PWM cycle (rule R171): `OE on`, the iterations in ascending order, `OE off` (rule R173). Rule R30
gives no `level` outside the iterations; the model labels the opening write 0 and the closing write `COUNT - 1` (DESIGN
CHOICE, notes/assumptions/6.md). -/
def pwmSlots (cfg : Config) (step count : Nat) : List Slot :=
  prologueSlots 0 (drive cfg .oe (.sense .on))
    ++ (List.range count).flatMap (fun i => pwmIteration cfg step i)
    ++ epilogueSlots cfg (count - 1) (drive cfg .oe (.sense .off))

/-- PWM (rules R170, R171): reads `STEP` and `COUNT` (rule R26). -/
def execPwm (s : State) : Result :=
  inReady s fun s => runWholePass .pwm (pwmSlots s.cfg s.stepReg.toNat s.countReg.toNat) s

end Sys2Proof.Machine
end

