-- ==== Sys2Proof/Machine/Dispatch.lean ====
section
/-! DEFINITION. One arm per command (rule R84). -/

namespace Sys2Proof.Machine

def exec (i : Instr) (s : State) : Host.Outcome State Fault Refusal :=
  match i with
  | .init bits => Sys2Proof.Machine.execInit bits s
  | .wrpix x y r g b => Sys2Proof.Machine.execWrpix x y r g b s
  | .clear r g b => Sys2Proof.Machine.execClear r g b s
  | .clrd => Sys2Proof.Machine.execClrd s
  | .size => Sys2Proof.Machine.execSize s
  | .pwm => Sys2Proof.Machine.execPwm s
  | .bcm base => Sys2Proof.Machine.execBcm base s

end Sys2Proof.Machine
end

