-- ==== Sys2Proof/Machine/Step.lean ====
section
/-! DEFINITION. One step of the machine: a whole command (rules R60, R80), or, in a state in the middle of a pass, the
pass's next event (rules R19, R30). -/

namespace Sys2Proof.Machine

/-- One step. With an ill-formed configuration there is none (rule R10). In `BUSY` the port accepts no word (rule R226)
and the engine issues the event at `SEQ`. Otherwise the host's next word is decoded and run; with no word presented the
block is idle with all state held (rule R230). -/
def step (s : State) : Host.Outcome State Fault Refusal :=
  if s.cfg.wf then
    match s.mode with
    | .busy => passStep s
    | _ =>
      match takeCommand s with
      | none => .next s
      | some (cw, t) =>
        match decode cw with
        | .ok i => exec i t
        | .error _ => illegalCommand t
  else .refused .illFormedConfig

/-- The state with a command word presented where the next step takes it (rule R80), `w` numbered as the opcode table
numbers it. The next step runs it unless the block is `BUSY`. -/
def State.withFetchWord (s : State) (nbits w : Nat) : State := presentCommand s (tableWord nbits w)

end Sys2Proof.Machine
end

