-- ==== Sys2Proof/Machine/Observer.lean ====
section
/-! DEFINITION. The informative observer of rules R36, R72 and R73: what a panel behind the pin/port handle holds and
shows, rebuilt from the event trace. It is no part of the block and no step reads it. PRESUMED
(notes/assumptions/8.md): the spec marks the panel's behaviour as general knowledge (U14). -/

namespace Sys2Proof.Machine

/-- The real levels of the fourteen lines; `oe` is the electrical level. Before the first write of a line its level is
any value (U8), so an observation starts from a panel that is an argument. -/
structure Lines where
  r1 : Level
  g1 : Level
  b1 : Level
  r2 : Level
  g2 : Level
  b2 : Level
  a : Level
  b : Level
  c : Level
  d : Level
  f : Level
  clk : Level
  lat : Level
  oe : Level
  deriving DecidableEq, Repr

/-- The level of a line. -/
def Lines.get (ls : Lines) : Signal → Level
  | .r1 => ls.r1
  | .g1 => ls.g1
  | .b1 => ls.b1
  | .r2 => ls.r2
  | .g2 => ls.g2
  | .b2 => ls.b2
  | .a => ls.a
  | .b => ls.b
  | .c => ls.c
  | .d => ls.d
  | .f => ls.f
  | .clk => ls.clk
  | .lat => ls.lat
  | .oe => ls.oe

/-- A line takes a level. -/
def Lines.set (ls : Lines) (s : Signal) (l : Level) : Lines :=
  match s with
  | .r1 => { ls with r1 := l }
  | .g1 => { ls with g1 := l }
  | .b1 => { ls with b1 := l }
  | .r2 => { ls with r2 := l }
  | .g2 => { ls with g2 := l }
  | .b2 => { ls with b2 := l }
  | .a => { ls with a := l }
  | .b => { ls with b := l }
  | .c => { ls with c := l }
  | .d => { ls with d := l }
  | .f => { ls with f := l }
  | .clk => { ls with clk := l }
  | .lat => { ls with lat := l }
  | .oe => { ls with oe := l }

/-- One register per colour data line, newest bit first. -/
structure Chains where
  r1 : List Bool
  g1 : List Bool
  b1 : List Bool
  r2 : List Bool
  g2 : List Bool
  b2 : List Bool
  deriving DecidableEq, Repr

/-- The register of a data line; the other lines have none. -/
def Chains.get (ch : Chains) : Signal → List Bool
  | .r1 => ch.r1
  | .g1 => ch.g1
  | .b1 => ch.b1
  | .r2 => ch.r2
  | .g2 => ch.g2
  | .b2 => ch.b2
  | _ => []

/-- Which transition or level of `LAT` loads the output stage: the source leaves it open (rule R151, U10). -/
inductive LatchKind
  | rising | falling | levelHigh
  deriving DecidableEq, Repr

/-- The panel of rule R72: the lines, the six shift registers, and their latched copy (the output stage). -/
structure Panel where
  lines : Lines
  shift : Chains
  latched : Chains
  deriving DecidableEq, Repr

/-- One register of `cols` bits shifts by one and takes a bit (rule R72). -/
def shiftBit (cols : Nat) (reg : List Bool) (l : Level) : List Bool := (l.toBool :: reg).take cols

/-- The six registers shift by one and take the levels of their data lines (rule R72). -/
def Chains.clock (ch : Chains) (cols : Nat) (ls : Lines) : Chains :=
  { r1 := shiftBit cols ch.r1 ls.r1
    g1 := shiftBit cols ch.g1 ls.g1
    b1 := shiftBit cols ch.b1 ls.b1
    r2 := shiftBit cols ch.r2 ls.r2
    g2 := shiftBit cols ch.g2 ls.g2
    b2 := shiftBit cols ch.b2 ls.b2 }

/-- A clock edge the registers shift on: a write of `high` when the line was `low` (rule R72). -/
def clockRises (old new : Lines) : Bool := old.clk == .low && new.clk == .high

/-- A latch transition that loads the output stage, for each reading of rule R151. -/
def latchLoads (kind : LatchKind) (old new : Lines) : Bool :=
  match kind with
  | .rising => old.lat == .low && new.lat == .high
  | .falling => old.lat == .high && new.lat == .low
  | .levelHigh => new.lat == .high

/-- The lines after an event: `W` sets one line (rule R66), `WW` every mapped line at once (rule R67). -/
def Lines.after (cfg : Config) (ls : Lines) : Event → Lines
  | .w s l => ls.set s l
  | .ww v => cfg.signals.foldl (fun acc s => acc.set s (Level.ofBool (v.testBit (cfg.bitpos.of s)))) ls
  | .d _ => ls

/-- The panel after an event whose write was answered ok. What a write answered `fault` did to the lines is unspecified
(rule R70), so an observation is of events answered ok. -/
def Panel.after (cfg : Config) (kind : LatchKind) (p : Panel) (e : Event) : Panel :=
  let lines := p.lines.after cfg e
  let shift := if clockRises p.lines lines then p.shift.clock cfg.fbCols lines else p.shift
  { lines := lines
    shift := shift
    latched := if latchLoads kind p.lines lines then shift else p.latched }

/-- The panel after a trace. -/
def Panel.observe (cfg : Config) (kind : LatchKind) (p : Panel) (es : List Event) : Panel :=
  es.foldl (fun acc e => acc.after cfg kind e) p

/-- The selected row: the value on the address lines (rule R72). -/
def Panel.selectedRow (cfg : Config) (p : Panel) : Nat :=
  p.lines.a.toBool.toNat + 2 * p.lines.b.toBool.toNat + 4 * p.lines.c.toBool.toNat + 8 * p.lines.d.toBool.toNat
    + (if cfg.hasF then 16 * p.lines.f.toBool.toNat else 0)

/-- The latched bit of buffer column `col` of a data line: column 0 was shifted first (rule R52). -/
def Panel.latchedBit (cfg : Config) (p : Panel) (s : Signal) (col : Nat) : Bool :=
  (p.latched.get s).getD (cfg.fbCols - 1 - col) false

/-- The sub-pixel of data line `s` in (`row`, `col`) is lit (rule R72): output is on, its row is selected, its latched
bit is 1. -/
def Panel.lit (cfg : Config) (p : Panel) (row : Nat) (s : Signal) (col : Nat) : Bool :=
  cfg.senseOf p.lines.oe == .on && p.selectedRow cfg == row && p.latchedBit cfg s col

/-- The microseconds requested while a sub-pixel is lit, over a trace: the lower bound of rule R73 on its perceived
brightness. -/
def Panel.litMicros (cfg : Config) (kind : LatchKind) (row : Nat) (s : Signal) (col : Nat) :
    Panel → List Event → Nat
  | _, [] => 0
  | p, e :: es =>
    (match e with
      | .d us => if p.lit cfg row s col then us else 0
      | .w _ _ => 0
      | .ww _ => 0)
      + Panel.litMicros cfg kind row s col (p.after cfg kind e) es

end Sys2Proof.Machine
end

