-- ==== Sys2Proof/Safety.lean ====
section
/-! DEFINITION. The terms claims are stated in: the invariant of the block, and the trace of an output pass written out
from the rules with plain functions (rules R141 to R155, R171, R186), with no sequencer. -/

namespace Sys2Proof

/-- `LAT` and the address lines: the signals rule R251 allows to be written only while `OE` is `off`. -/
def Signal.needsDark : Signal → Bool
  | .lat => true
  | .a => true
  | .b => true
  | .c => true
  | .d => true
  | .f => true
  | .r1 => false
  | .g1 => false
  | .b1 => false
  | .r2 => false
  | .g2 => false
  | .b2 => false
  | .clk => false
  | .oe => false

/-- A colour data line (rule R28). -/
def Signal.isData : Signal → Bool
  | .r1 => true
  | .g1 => true
  | .b1 => true
  | .r2 => true
  | .g2 => true
  | .b2 => true
  | .a => false
  | .b => false
  | .c => false
  | .d => false
  | .f => false
  | .clk => false
  | .lat => false
  | .oe => false

end Sys2Proof

namespace Sys2Proof.Machine

/-! The invariant. -/

/-- The events of a pass of each kind as the registers give them (rules R171, R186). -/
def passSlots (s : State) (kind : PassKind) (base : Nat) : List Slot :=
  match kind with
  | .pwm => pwmSlots s.cfg s.stepReg.toNat s.countReg.toNat
  | .bcm => bcmSlots s.cfg base s.shiftReg.toNat

/-- The brightness constants are those of one legal `BITS` (rules R7, R26). -/
def State.brightnessOk (s : State) : Prop :=
  1 ≤ s.bitsReg.toNat ∧ s.bitsReg.toNat ≤ 8
    ∧ s.stepReg.toNat = 2 ^ (8 - s.bitsReg.toNat)
    ∧ s.countReg.toNat = 2 ^ s.bitsReg.toNat - 1
    ∧ s.shiftReg.toNat = 8 - s.bitsReg.toNat

/-- What holds in every state of a well-formed block. -/
structure State.Inv (s : State) : Prop where
  /-- The configuration is well formed (rule R10). -/
  cfgWf : s.cfg.wf = true
  /-- The framebuffer is in canonical form. -/
  fbCanonical : Memory.wf s.fb
  /-- Every listed index lies in the framebuffer space (rules R34, R53). -/
  fbInSpace : ∀ c ∈ s.fb, c.1 < s.cfg.fbSize
  /-- Every field is a gamma-corrected value (rule R22). Before construction the contents are unspecified (rule R24, U13)
  and the model has 0 there (DESIGN CHOICE, notes/assumptions/4.md), so the clause says something of them only by that
  choice. -/
  fbGamma : ∀ i, ∃ v : Byte, s.fb.read i = s.cfg.gammaAt v
  /-- After construction the brightness constants are consistent (rules R7, R26). -/
  brightness : s.mode ≠ .unconstructed → s.brightnessOk
  /-- `SEQ` is idle exactly when `MODE` is not `BUSY` (rule R30). -/
  seqIdle : s.seq = .idle ↔ s.mode ≠ .busy
  /-- During a pass `SEQ` stands at an event of that pass and the rest of the pass is left (rules R30, R186). -/
  seqInPass : ∀ kind now later, s.seq = .running kind now later →
    ∃ base, (now :: later) <:+ passSlots s kind base
  /-- `OUT` has no field `F` when `SCAN_ROWS = 16` (rule R28). -/
  noF : s.cfg.scanRows = 16 → s.out.f = none

/-! The reference trace. -/

/-- One act of a pass: some signals take levels together (`drive`, `drive_group`), or a delay is requested. -/
inductive Act
  | set (vs : List (Signal × Level))
  | wait (us : Nat)
  deriving DecidableEq, Repr

/-- The act is a write, which the handle answers. -/
def Act.isSet : Act → Bool
  | .set _ => true
  | .wait _ => false

/-- `drive_group` on discrete lines is one write per line, in the listed order (rule R142). -/
def Act.split (cfg : Config) : Act → List Act
  | .set vs =>
    match cfg.variant with
    | .pins => vs.map fun p => .set [p]
    | .word => [.set vs]
  | .wait us => [.wait us]

/-- The event of one act (rules R13, R66, R69): on discrete lines the act names one line. -/
def Act.event (cfg : Config) (o : Out) : Act → Event
  | .wait us => .d us
  | .set vs =>
    match cfg.variant, vs with
    | .pins, (s, l) :: _ => .w s l
    | .pins, [] => .d 0
    | .word, vs => .ww (composeWord cfg o vs)

/-- `OUT` after one act was answered ok (rules R69, R141). -/
def Act.outAfter (cfg : Config) (o : Out) : Act → Out
  | .wait _ => o
  | .set vs =>
    match cfg.variant with
    | .pins => vs.foldl (fun acc p => acc.put cfg p.1 p.2) o
    | .word => outAfterWord cfg o vs

/-- The events of a list of acts, all answered ok. -/
def emit (cfg : Config) : Out → List Act → List Event
  | _, [] => []
  | o, a :: rest => a.event cfg o :: emit cfg (a.outAfter cfg o) rest

/-- `OUT` after a list of acts, all answered ok. -/
def outAfterActs (cfg : Config) (o : Out) (as : List Act) : Out :=
  as.foldl (fun acc a => a.outAfter cfg acc) o

/-- How many writes a list of acts holds. -/
def writeCount (as : List Act) : Nat := as.countP Act.isSet

/-- The levels of the address lines for a row (rule R152). -/
def rowAddress (cfg : Config) (row : Nat) : List (Signal × Level) :=
  [ (.a, .ofBool (row.testBit 0)), (.b, .ofBool (row.testBit 1)),
    (.c, .ofBool (row.testBit 2)), (.d, .ofBool (row.testBit 3)) ]
    ++ (if cfg.scanRows = 32 then [(.f, .ofBool (row.testBit 4))] else [])

/-- The acts of one shifted column (rule R146), for a predicate `lit` on duty values. -/
def columnActs (s : State) (lit : Byte → Bool) (row col : Nat) : List Act :=
  [ .set
      [ (.r1, .ofBool (lit (s.readField row col .rTop))), (.g1, .ofBool (lit (s.readField row col .gTop))),
        (.b1, .ofBool (lit (s.readField row col .bTop))), (.r2, .ofBool (lit (s.readField row col .rBot))),
        (.g2, .ofBool (lit (s.readField row col .gBot))), (.b2, .ofBool (lit (s.readField row col .bBot))) ],
    .set [(.clk, .high)],
    .set [(.clk, .low)] ]

/-- The acts of one committed row (rule R148). -/
def commitActs (cfg : Config) (row : Nat) : List Act :=
  [ .set [(.oe, cfg.electrical .off)], .wait cfg.settleUs,
    .set [(.lat, .low)], .wait cfg.settleUs,
    .set [(.lat, .high)],
    .set (rowAddress cfg row), .wait cfg.settleUs,
    .set [(.oe, cfg.electrical .on)] ]

/-- The acts of one scanned row (rule R153). -/
def rowActs (s : State) (lit : Byte → Bool) (row : Nat) : List Act :=
  (List.range s.cfg.rowLength).flatMap (fun col => columnActs s lit row col) ++ commitActs s.cfg row

/-- The acts of a PWM cycle, the loop nest of rule R171. -/
def pwmActs (s : State) : List Act :=
  [.set [(.oe, s.cfg.electrical .on)]]
    ++ (List.range s.countReg.toNat).flatMap (fun i =>
        (List.range s.cfg.scanRows).flatMap fun row =>
          rowActs s (fun d => decide (min 255 ((i + 1) * s.stepReg.toNat) ≤ d.toNat)) row)
    ++ [.set [(.oe, s.cfg.electrical .off)]]

/-- The planes of rule R187 counted down: `7, 6, ..., SHIFT`. -/
def planesFrom (shift : Nat) : List Nat := (List.range 8).reverse.filter fun p => decide (shift ≤ p)

/-- The acts of a BCM cycle, the loop nest of rule R186. -/
def bcmActs (s : State) (base : Nat) : List Act :=
  (planesFrom s.shiftReg.toNat).flatMap (fun p =>
    [.set [(.oe, s.cfg.electrical .off)]]
      ++ (List.range s.cfg.scanRows).flatMap (fun row =>
          rowActs s (fun d => d.getLsbD p) row
            ++ (if s.cfg.bcmDwellPerRow then [.wait (base * 2 ^ (p - s.shiftReg.toNat))] else []))
      ++ [.wait s.cfg.bcmTailUs]
      ++ (if s.cfg.bcmDwellPerRow then [] else [.wait (base * 2 ^ (p - s.shiftReg.toNat))]))
    ++ [.set [(.oe, s.cfg.electrical .off)]]

/-- The single port requests of a list of acts (rule R142). -/
def portActs (cfg : Config) (as : List Act) : List Act := as.flatMap fun a => a.split cfg

/-! Blanking during latch and address change (rule R251). -/

/-- The levels an output word gives the mapped signals. -/
def wordLevels (cfg : Config) (v : Nat) : List (Signal × Level) :=
  cfg.signals.map fun s => (s, Level.ofBool (v.testBit (cfg.bitpos.of s)))

/-- A trace in which every write to `LAT` or an address line is made while `OE` is `off` (rule R251), `o` being what
`OUT` holds before it. A `WW` writes every line: it counts as a write of the lines whose level it changes, an unknown
level counting as 0 (rule R69), and leaves `OE` `off` with them (DEDUCED, notes/assumptions/11.md). -/
def darkWrites (cfg : Config) : Out → List Event → Bool
  | _, [] => true
  | o, .d _ :: rest => darkWrites cfg o rest
  | o, .w s l :: rest => (!s.needsDark || o.oe == some .off) && darkWrites cfg (o.put cfg s l) rest
  | o, .ww v :: rest =>
    let o' := (wordLevels cfg v).foldl (fun acc p => acc.put cfg p.1 p.2) o
    ((wordLevels cfg v).all fun p =>
        !p.1.needsDark || (o.level cfg p.1).getD .low == p.2 || (o.oe == some .off && o'.oe == some .off))
      && darkWrites cfg o' rest

/-- What rule R160 says does not depend on the framebuffer: the kind of an event, and every level but a data line's. -/
inductive EventShape
  | data (s : Signal)
  | control (s : Signal) (l : Level)
  | word (vs : List (Signal × Level))
  | delay (us : Nat)
  deriving DecidableEq, Repr

/-- The shape of an event (rule R160). -/
def Event.shape (cfg : Config) : Event → EventShape
  | .w s l => if s.isData then .data s else .control s l
  | .ww v => .word ((wordLevels cfg v).filter fun p => !p.1.isData)
  | .d us => .delay us

end Sys2Proof.Machine
end

