-- ==== Sys2Proof/Certificates/Slice0/Obligations.lean ====
section
/-! DEFINITION. The statements for the provers. Each docstring names the rule it formalises. -/

open Sys2Proof Sys2Proof.Machine

/-! Encoding (rules R81 to R87). -/

/-- Sanity: words of rule R84's table, written out in 95_test_vectors.md (V1 to V9a, and two illegal words). -/
def Obligations.TableWordsDecode : Prop :=
  decode 0x0100000000000003#64 = .ok (.init 3)
    ∧ decode 0x0280007FFF000000#64 = .ok (.wrpix (-32768) 32767 0 0 0)
    ∧ decode 0x02FFFF0005090909#64 = .ok (.wrpix (-1) 5 9 9 9)
    ∧ decode 0x0300000000FF0080#64 = .ok (.clear 255 0 128)
    ∧ decode 0x0400000000000000#64 = .ok .clrd
    ∧ decode 0x0500000000000000#64 = .ok .size
    ∧ decode 0x0600000000000000#64 = .ok .pwm
    ∧ decode 0x070000000000FFFF#64 = .ok (.bcm 65535)
    ∧ decode 0x0100000000000103#64 = .error .reservedField
    ∧ decode 0xFFFFFFFFFFFFFFFF#64 = .error .unknownOpcode

/-- Rules R81, R82, R84: the word of a well-formed command decodes to it, with every operand at every value. -/
def Obligations.DecodeOfEncode : Prop :=
  ∀ i : Instr, i.wf = true → decode (encode i) = .ok i

/-- Rules R84 to R87: a word that decodes to a command is the word of that command, and the command is well formed: no
two words mean one command. -/
def Obligations.EncodeOfDecode : Prop :=
  ∀ (cw : PortWord) (i : Instr), decode cw = .ok i → i.wf = true ∧ encode i = cw

/-- Rule R84: the rows do not overlap. -/
def Obligations.TableRowsDoNotOverlap : Prop :=
  ∀ cw : PortWord, ∀ row ∈ opcodeTable, ∀ row' ∈ opcodeTable,
    cw &&& row.mask = row.pattern → cw &&& row'.mask = row'.pattern → row = row'

/-- Rules R84 to R86: which words are illegal, and for which reason. -/
def Obligations.IllegalWordsByReason : Prop :=
  ∀ cw : PortWord,
    (decode cw = .error .unknownOpcode ↔
      (cw.extractLsb' 56 8).toNat = 0 ∨ 8 ≤ (cw.extractLsb' 56 8).toNat)
    ∧ (decode cw = .error .reservedField ↔
      (1 ≤ (cw.extractLsb' 56 8).toNat ∧ (cw.extractLsb' 56 8).toNat ≤ 7)
        ∧ ∀ row ∈ opcodeTable, cw &&& row.mask ≠ row.pattern)

/-! The step (rules R10, R60, R80, R213, R226, R230). -/

/-- Rules R60, R80: outside a pass, a step takes the host's next word and, if it is a command, is that command. -/
def Obligations.StepRunsDecodedCommand : Prop :=
  ∀ (s : State) (cw : PortWord) (rest : List PortWord) (i : Instr),
    s.cfg.wf = true → s.mode ≠ .busy → s.port = cw :: rest → decode cw = .ok i →
    step s = exec i { s with port := rest }

/-- Rules R85, R213, R220: a word that matches no row is answered `IllegalCommand`, with no state change and no event,
whether or not the block is constructed. -/
def Obligations.IllegalWordChangesNothing : Prop :=
  ∀ (s : State) (cw : PortWord) (rest : List PortWord),
    s.cfg.wf = true → s.mode ≠ .busy → s.port = cw :: rest →
    (∀ row ∈ opcodeTable, cw &&& row.mask ≠ row.pattern) →
    step s = .next { s with port := rest, responses := 0x0300000000000000#64 :: s.responses }

/-- Rule R230 (reading: with no word presented a step changes nothing, notes/assumptions/5.md). -/
def Obligations.IdleBlockHoldsItsState : Prop :=
  ∀ s : State, s.cfg.wf = true → s.mode ≠ .busy → s.port = [] → step s = .next s

/-- When the model's check accepts a configuration. Items 1 to 4 and 6 are those of rule R10. Two clauses are the model's
reading (DEDUCED, notes/assumptions/7.md): item 5 is asked of the signals that exist only, so not of `F` with 16 scan rows;
and a settling delay outside its type in rule R9 is ill formed. -/
def Obligations.ConfigurationWellFormed : Prop :=
  ∀ cfg : Config, cfg.wf = true ↔
    (cfg.scanRows = 16 ∨ cfg.scanRows = 32)
    ∧ (1 ≤ cfg.rowLength ∧ cfg.rowLength ≤ 32768)
    ∧ (cfg.stripeMux = true → 2 * cfg.stripeW ∣ cfg.rowLength)
    ∧ ((∀ i j : Byte, i.toNat ≤ j.toNat → (cfg.gammaAt i).toNat ≤ (cfg.gammaAt j).toNat)
        ∧ cfg.gammaAt 0 = 0 ∧ cfg.gammaAt 255 = 255)
    ∧ (cfg.variant = .word →
        (∀ s ∈ cfg.signals, cfg.bitpos.of s < cfg.portWidth)
        ∧ ∀ s ∈ cfg.signals, ∀ s' ∈ cfg.signals, cfg.bitpos.of s = cfg.bitpos.of s' → s = s')
    ∧ (1 ≤ cfg.physScanRows ∧ 1 ≤ cfg.stripeW)
    ∧ (cfg.settleUs = 1 ∨ cfg.settleUs = 2)

/-- Rule R10: an ill-formed configuration has no meaning. -/
def Obligations.IllFormedConfigurationRefused : Prop :=
  ∀ s : State, s.cfg.wf = false →
    step s = .refused .illFormedConfig ∧ ∀ i : Instr, exec i s = .refused .illFormedConfig

/-- Rule R226: while `MODE = BUSY` no command is accepted, and the words the host holds stay where they are. That a
command in `BUSY` has no step, where R203, R213 and the preface of 40_pixel_write.md name a response, is the model's reading
(DEDUCED, notes/assumptions/13.md); that a state in `BUSY` has a step of its own is the model's choice (DESIGN CHOICE,
notes/assumptions/6.md). -/
def Obligations.BusyPortAcceptsNoWord : Prop :=
  ∀ s : State, s.cfg.wf = true → s.mode = .busy →
    (∀ i : Instr, exec i s = .refused .portClosed)
    ∧ ∀ t : State, step s = .next t → t.port = s.port

/-- Rules R60, R80, R83: outside a pass every presented word is answered by exactly one response, after which the block
is not busy; the status is one of the five, bits 55 to 32 are 0, and only a SIZE that ends `OK` has a payload. That a whole
pass is one step is the model's choice (notes/assumptions/6.md). -/
def Obligations.EveryWordIsAnsweredOnce : Prop :=
  ∀ (s : State) (cw : PortWord) (rest : List PortWord),
    s.cfg.wf = true → s.mode ≠ .busy → s.port = cw :: rest →
    ∃ (t : State) (rw : PortWord), step s = .next t ∧ t.responses = rw :: s.responses ∧ t.port = rest
      ∧ t.mode ≠ .busy
      ∧ (rw.extractLsb' 56 8).toNat ≤ 4 ∧ rw.extractLsb' 32 24 = 0
      ∧ (rw.extractLsb' 0 32 ≠ 0 → decode cw = .ok .size ∧ rw.extractLsb' 56 8 = 0)

/-! INIT and the lifecycle (rules R200 to R203, R214, R224). -/

/-- Rules R200, R202, R24: a legal INIT before construction, and its frame. -/
def Obligations.InitConstructs : Prop :=
  ∀ (s : State) (bits : Byte),
    s.cfg.wf = true → s.mode = .unconstructed → 1 ≤ bits.toNat → bits.toNat ≤ 8 →
    ∃ t : State, exec (.init bits) s = .next t
      ∧ t.bitsReg.toNat = bits.toNat
      ∧ t.stepReg.toNat = 2 ^ (8 - bits.toNat)
      ∧ t.countReg.toNat = 2 ^ bits.toNat - 1
      ∧ t.shiftReg.toNat = 8 - bits.toNat
      ∧ (∀ j : Nat, t.fb.read j = 0) ∧ Memory.wf t.fb
      ∧ t.seq = .idle ∧ t.mode = .ready
      ∧ t.responses = 0#64 :: s.responses
      ∧ t.cfg = s.cfg ∧ t.out = s.out ∧ t.log = s.log ∧ t.port = s.port
      ∧ t.answers = s.answers ∧ t.asked = s.asked

/-- Rule R211 (and R201, R220): before construction, INIT with `bits` 0 or greater than 8 is answered `ConfigError` and
changes nothing; and `ConfigError` is answered by nothing else. -/
def Obligations.ConfigErrorExactlyForIllegalBits : Prop :=
  ∀ s : State, s.cfg.wf = true →
    (∀ bits : Byte, s.mode = .unconstructed → (bits.toNat = 0 ∨ 8 < bits.toNat) →
      exec (.init bits) s = .next { s with responses := 0x0100000000000000#64 :: s.responses })
    ∧ ∀ (i : Instr) (t : State) (rw : PortWord), exec i s = .next t → t.responses = rw :: s.responses →
        rw.extractLsb' 56 8 = 0x01#8 → ∃ bits : Byte, i = .init bits ∧ (bits.toNat = 0 ∨ 8 < bits.toNat)

/-- The table of commands and modes of rule R214. Where a command is not allowed it is answered `BadState` with no state
change and no event (for INIT whatever its operand, rule R218); while `BUSY` it is not accepted; where it is allowed it
completes and is not answered `BadState`. The clause on `BUSY` is the model's reading of rules that differ (R203 and the
preface of 40_pixel_write.md say `BadState` there; DEDUCED, notes/assumptions/13.md). -/
def Obligations.LifecycleTable : Prop :=
  ∀ (s : State) (i : Instr), s.cfg.wf = true →
    (s.mode = .unconstructed → (∀ bits, i ≠ .init bits) →
      exec i s = .next { s with responses := 0x0400000000000000#64 :: s.responses })
    ∧ (s.mode = .ready → (∃ bits, i = .init bits) →
      exec i s = .next { s with responses := 0x0400000000000000#64 :: s.responses })
    ∧ (s.mode = .busy → exec i s = .refused .portClosed)
    ∧ ((s.mode = .unconstructed ∧ ∃ bits, i = .init bits) ∨ (s.mode = .ready ∧ ∀ bits, i ≠ .init bits) →
      ∃ (t : State) (rw : PortWord), exec i s = .next t ∧ t.responses = rw :: s.responses
        ∧ rw.extractLsb' 56 8 ≠ 0x04#8)

/-- Rule R224: `UNCONSTRUCTED` is left only by a legal INIT and never entered. That no step ends in a newly entered `BUSY`
is the grain of the model's step, not the rule's (R25 and R224: PWM and BCM enter `BUSY` and leave it): a whole pass is
inside one step (DESIGN CHOICE, notes/assumptions/6.md). -/
def Obligations.ModeTransitions : Prop :=
  ∀ s t : State, step s = .next t →
    (t.mode = .unconstructed → s.mode = .unconstructed)
    ∧ (t.mode = .busy → s.mode = .busy)
    ∧ (s.mode = .unconstructed → t.mode ≠ .unconstructed →
      ∃ (cw : PortWord) (rest : List PortWord) (bits : Byte), s.port = cw :: rest ∧ decode cw = .ok (.init bits)
        ∧ 1 ≤ bits.toNat ∧ bits.toNat ≤ 8 ∧ t.mode = .ready)

/-- Rule R26: `BITS`, `STEP`, `COUNT` and `SHIFT` are written once, by a successful INIT. -/
def Obligations.BrightnessWrittenOnlyByInit : Prop :=
  ∀ s t : State, step s = .next t → (s.mode ≠ .unconstructed ∨ t.mode = .unconstructed) →
    t.bitsReg = s.bitsReg ∧ t.stepReg = s.stepReg ∧ t.countReg = s.countReg ∧ t.shiftReg = s.shiftReg

/-! The pixel-write commands (rules R110 to R125). -/

/-- Rule R112: coordinates outside the panel are ignored, with `OK`. -/
def Obligations.WrpixOutOfBoundsIgnored : Prop :=
  ∀ (s : State) (x y : Int) (r g b : Byte),
    s.cfg.wf = true → s.mode = .ready →
    ¬ (0 ≤ x ∧ x < (if s.cfg.stripeMux then s.cfg.rowLength / 2 else s.cfg.rowLength : Nat)
        ∧ 0 ≤ y ∧ y < (if s.cfg.stripeMux then 4 * s.cfg.scanRows else 2 * s.cfg.scanRows : Nat)) →
    exec (.wrpix x y r g b) s = .next { s with responses := 0#64 :: s.responses }

/-- Rules R110, R114, R115: WRPIX without stripe multiplexing stores the corrected triple in the top half of buffer row
`y mod SCAN_ROWS` if `y < SCAN_ROWS`, else in its bottom half, at column `x`, and changes no other element. -/
def Obligations.WrpixStoresPlain : Prop :=
  ∀ (s : State) (x y : Nat) (r g b : Byte),
    s.cfg.wf = true → s.mode = .ready → Memory.wf s.fb → s.cfg.stripeMux = false →
    x < s.cfg.rowLength → y < 2 * s.cfg.scanRows →
    ∃ t : State, exec (.wrpix x y r g b) s = .next t
      ∧ t = { s with fb := t.fb, responses := 0#64 :: s.responses }
      ∧ Memory.wf t.fb
      ∧ (y < s.cfg.scanRows →
          t.readField y x .rTop = s.cfg.gammaAt r ∧ t.readField y x .gTop = s.cfg.gammaAt g
          ∧ t.readField y x .bTop = s.cfg.gammaAt b
          ∧ ∀ j, j ≠ fbIndex s.cfg y x .rTop → j ≠ fbIndex s.cfg y x .gTop → j ≠ fbIndex s.cfg y x .bTop →
              t.fb.read j = s.fb.read j)
      ∧ (s.cfg.scanRows ≤ y →
          t.readField (y - s.cfg.scanRows) x .rBot = s.cfg.gammaAt r
          ∧ t.readField (y - s.cfg.scanRows) x .gBot = s.cfg.gammaAt g
          ∧ t.readField (y - s.cfg.scanRows) x .bBot = s.cfg.gammaAt b
          ∧ ∀ j, j ≠ fbIndex s.cfg (y - s.cfg.scanRows) x .rBot → j ≠ fbIndex s.cfg (y - s.cfg.scanRows) x .gBot →
              j ≠ fbIndex s.cfg (y - s.cfg.scanRows) x .bBot → t.fb.read j = s.fb.read j)

/-- Rules R110, R113, R115: WRPIX with stripe multiplexing stores the corrected triple at buffer row `y mod SCAN_ROWS`
and column `x + STRIPE_W * (x div STRIPE_W)`, plus `STRIPE_W` if `y mod PHYS_SCAN_ROWS < SCAN_ROWS`, in the top half if
`y mod PHYS_SCAN_ROWS > HALF_SPLIT`, else the bottom half, and changes no other element. -/
def Obligations.WrpixStoresMultiplexed : Prop :=
  ∀ (s : State) (x y : Nat) (r g b : Byte) (row col : Nat),
    s.cfg.wf = true → s.mode = .ready → Memory.wf s.fb → s.cfg.stripeMux = true →
    x < s.cfg.rowLength / 2 → y < 4 * s.cfg.scanRows →
    row = y % s.cfg.scanRows →
    col = x + s.cfg.stripeW * (x / s.cfg.stripeW)
      + (if y % s.cfg.physScanRows < s.cfg.scanRows then s.cfg.stripeW else 0) →
    ∃ t : State, exec (.wrpix x y r g b) s = .next t
      ∧ t = { s with fb := t.fb, responses := 0#64 :: s.responses }
      ∧ Memory.wf t.fb
      ∧ (s.cfg.halfSplit < y % s.cfg.physScanRows →
          t.readField row col .rTop = s.cfg.gammaAt r ∧ t.readField row col .gTop = s.cfg.gammaAt g
          ∧ t.readField row col .bTop = s.cfg.gammaAt b
          ∧ ∀ j, j ≠ fbIndex s.cfg row col .rTop → j ≠ fbIndex s.cfg row col .gTop →
              j ≠ fbIndex s.cfg row col .bTop → t.fb.read j = s.fb.read j)
      ∧ (y % s.cfg.physScanRows ≤ s.cfg.halfSplit →
          t.readField row col .rBot = s.cfg.gammaAt r ∧ t.readField row col .gBot = s.cfg.gammaAt g
          ∧ t.readField row col .bBot = s.cfg.gammaAt b
          ∧ ∀ j, j ≠ fbIndex s.cfg row col .rBot → j ≠ fbIndex s.cfg row col .gBot →
              j ≠ fbIndex s.cfg row col .bBot → t.fb.read j = s.fb.read j)

/-- Rule R116: the mapped index of an in-bounds pixel lies in the framebuffer, and under multiplexing stripe `s` of the
logical row occupies buffer columns `2 * STRIPE_W * s` up, the upper `STRIPE_W` of them for `is_top_half`. -/
def Obligations.MappedIndexInFramebuffer : Prop :=
  ∀ (cfg : Config) (x y : Nat), cfg.wf = true → inBounds cfg x y = true →
    (mapPixel cfg x y).row < cfg.scanRows ∧ (mapPixel cfg x y).col < cfg.rowLength
    ∧ (cfg.stripeMux = true →
        (mapPixel cfg x y).col / (2 * cfg.stripeW) = x / cfg.stripeW
        ∧ (cfg.stripeW ≤ (mapPixel cfg x y).col % (2 * cfg.stripeW) ↔ y % cfg.physScanRows < cfg.scanRows))

/-- Rule R117, non-multiplexed: the map of in-bounds pixels is a bijection onto the half-slots. -/
def Obligations.PlainMapperIsBijective : Prop :=
  ∀ cfg : Config, cfg.wf = true → cfg.stripeMux = false →
    ∀ (row col : Nat) (half : Half), row < cfg.scanRows → col < cfg.rowLength →
      ∃! p : Nat × Nat, inBounds cfg p.1 p.2 = true ∧ mapPixel cfg p.1 p.2 = ⟨row, col, half⟩

/-- Rule R117, multiplexed with the defaults: `y` and `y + PHYS_SCAN_ROWS` share a half-slot, and below
`PHYS_SCAN_ROWS` the map is injective. -/
def Obligations.MultiplexedMapperAliases : Prop :=
  ∀ cfg : Config, cfg.wf = true → cfg.stripeMux = true → cfg.physScanRows = 2 * cfg.scanRows → cfg.halfSplit = 15 →
    (∀ x y : Nat, mapPixel cfg x (y + cfg.physScanRows) = mapPixel cfg x y)
    ∧ ∀ x y x' y' : Nat, y < cfg.physScanRows → y' < cfg.physScanRows →
        mapPixel cfg x y = mapPixel cfg x' y' → x = x' ∧ y = y'

/-- Rule R120: CLEAR fills every cell's both halves, and its frame. -/
def Obligations.ClearFillsEveryCell : Prop :=
  ∀ (s : State) (r g b : Byte), s.cfg.wf = true → s.mode = .ready → Memory.wf s.fb →
    ∃ t : State, exec (.clear r g b) s = .next t
      ∧ t = { s with fb := t.fb, responses := 0#64 :: s.responses }
      ∧ Memory.wf t.fb
      ∧ (∀ row col, row < s.cfg.scanRows → col < s.cfg.rowLength →
          t.readField row col .rTop = s.cfg.gammaAt r ∧ t.readField row col .gTop = s.cfg.gammaAt g
          ∧ t.readField row col .bTop = s.cfg.gammaAt b ∧ t.readField row col .rBot = s.cfg.gammaAt r
          ∧ t.readField row col .gBot = s.cfg.gammaAt g ∧ t.readField row col .bBot = s.cfg.gammaAt b)
      ∧ ∀ j, s.cfg.scanRows * s.cfg.rowLength * 6 ≤ j → t.fb.read j = s.fb.read j

/-- Rule R122: CLRD zeroes every field, whatever the gamma table, and its frame. -/
def Obligations.ClrdBlanksEveryField : Prop :=
  ∀ s : State, s.cfg.wf = true → s.mode = .ready → Memory.wf s.fb →
    ∃ t : State, exec .clrd s = .next t
      ∧ t = { s with fb := t.fb, responses := 0#64 :: s.responses }
      ∧ Memory.wf t.fb
      ∧ (∀ row col f, row < s.cfg.scanRows → col < s.cfg.rowLength → t.readField row col f = 0)
      ∧ ∀ j, s.cfg.scanRows * s.cfg.rowLength * 6 ≤ j → t.fb.read j = s.fb.read j

/-- Rules R120, R122, corner cases: `CLEAR 0, 0, 0` is CLRD, and a second CLRD leaves the framebuffer of the first. -/
def Obligations.ClearBlackIsClrdAndClrdIdempotent : Prop :=
  ∀ s : State, s.cfg.wf = true → s.mode = .ready → Memory.wf s.fb →
    exec (.clear 0 0 0) s = exec .clrd s
    ∧ ∃ t u : State, exec .clrd s = .next t ∧ exec .clrd t = .next u ∧ u.fb = t.fb

/-- Rule R125 with rule R83: SIZE answers width and height and changes nothing. -/
def Obligations.SizeReportsPanel : Prop :=
  ∀ s : State, s.cfg.wf = true → s.mode = .ready →
    ∃ rw : PortWord, exec .size s = .next { s with responses := rw :: s.responses }
      ∧ rw.extractLsb' 56 8 = 0 ∧ rw.extractLsb' 32 24 = 0
      ∧ (rw.extractLsb' 16 16).toNat = (if s.cfg.stripeMux then s.cfg.rowLength / 2 else s.cfg.rowLength)
      ∧ (rw.extractLsb' 0 16).toNat = (if s.cfg.stripeMux then 4 * s.cfg.scanRows else 2 * s.cfg.scanRows)

/-- Rules R89, R118: WRMANY is its WRPIX commands in order; in `READY` it never stops early, each is answered `OK`, and
its effect is the composition of their stores. -/
def Obligations.WrmanyIsItsPixelsInOrder : Prop :=
  ∀ (s : State) (ps : List Pixel) (rest : List PortWord),
    s.cfg.wf = true → s.mode = .ready → (∀ p ∈ ps, fitsS16 p.x = true ∧ fitsS16 p.y = true) →
    s.port = (wrmany ps).map encode ++ rest →
    ∃ t : State, Host.Core.run Sys2Proof.core ps.length s = .next t
      ∧ t = { s with fb := t.fb, port := rest, responses := List.replicate ps.length 0#64 ++ s.responses }
      ∧ t.fb = ps.foldl (fun m p =>
          if inBounds s.cfg p.x p.y = true then
            m.writeAll (halfWrites s.cfg (mapPixel s.cfg p.x.toNat p.y.toNat).row
              (mapPixel s.cfg p.x.toNat p.y.toNat).col (mapPixel s.cfg p.x.toNat p.y.toNat).half
              (s.cfg.gammaAt p.r, s.cfg.gammaAt p.g, s.cfg.gammaAt p.b))
          else m) s.fb

/-! The output passes (rules R140 to R194). -/

/-- Rules R170, R171, R146 to R148: with every write answered ok, PWM issues exactly the events of its loop nest, in
order, in either port variant, ends `READY` with `OK`, and changes nothing but `OUT`, the trace and the answers used. -/
def Obligations.PwmIssuesItsCycle : Prop :=
  ∀ s : State, s.cfg.wf = true → s.mode = .ready →
    (∀ k, k < writeCount (portActs s.cfg (pwmActs s)) → s.answerAt k = .ok) →
    exec .pwm s = .next { s with
      seq := .idle
      out := outAfterActs s.cfg s.out (portActs s.cfg (pwmActs s))
      log := (emit s.cfg s.out (portActs s.cfg (pwmActs s))).reverse ++ s.log
      responses := 0#64 :: s.responses
      answers := s.answers.drop (writeCount (portActs s.cfg (pwmActs s)))
      asked := s.asked + writeCount (portActs s.cfg (pwmActs s)) }

/-- Rules R185, R186, R146 to R148: the same for BCM. -/
def Obligations.BcmIssuesItsCycle : Prop :=
  ∀ (s : State) (base : Nat), s.cfg.wf = true → s.mode = .ready →
    (∀ k, k < writeCount (portActs s.cfg (bcmActs s base)) → s.answerAt k = .ok) →
    exec (.bcm base) s = .next { s with
      seq := .idle
      out := outAfterActs s.cfg s.out (portActs s.cfg (bcmActs s base))
      log := (emit s.cfg s.out (portActs s.cfg (bcmActs s base))).reverse ++ s.log
      responses := 0#64 :: s.responses
      answers := s.answers.drop (writeCount (portActs s.cfg (bcmActs s base)))
      asked := s.asked + writeCount (portActs s.cfg (bcmActs s base)) }

/-- Rules R212, R219, R221 for PWM: the first write answered `fault` is the last event of the cycle; it is in the trace,
`OUT` holds the levels of the writes before it, the block is `READY`, and nothing else changes. -/
def Obligations.PwmStopsAtFirstPinFault : Prop :=
  ∀ (s : State) (before after : List Act) (vs : List (Signal × Level)), s.cfg.wf = true → s.mode = .ready →
    portActs s.cfg (pwmActs s) = before ++ .set vs :: after →
    (∀ k, k < writeCount before → s.answerAt k = .ok) → s.answerAt (writeCount before) = .fault →
    exec .pwm s = .next { s with
      seq := .idle
      out := outAfterActs s.cfg s.out before
      log := Act.event s.cfg (outAfterActs s.cfg s.out before) (.set vs)
        :: (emit s.cfg s.out before).reverse ++ s.log
      responses := 0x0200000000000000#64 :: s.responses
      answers := s.answers.drop (writeCount before + 1)
      asked := s.asked + writeCount before + 1 }

/-- Rules R212, R219, R221 for BCM. -/
def Obligations.BcmStopsAtFirstPinFault : Prop :=
  ∀ (s : State) (base : Nat) (before after : List Act) (vs : List (Signal × Level)),
    s.cfg.wf = true → s.mode = .ready →
    portActs s.cfg (bcmActs s base) = before ++ .set vs :: after →
    (∀ k, k < writeCount before → s.answerAt k = .ok) → s.answerAt (writeCount before) = .fault →
    exec (.bcm base) s = .next { s with
      seq := .idle
      out := outAfterActs s.cfg s.out before
      log := Act.event s.cfg (outAfterActs s.cfg s.out before) (.set vs)
        :: (emit s.cfg s.out before).reverse ++ s.log
      responses := 0x0200000000000000#64 :: s.responses
      answers := s.answers.drop (writeCount before + 1)
      asked := s.asked + writeCount before + 1 }

/-- Rule R30 (the sequencer position): a whole pass is the run of its single events, each a step in `BUSY`, from the
pass's own beginning. The grain of a step in `BUSY` is notes/assumptions/6.md. -/
def Obligations.PassIsTheRunOfItsEvents : Prop :=
  ∀ s : State, s.cfg.wf = true → s.mode = .ready →
    (∃ n, Host.Core.run Sys2Proof.core n (beginPass .pwm (passSlots s .pwm 0) s) = exec .pwm s)
    ∧ ∀ base, ∃ n, Host.Core.run Sys2Proof.core n (beginPass .bcm (passSlots s .bcm base) s) = exec (.bcm base) s

/-- Rules R61, R141: in a state of the invariant, a step in `BUSY` issues exactly one event, and `OUT` changes only if
the event was a write answered ok. -/
def Obligations.BusyStepIssuesOneEvent : Prop :=
  ∀ s : State, s.Inv → s.mode = .busy →
    ∃ (t : State) (e : Event), step s = .next t ∧ t.log = e :: s.log ∧ t.fb = s.fb
      ∧ (t.out ≠ s.out → s.answerAt 0 = .ok ∧ ∀ us, e ≠ .d us)

/-- Rules R212, R221 at the event: a write answered `fault` during a pass ends it. -/
def Obligations.PinFaultEndsThePass : Prop :=
  ∀ (s : State) (kind : PassKind) (now : Slot) (later : List Slot),
    s.cfg.wf = true → s.mode = .busy → s.seq = .running kind now later →
    now.req.inRange s.cfg = true → now.req.isWrite = true → s.answerAt 0 = .fault →
    step s = .next { s with
      mode := .ready
      seq := .idle
      log := now.req.event s :: s.log
      responses := 0x0200000000000000#64 :: s.responses
      answers := s.answers.tail
      asked := s.asked + 1 }

/-- Rule R251: in every pass, whatever the framebuffer and the answers, `LAT` and the address lines are written only
while `OE` is `off`. On the parallel port, what counts as a write of one of these lines (a word that changes its level) is
the model's reading of the rule (DEDUCED, notes/assumptions/11.md). -/
def Obligations.LatchAndAddressOnlyWhileDark : Prop :=
  ∀ (s t : State) (i : Instr), s.cfg.wf = true → s.mode = .ready → (i = .pwm ∨ ∃ base, i = .bcm base) →
    exec i s = .next t →
    ∃ es : List Event, t.trace = s.trace ++ es ∧ darkWrites s.cfg s.out es = true

/-- Rule R160: the number and kinds of the events of a pass, and every level but a data line's, do not depend on the
framebuffer. -/
def Obligations.PassShapeIgnoresFramebuffer : Prop :=
  ∀ (s : State) (m : Memory) (i : Instr), s.cfg.wf = true → s.mode = .ready → (i = .pwm ∨ ∃ base, i = .bcm base) →
    ∃ t u : State, exec i s = .next t ∧ exec i { s with fb := m } = .next u
      ∧ t.trace.map (Event.shape s.cfg) = u.trace.map (Event.shape s.cfg)
      ∧ t.responses = u.responses

/-- Rules R151, R152, R157, R173, R191: after a pass that ended `OK` the clock is low, the latch high, the address that
of the last row, and output off. The premise on the brightness constants is a part of `State.Inv`. -/
def Obligations.LevelsAfterACycle : Prop :=
  ∀ (s t : State) (i : Instr), s.cfg.wf = true → s.mode = .ready → s.brightnessOk →
    (i = .pwm ∨ ∃ base, i = .bcm base) → exec i s = .next t → t.responses = 0#64 :: s.responses →
    t.out.clk = some .low ∧ t.out.lat = some .high ∧ t.out.oe = some .off
      ∧ t.out.a = some .high ∧ t.out.b = some .high ∧ t.out.c = some .high ∧ t.out.d = some .high
      ∧ (s.cfg.scanRows = 32 → t.out.f = some .high)

/-- Rule R69 with rules R35, R68: every bit of an output word. -/
def Obligations.OutputWordBits : Prop :=
  ∀ (cfg : Config) (o : Out) (named : List (Signal × Level)), cfg.bitposOk = true →
    (∀ s ∈ cfg.signals, (composeWord cfg o named).testBit (cfg.bitpos.of s) =
      decide ((match named.lookup s with
        | some l => l
        | none => (o.level cfg s).getD .low) = .high))
    ∧ (∀ k, (∀ s ∈ cfg.signals, cfg.bitpos.of s ≠ k) → (composeWord cfg o named).testBit k = false)
    ∧ composeWord cfg o named < 2 ^ cfg.portWidth

/-- Rule R174: the size of a PWM cycle. -/
def Obligations.PwmCycleSize : Prop :=
  ∀ (s : State) (writes : Nat), s.cfg.wf = true → s.mode = .ready →
    writes = (match s.cfg.variant with
      | .pins => 2 + s.countReg.toNat * s.cfg.scanRows * (8 * s.cfg.rowLength + 4 + s.cfg.nAddr)
      | .word => 2 + s.countReg.toNat * s.cfg.scanRows * (3 * s.cfg.rowLength + 5)) →
    (∀ k, k < writes → s.answerAt k = .ok) →
    ∃ (t : State) (es : List Event), exec .pwm s = .next t ∧ t.trace = s.trace ++ es ∧ t.asked = s.asked + writes
      ∧ es.length = writes + 3 * s.countReg.toNat * s.cfg.scanRows
      ∧ es.count (.d s.cfg.settleUs) = 3 * s.countReg.toNat * s.cfg.scanRows
      ∧ (s.cfg.variant = .pins →
          es.count (.w .clk .high) = s.countReg.toNat * s.cfg.scanRows * s.cfg.rowLength)

/-- Rule R192: the size of a BCM cycle, for the constants of a constructed block. -/
def Obligations.BcmCycleSize : Prop :=
  ∀ (s : State) (base writes : Nat), s.cfg.wf = true → s.mode = .ready → s.brightnessOk →
    writes = (match s.cfg.variant with
      | .pins => 1 + s.bitsReg.toNat * (1 + s.cfg.scanRows * (8 * s.cfg.rowLength + 4 + s.cfg.nAddr))
      | .word => 1 + s.bitsReg.toNat * (1 + s.cfg.scanRows * (3 * s.cfg.rowLength + 5))) →
    (∀ k, k < writes → s.answerAt k = .ok) →
    ∃ (t : State) (es : List Event), exec (.bcm base) s = .next t ∧ t.trace = s.trace ++ es
      ∧ t.asked = s.asked + writes
      ∧ es.length = writes + (if s.cfg.bcmDwellPerRow then s.bitsReg.toNat * (4 * s.cfg.scanRows + 1)
          else s.bitsReg.toNat * (3 * s.cfg.scanRows + 2))
      ∧ (s.cfg.variant = .pins →
          es.count (.w .clk .high) = s.bitsReg.toNat * s.cfg.scanRows * s.cfg.rowLength)

/-- Rules R17, R172: for a legal `BITS` the saturation of a threshold is inactive. -/
def Obligations.ThresholdNeverSaturates : Prop :=
  ∀ bits i : Nat, 1 ≤ bits → bits ≤ 8 → i < countOf bits →
    threshold (stepOf bits) i = (i + 1) * stepOf bits ∧ (i + 1) * stepOf bits ≤ 255

/-- Rule R175: a duty `d` is lit in the first `min(COUNT, d div STEP)` iterations and no other. -/
def Obligations.LitIterationsOfADuty : Prop :=
  ∀ (bits i : Nat) (d : Byte), 1 ≤ bits → bits ≤ 8 → i < countOf bits →
    ((Lit.atLeast (threshold (stepOf bits) i)).test d = true ↔ i < min (countOf bits) (d.toNat / stepOf bits))

/-- Rules R187, R193: the planes in scan order, and what they weight: the top `BITS` bits of a duty. -/
def Obligations.PlaneWeightsOfADuty : Prop :=
  ∀ (bits : Nat) (d : Byte), 1 ≤ bits → bits ≤ 8 →
    (planes (shiftOf bits)).length = bits
    ∧ (∀ k, k < bits → (planes (shiftOf bits))[k]? = some (7 - k))
    ∧ ((planes (shiftOf bits)).map fun p =>
        if (Lit.bit p).test d = true then 2 ^ (p - shiftOf bits) else 0).sum = d.toNat / 2 ^ shiftOf bits

/-- Rule R190: each plane's dwell is twice the next one's, the last is `base`, and they sum to `base * COUNT`. -/
def Obligations.DwellsOfACycle : Prop :=
  ∀ bits base : Nat, 1 ≤ bits → bits ≤ 8 →
    (∀ p, shiftOf bits ≤ p → p < 7 → dwell base (shiftOf bits) (p + 1) = 2 * dwell base (shiftOf bits) p)
    ∧ dwell base (shiftOf bits) (shiftOf bits) = base
    ∧ ((planes (shiftOf bits)).map fun p => dwell base (shiftOf bits) p).sum = base * countOf bits

/-- Rules R72, R153, with an assumed observer (PRESUMED: general knowledge, notes/assumptions/8.md): the events of one
scanned row leave its bits in the output stage, its row selected and output on. The panel's clock is low before them; a
panel that loads on the falling edge of the latch has its latch high before them (so not the first row after power-up, rule
R151), one that loads on the rising edge or at the high level needs nothing of the kind; on the parallel port `OUT` remembers
the level of every line of the panel. -/
def Obligations.ScannedRowReachesThePanel : Prop :=
  ∀ (s : State) (lit : Byte → Bool) (row : Nat) (p : Panel) (kind : LatchKind),
    s.cfg.wf = true → row < s.cfg.scanRows →
    (s.cfg.variant = .word → ∀ sig ∈ s.cfg.signals, s.out.level s.cfg sig = some (p.lines.get sig)) →
    p.lines.clk = .low → (kind = .falling → p.lines.lat = .high) →
    ∃ q : Panel, q = p.observe s.cfg kind (emit s.cfg s.out (portActs s.cfg (rowActs s lit row)))
      ∧ q.selectedRow s.cfg = row
      ∧ q.lines.oe = s.cfg.electrical .on
      ∧ ∀ col, col < s.cfg.rowLength →
          q.latchedBit s.cfg .r1 col = lit (s.readField row col .rTop)
          ∧ q.latchedBit s.cfg .g1 col = lit (s.readField row col .gTop)
          ∧ q.latchedBit s.cfg .b1 col = lit (s.readField row col .bTop)
          ∧ q.latchedBit s.cfg .r2 col = lit (s.readField row col .rBot)
          ∧ q.latchedBit s.cfg .g2 col = lit (s.readField row col .gBot)
          ∧ q.latchedBit s.cfg .b2 col = lit (s.readField row col .bBot)

/-! The whole machine. -/

/-- Rules R37, R240, R242: the state after power-up, for every configuration; `CFG` is the same after every reset. -/
def Obligations.PowerUpState : Prop :=
  ∀ (cfg : Config) (s : State),
    (State.resetWith cfg).mode = .unconstructed ∧ (State.resetWith cfg).seq = .idle
    ∧ (∀ sig : Signal, (State.resetWith cfg).out.level cfg sig = none)
    ∧ (State.resetWith cfg).trace = [] ∧ (State.resetWith cfg).cfg = cfg
    ∧ s.powerUp = State.resetWith s.cfg
    ∧ State.reset = State.resetWith State.reset.cfg

/-- The invariant holds after power-up, for every well-formed configuration. Its clauses on the framebuffer rest there on
the model's choice of contents before construction, which rule R24 and U13 leave unspecified (DESIGN CHOICE,
notes/assumptions/4.md); `State.reset` has the configuration of notes/assumptions/1.md (DESIGN CHOICE). -/
def Obligations.InvariantAtPowerUp : Prop :=
  (∀ cfg : Config, cfg.wf = true → (State.resetWith cfg).Inv) ∧ State.reset.Inv

/-- Rules R7, R10, R22, R26, R28, R30, R34: every step keeps the invariant. A step in `BUSY` is the model's own
(notes/assumptions/6.md), and before construction the clauses on the framebuffer are about contents the model chose
(notes/assumptions/4.md). -/
def Obligations.StepKeepsInvariant : Prop :=
  ∀ s t : State, s.Inv → step s = .next t → t.Inv

/-- Rule R53: no access traps: from a state of the invariant a step always has a next state, a step in `BUSY`
(notes/assumptions/6.md) and one with no word presented (notes/assumptions/5.md) among them. -/
def Obligations.NoStepStops : Prop :=
  ∀ s : State, s.Inv → ∃ t : State, step s = .next t

/-- Rules R13, R242: no step changes the configuration, takes an event back or a response back. -/
def Obligations.StepKeepsConfigurationAndHistory : Prop :=
  ∀ s t : State, step s = .next t →
    t.cfg = s.cfg ∧ s.trace <+: t.trace ∧ s.responses <:+ t.responses

/-- Rule R23: the framebuffer changes only by WRPIX, CLEAR, CLRD and INIT; events are issued only by PWM and BCM, or in
the middle of a pass. -/
def Obligations.WhoWritesFramebufferAndTrace : Prop :=
  ∀ (s t : State) (i : Instr), exec i s = .next t →
    (t.fb ≠ s.fb → (∃ bits, i = .init bits) ∨ (∃ x y r g b, i = .wrpix x y r g b) ∨ (∃ r g b, i = .clear r g b)
      ∨ i = .clrd)
    ∧ (t.log ≠ s.log ∨ t.out ≠ s.out → i = .pwm ∨ ∃ base, i = .bcm base)
end

