-- ==== Sys2Proof/Laws/Memory.lean ====
section
/-! SUPPORT. The laws of the framebuffer: read after write, the canonical form, and equality of canonical memories. -/

namespace Sys2Proof.Machine

@[simp] theorem Memory.read_nil (i : Nat) : Memory.read [] i = Memory.unlisted := rfl

theorem Memory.read_write_same (m : Memory) (i : Nat) (v : Byte) (h : m.Pairwise fun c d => c.1 < d.1) :
    (m.write i v).read i = v := by
  induction m with
  | nil => by_cases hv : v = Memory.unlisted <;> simp [Memory.write, Memory.read, hv]
  | cons c rest ih =>
    obtain ⟨a, w⟩ := c
    obtain ⟨hlt, hrest⟩ := List.pairwise_cons.mp h
    have unlisted_above : ∀ m : Memory, (∀ d ∈ m, i < d.1) → m.read i = Memory.unlisted := by
      intro m hm
      induction m with
      | nil => rfl
      | cons d m ih =>
        have hd := hm d (by simp)
        rw [Memory.read, if_neg (by omega)]
        exact ih fun e he => hm e (by simp [he])
    rw [Memory.write]
    by_cases hia : i < a
    · rw [if_pos hia]
      by_cases hv : v = Memory.unlisted
      · rw [if_pos hv, hv]
        refine unlisted_above _ fun d hd => ?_
        rcases List.mem_cons.mp hd with rfl | hd
        · exact hia
        · exact Nat.lt_trans hia (hlt d hd)
      · rw [if_neg hv]; simp [Memory.read]
    · rw [if_neg hia]
      by_cases hie : i = a
      · subst hie
        rw [if_pos rfl]
        by_cases hv : v = Memory.unlisted
        · rw [if_pos hv, hv]; exact unlisted_above _ fun d hd => hlt d hd
        · rw [if_neg hv]; simp [Memory.read]
      · rw [if_neg hie, Memory.read, if_neg (by omega)]
        exact ih hrest

theorem Memory.read_write_other (m : Memory) (i j : Nat) (v : Byte) (hij : j ≠ i) :
    (m.write i v).read j = m.read j := by
  induction m with
  | nil =>
    by_cases hv : v = Memory.unlisted
    · simp [Memory.write, hv]
    · simp [Memory.write, Memory.read, hv, Ne.symm hij]
  | cons c rest ih =>
    obtain ⟨a, w⟩ := c
    rw [Memory.write]
    by_cases hia : i < a
    · rw [if_pos hia]
      by_cases hv : v = Memory.unlisted
      · rw [if_pos hv]
      · rw [if_neg hv, Memory.read, if_neg (Ne.symm hij)]
    · rw [if_neg hia]
      by_cases hie : i = a
      · subst hie
        rw [if_pos rfl]
        by_cases hv : v = Memory.unlisted
        · rw [if_pos hv]; simp [Memory.read, Ne.symm hij]
        · rw [if_neg hv]; simp [Memory.read, Ne.symm hij]
      · rw [if_neg hie]
        simp only [Memory.read]
        rw [ih]

/-- A written memory lists the written index (if the value is one that is listed) and old entries, nothing else. -/
theorem Memory.mem_write {m : Memory} {i : Nat} {v : Byte} {c : Host.Cell} (h : c ∈ m.write i v) :
    c ∈ m ∨ (c = (i, v) ∧ v ≠ Memory.unlisted) := by
  induction m with
  | nil =>
    by_cases hv : v = Memory.unlisted <;> simp [Memory.write, hv] at h
    exact .inr ⟨h, hv⟩
  | cons d rest ih =>
    obtain ⟨a, w⟩ := d
    rw [Memory.write] at h
    split at h
    · split at h
      · exact .inl h
      · rename_i hv
        rcases List.mem_cons.mp h with h | h
        · exact .inr ⟨h, hv⟩
        · exact .inl h
    · split at h
      · split at h
        · exact .inl (List.mem_cons_of_mem _ h)
        · rename_i hv
          rcases List.mem_cons.mp h with h | h
          · exact .inr ⟨h, hv⟩
          · exact .inl (List.mem_cons_of_mem _ h)
      · rcases List.mem_cons.mp h with h | h
        · exact .inl (by simp [h])
        · rcases ih h with h | h
          · exact .inl (List.mem_cons_of_mem _ h)
          · exact .inr h

/-- A write keeps the canonical form. -/
theorem Memory.write_wf (m : Memory) (i : Nat) (v : Byte) (h : m.wf) : (m.write i v).wf := by
  obtain ⟨hs, hn⟩ := h
  refine ⟨?_, fun c hc => ?_⟩
  · induction m with
    | nil => by_cases hv : v = Memory.unlisted <;> simp [Memory.write, hv]
    | cons d rest ih =>
      obtain ⟨a, w⟩ := d
      obtain ⟨hlt, hrest⟩ := List.pairwise_cons.mp hs
      rw [Memory.write]
      split
      · split
        · exact hs
        · rename_i hia _
          refine List.pairwise_cons.mpr ⟨fun e he => ?_, hs⟩
          rcases List.mem_cons.mp he with rfl | he
          · exact hia
          · exact Nat.lt_trans hia (hlt e he)
      · split
        · rename_i hie
          split
          · exact hrest
          · exact List.pairwise_cons.mpr ⟨fun e he => by have := hlt e he; simpa [hie] using this, hrest⟩
        · refine List.pairwise_cons.mpr ⟨fun e he => ?_, ih hrest fun e he => hn e (by simp [he])⟩
          rcases Memory.mem_write he with he | ⟨rfl, _⟩
          · exact hlt e he
          · simp only; omega
  · rcases Memory.mem_write hc with hc | ⟨rfl, hv⟩
    · exact hn c hc
    · exact hv

/-- Several writes keep the canonical form. -/
theorem Memory.writeAll_wf (m : Memory) (ws : List (Nat × Byte)) (h : m.wf) : (m.writeAll ws).wf := by
  induction ws generalizing m with
  | nil => exact h
  | cons w ws ih => exact ih _ (Memory.write_wf _ _ _ h)

/-- An index no write names is unchanged. -/
theorem Memory.read_writeAll_other (m : Memory) (ws : List (Nat × Byte)) (j : Nat) (h : ∀ w ∈ ws, w.1 ≠ j) :
    (m.writeAll ws).read j = m.read j := by
  induction ws generalizing m with
  | nil => rfl
  | cons w ws ih =>
    refine (ih _ fun x hx => h x (by simp [hx])).trans (Memory.read_write_other _ _ _ _ ?_)
    exact Ne.symm (h w (by simp))

/-- If every write to an index gives it one value and there is such a write, the index reads as that value. -/
theorem Memory.read_writeAll_same (m : Memory) (ws : List (Nat × Byte)) (j : Nat) (v : Byte) (hm : m.wf)
    (hex : ∃ w ∈ ws, w.1 = j) (hall : ∀ w ∈ ws, w.1 = j → w.2 = v) : (m.writeAll ws).read j = v := by
  induction ws generalizing m with
  | nil => simp at hex
  | cons w ws ih =>
    by_cases hlater : ∃ x ∈ ws, x.1 = j
    · exact ih _ (Memory.write_wf _ _ _ hm) hlater fun x hx => hall x (by simp [hx])
    · have hw : w.1 = j := by
        obtain ⟨x, hx, hj⟩ := hex
        rcases List.mem_cons.mp hx with rfl | hx
        · exact hj
        · exact absurd ⟨x, hx, hj⟩ hlater
      have hv := hall w (by simp) hw
      have := Memory.read_writeAll_other (m.write w.1 w.2) ws j fun x hx hj => hlater ⟨x, hx, hj⟩
      refine this.trans ?_
      rw [← hw, Memory.read_write_same _ _ _ hm.1, hv]

/-- What several writes leave listed. -/
theorem Memory.mem_writeAll {m : Memory} {ws : List (Nat × Byte)} {c : Host.Cell} (h : c ∈ m.writeAll ws) :
    c ∈ m ∨ c ∈ ws := by
  induction ws generalizing m with
  | nil => exact .inl h
  | cons w ws ih =>
    rcases ih (m := m.write w.1 w.2) h with h | h
    · rcases Memory.mem_write h with h | ⟨rfl, _⟩
      · exact .inl h
      · exact .inr (by simp)
    · exact .inr (by simp [h])

theorem Memory.read_eq_unlisted {m : Memory} {i : Nat} (h : ∀ c ∈ m, c.1 ≠ i) : m.read i = Memory.unlisted := by
  induction m with
  | nil => rfl
  | cons c m ih =>
    rw [Memory.read, if_neg (h c (by simp))]
    exact ih fun d hd => h d (by simp [hd])

theorem Memory.mem_of_read {m : Memory} {i : Nat} (h : m.read i ≠ Memory.unlisted) : ∃ v, (i, v) ∈ m := by
  induction m with
  | nil => exact absurd rfl h
  | cons c m ih =>
    obtain ⟨a, w⟩ := c
    rw [Memory.read] at h
    split at h
    · rename_i ha; exact ⟨w, by simp [ha]⟩
    · obtain ⟨v, hv⟩ := ih h; exact ⟨v, by simp [hv]⟩

theorem Memory.read_of_mem {m : Memory} {i : Nat} {v : Byte} (hs : m.Pairwise fun c d => c.1 < d.1)
    (h : (i, v) ∈ m) : m.read i = v := by
  induction m with
  | nil => simp at h
  | cons c m ih =>
    obtain ⟨a, w⟩ := c
    obtain ⟨hlt, hrest⟩ := List.pairwise_cons.mp hs
    rcases List.mem_cons.mp h with h | h
    · simp only [Prod.mk.injEq] at h; simp [Memory.read, h.1, h.2]
    · have hne : a ≠ i := Nat.ne_of_lt (hlt _ h)
      rw [Memory.read, if_neg hne]
      exact ih hrest h

/-- Canonical memories that read alike are equal data. -/
theorem Memory.ext_of_read {m n : Memory} (hm : m.wf) (hn : n.wf) (h : ∀ i, m.read i = n.read i) : m = n := by
  induction m generalizing n with
  | nil =>
    cases n with
    | nil => rfl
    | cons c n =>
      have hc := h c.1
      rw [Memory.read_of_mem hn.1 (i := c.1) (v := c.2) (by simp)] at hc
      exact absurd hc.symm (hn.2 c (by simp))
  | cons c m ih =>
    obtain ⟨hmlt, hmrest⟩ := List.pairwise_cons.mp hm.1
    cases n with
    | nil =>
      have hc := h c.1
      rw [Memory.read_of_mem hm.1 (i := c.1) (v := c.2) (by simp)] at hc
      exact absurd hc (hm.2 c (by simp))
    | cons d n =>
      obtain ⟨hnlt, hnrest⟩ := List.pairwise_cons.mp hn.1
      have below : ∀ {p q : Host.Cell} {ms ns : Memory}, Memory.wf (p :: ms) → Memory.wf (q :: ns) →
          (∀ i, Memory.read (p :: ms) i = Memory.read (q :: ns) i) → ¬ p.1 < q.1 := by
        intro p q ms ns hp hq hr hlt
        have hread := hr p.1
        rw [Memory.read_of_mem hp.1 (i := p.1) (v := p.2) (by simp)] at hread
        have hno : Memory.read (q :: ns) p.1 = Memory.unlisted := by
          refine Memory.read_eq_unlisted fun e he => ?_
          rcases List.mem_cons.mp he with rfl | he
          · omega
          · have := (List.pairwise_cons.mp hq.1).1 e he; omega
        exact hp.2 p (by simp) (hread.trans hno)
      have hkey : c.1 = d.1 := by
        have h1 := below hm hn h
        have h2 := below hn hm fun i => (h i).symm
        omega
      have hval : c.2 = d.2 := by
        have hc := h c.1
        rw [Memory.read_of_mem hm.1 (i := c.1) (v := c.2) (by simp),
          Memory.read_of_mem hn.1 (i := c.1) (v := d.2) (by simp [hkey])] at hc
        exact hc
      have hcd : c = d := Prod.ext hkey hval
      subst hcd
      congr 1
      refine ih ⟨hmrest, fun e he => hm.2 e (by simp [he])⟩ ⟨hnrest, fun e he => hn.2 e (by simp [he])⟩ fun i => ?_
      by_cases hi : c.1 = i
      · subst hi
        rw [Memory.read_eq_unlisted fun e he => Nat.ne_of_gt (hmlt e he),
          Memory.read_eq_unlisted fun e he => Nat.ne_of_gt (hnlt e he)]
      · have := h i
        rwa [Memory.read, Memory.read, if_neg hi, if_neg hi] at this

/-- The memory after power-up has the canonical form. -/
theorem State.resetWith_fb_wf (cfg : Config) : Memory.wf (State.resetWith cfg).fb := ⟨List.Pairwise.nil, by simp [State.resetWith]⟩

end Sys2Proof.Machine
end

