-- ==== Sys2Proof/Laws/State.lean ====
section
/-! SUPPORT. One lemma per field per named write of the state, so that no proof unfolds a record update. -/

namespace Sys2Proof.Machine

/-! `withMode`. -/

@[simp] theorem State.withMode_cfg (s : State) (m : Mode) : (s.withMode m).cfg = s.cfg := rfl
@[simp] theorem State.withMode_mode (s : State) (m : Mode) : (s.withMode m).mode = m := rfl
@[simp] theorem State.withMode_bitsReg (s : State) (m : Mode) : (s.withMode m).bitsReg = s.bitsReg := rfl
@[simp] theorem State.withMode_stepReg (s : State) (m : Mode) : (s.withMode m).stepReg = s.stepReg := rfl
@[simp] theorem State.withMode_countReg (s : State) (m : Mode) : (s.withMode m).countReg = s.countReg := rfl
@[simp] theorem State.withMode_shiftReg (s : State) (m : Mode) : (s.withMode m).shiftReg = s.shiftReg := rfl
@[simp] theorem State.withMode_fb (s : State) (m : Mode) : (s.withMode m).fb = s.fb := rfl
@[simp] theorem State.withMode_out (s : State) (m : Mode) : (s.withMode m).out = s.out := rfl
@[simp] theorem State.withMode_seq (s : State) (m : Mode) : (s.withMode m).seq = s.seq := rfl
@[simp] theorem State.withMode_log (s : State) (m : Mode) : (s.withMode m).log = s.log := rfl
@[simp] theorem State.withMode_port (s : State) (m : Mode) : (s.withMode m).port = s.port := rfl
@[simp] theorem State.withMode_responses (s : State) (m : Mode) : (s.withMode m).responses = s.responses := rfl
@[simp] theorem State.withMode_answers (s : State) (m : Mode) : (s.withMode m).answers = s.answers := rfl
@[simp] theorem State.withMode_asked (s : State) (m : Mode) : (s.withMode m).asked = s.asked := rfl

/-! `withSeq`. -/

@[simp] theorem State.withSeq_cfg (s : State) (q : Seq) : (s.withSeq q).cfg = s.cfg := rfl
@[simp] theorem State.withSeq_mode (s : State) (q : Seq) : (s.withSeq q).mode = s.mode := rfl
@[simp] theorem State.withSeq_bitsReg (s : State) (q : Seq) : (s.withSeq q).bitsReg = s.bitsReg := rfl
@[simp] theorem State.withSeq_stepReg (s : State) (q : Seq) : (s.withSeq q).stepReg = s.stepReg := rfl
@[simp] theorem State.withSeq_countReg (s : State) (q : Seq) : (s.withSeq q).countReg = s.countReg := rfl
@[simp] theorem State.withSeq_shiftReg (s : State) (q : Seq) : (s.withSeq q).shiftReg = s.shiftReg := rfl
@[simp] theorem State.withSeq_fb (s : State) (q : Seq) : (s.withSeq q).fb = s.fb := rfl
@[simp] theorem State.withSeq_out (s : State) (q : Seq) : (s.withSeq q).out = s.out := rfl
@[simp] theorem State.withSeq_seq (s : State) (q : Seq) : (s.withSeq q).seq = q := rfl
@[simp] theorem State.withSeq_log (s : State) (q : Seq) : (s.withSeq q).log = s.log := rfl
@[simp] theorem State.withSeq_port (s : State) (q : Seq) : (s.withSeq q).port = s.port := rfl
@[simp] theorem State.withSeq_responses (s : State) (q : Seq) : (s.withSeq q).responses = s.responses := rfl
@[simp] theorem State.withSeq_answers (s : State) (q : Seq) : (s.withSeq q).answers = s.answers := rfl
@[simp] theorem State.withSeq_asked (s : State) (q : Seq) : (s.withSeq q).asked = s.asked := rfl

/-! `withFb`. -/

@[simp] theorem State.withFb_cfg (s : State) (m : Memory) : (s.withFb m).cfg = s.cfg := rfl
@[simp] theorem State.withFb_mode (s : State) (m : Memory) : (s.withFb m).mode = s.mode := rfl
@[simp] theorem State.withFb_bitsReg (s : State) (m : Memory) : (s.withFb m).bitsReg = s.bitsReg := rfl
@[simp] theorem State.withFb_stepReg (s : State) (m : Memory) : (s.withFb m).stepReg = s.stepReg := rfl
@[simp] theorem State.withFb_countReg (s : State) (m : Memory) : (s.withFb m).countReg = s.countReg := rfl
@[simp] theorem State.withFb_shiftReg (s : State) (m : Memory) : (s.withFb m).shiftReg = s.shiftReg := rfl
@[simp] theorem State.withFb_fb (s : State) (m : Memory) : (s.withFb m).fb = m := rfl
@[simp] theorem State.withFb_out (s : State) (m : Memory) : (s.withFb m).out = s.out := rfl
@[simp] theorem State.withFb_seq (s : State) (m : Memory) : (s.withFb m).seq = s.seq := rfl
@[simp] theorem State.withFb_log (s : State) (m : Memory) : (s.withFb m).log = s.log := rfl
@[simp] theorem State.withFb_port (s : State) (m : Memory) : (s.withFb m).port = s.port := rfl
@[simp] theorem State.withFb_responses (s : State) (m : Memory) : (s.withFb m).responses = s.responses := rfl
@[simp] theorem State.withFb_answers (s : State) (m : Memory) : (s.withFb m).answers = s.answers := rfl
@[simp] theorem State.withFb_asked (s : State) (m : Memory) : (s.withFb m).asked = s.asked := rfl

/-! `withOut`. -/

@[simp] theorem State.withOut_cfg (s : State) (o : Out) : (s.withOut o).cfg = s.cfg := rfl
@[simp] theorem State.withOut_mode (s : State) (o : Out) : (s.withOut o).mode = s.mode := rfl
@[simp] theorem State.withOut_bitsReg (s : State) (o : Out) : (s.withOut o).bitsReg = s.bitsReg := rfl
@[simp] theorem State.withOut_stepReg (s : State) (o : Out) : (s.withOut o).stepReg = s.stepReg := rfl
@[simp] theorem State.withOut_countReg (s : State) (o : Out) : (s.withOut o).countReg = s.countReg := rfl
@[simp] theorem State.withOut_shiftReg (s : State) (o : Out) : (s.withOut o).shiftReg = s.shiftReg := rfl
@[simp] theorem State.withOut_fb (s : State) (o : Out) : (s.withOut o).fb = s.fb := rfl
@[simp] theorem State.withOut_out (s : State) (o : Out) : (s.withOut o).out = o := rfl
@[simp] theorem State.withOut_seq (s : State) (o : Out) : (s.withOut o).seq = s.seq := rfl
@[simp] theorem State.withOut_log (s : State) (o : Out) : (s.withOut o).log = s.log := rfl
@[simp] theorem State.withOut_port (s : State) (o : Out) : (s.withOut o).port = s.port := rfl
@[simp] theorem State.withOut_responses (s : State) (o : Out) : (s.withOut o).responses = s.responses := rfl
@[simp] theorem State.withOut_answers (s : State) (o : Out) : (s.withOut o).answers = s.answers := rfl
@[simp] theorem State.withOut_asked (s : State) (o : Out) : (s.withOut o).asked = s.asked := rfl

/-! `withPort`. -/

@[simp] theorem State.withPort_cfg (s : State) (ws : List PortWord) : (s.withPort ws).cfg = s.cfg := rfl
@[simp] theorem State.withPort_mode (s : State) (ws : List PortWord) : (s.withPort ws).mode = s.mode := rfl
@[simp] theorem State.withPort_bitsReg (s : State) (ws : List PortWord) : (s.withPort ws).bitsReg = s.bitsReg := rfl
@[simp] theorem State.withPort_stepReg (s : State) (ws : List PortWord) : (s.withPort ws).stepReg = s.stepReg := rfl
@[simp] theorem State.withPort_countReg (s : State) (ws : List PortWord) : (s.withPort ws).countReg = s.countReg := rfl
@[simp] theorem State.withPort_shiftReg (s : State) (ws : List PortWord) : (s.withPort ws).shiftReg = s.shiftReg := rfl
@[simp] theorem State.withPort_fb (s : State) (ws : List PortWord) : (s.withPort ws).fb = s.fb := rfl
@[simp] theorem State.withPort_out (s : State) (ws : List PortWord) : (s.withPort ws).out = s.out := rfl
@[simp] theorem State.withPort_seq (s : State) (ws : List PortWord) : (s.withPort ws).seq = s.seq := rfl
@[simp] theorem State.withPort_log (s : State) (ws : List PortWord) : (s.withPort ws).log = s.log := rfl
@[simp] theorem State.withPort_port (s : State) (ws : List PortWord) : (s.withPort ws).port = ws := rfl
@[simp] theorem State.withPort_responses (s : State) (ws : List PortWord) : (s.withPort ws).responses = s.responses := rfl
@[simp] theorem State.withPort_answers (s : State) (ws : List PortWord) : (s.withPort ws).answers = s.answers := rfl
@[simp] theorem State.withPort_asked (s : State) (ws : List PortWord) : (s.withPort ws).asked = s.asked := rfl

/-! `logEvent`. -/

@[simp] theorem State.logEvent_cfg (s : State) (e : Event) : (s.logEvent e).cfg = s.cfg := rfl
@[simp] theorem State.logEvent_mode (s : State) (e : Event) : (s.logEvent e).mode = s.mode := rfl
@[simp] theorem State.logEvent_bitsReg (s : State) (e : Event) : (s.logEvent e).bitsReg = s.bitsReg := rfl
@[simp] theorem State.logEvent_stepReg (s : State) (e : Event) : (s.logEvent e).stepReg = s.stepReg := rfl
@[simp] theorem State.logEvent_countReg (s : State) (e : Event) : (s.logEvent e).countReg = s.countReg := rfl
@[simp] theorem State.logEvent_shiftReg (s : State) (e : Event) : (s.logEvent e).shiftReg = s.shiftReg := rfl
@[simp] theorem State.logEvent_fb (s : State) (e : Event) : (s.logEvent e).fb = s.fb := rfl
@[simp] theorem State.logEvent_out (s : State) (e : Event) : (s.logEvent e).out = s.out := rfl
@[simp] theorem State.logEvent_seq (s : State) (e : Event) : (s.logEvent e).seq = s.seq := rfl
@[simp] theorem State.logEvent_log (s : State) (e : Event) : (s.logEvent e).log = e :: s.log := rfl
@[simp] theorem State.logEvent_port (s : State) (e : Event) : (s.logEvent e).port = s.port := rfl
@[simp] theorem State.logEvent_responses (s : State) (e : Event) : (s.logEvent e).responses = s.responses := rfl
@[simp] theorem State.logEvent_answers (s : State) (e : Event) : (s.logEvent e).answers = s.answers := rfl
@[simp] theorem State.logEvent_asked (s : State) (e : Event) : (s.logEvent e).asked = s.asked := rfl

/-! `issueWrite`. -/

@[simp] theorem State.issueWrite_cfg (s : State) (e : Event) : (s.issueWrite e).cfg = s.cfg := rfl
@[simp] theorem State.issueWrite_mode (s : State) (e : Event) : (s.issueWrite e).mode = s.mode := rfl
@[simp] theorem State.issueWrite_bitsReg (s : State) (e : Event) : (s.issueWrite e).bitsReg = s.bitsReg := rfl
@[simp] theorem State.issueWrite_stepReg (s : State) (e : Event) : (s.issueWrite e).stepReg = s.stepReg := rfl
@[simp] theorem State.issueWrite_countReg (s : State) (e : Event) : (s.issueWrite e).countReg = s.countReg := rfl
@[simp] theorem State.issueWrite_shiftReg (s : State) (e : Event) : (s.issueWrite e).shiftReg = s.shiftReg := rfl
@[simp] theorem State.issueWrite_fb (s : State) (e : Event) : (s.issueWrite e).fb = s.fb := rfl
@[simp] theorem State.issueWrite_out (s : State) (e : Event) : (s.issueWrite e).out = s.out := rfl
@[simp] theorem State.issueWrite_seq (s : State) (e : Event) : (s.issueWrite e).seq = s.seq := rfl
@[simp] theorem State.issueWrite_log (s : State) (e : Event) : (s.issueWrite e).log = e :: s.log := rfl
@[simp] theorem State.issueWrite_port (s : State) (e : Event) : (s.issueWrite e).port = s.port := rfl
@[simp] theorem State.issueWrite_responses (s : State) (e : Event) : (s.issueWrite e).responses = s.responses := rfl
@[simp] theorem State.issueWrite_answers (s : State) (e : Event) : (s.issueWrite e).answers = s.answers.tail := rfl
@[simp] theorem State.issueWrite_asked (s : State) (e : Event) : (s.issueWrite e).asked = s.asked + 1 := rfl

/-! `respond`. -/

@[simp] theorem State.respond_cfg (s : State) (st : Status) (p : BitVec 32) : (s.respond st p).cfg = s.cfg := rfl
@[simp] theorem State.respond_mode (s : State) (st : Status) (p : BitVec 32) : (s.respond st p).mode = s.mode := rfl
@[simp] theorem State.respond_bitsReg (s : State) (st : Status) (p : BitVec 32) : (s.respond st p).bitsReg = s.bitsReg := rfl
@[simp] theorem State.respond_stepReg (s : State) (st : Status) (p : BitVec 32) : (s.respond st p).stepReg = s.stepReg := rfl
@[simp] theorem State.respond_countReg (s : State) (st : Status) (p : BitVec 32) : (s.respond st p).countReg = s.countReg := rfl
@[simp] theorem State.respond_shiftReg (s : State) (st : Status) (p : BitVec 32) : (s.respond st p).shiftReg = s.shiftReg := rfl
@[simp] theorem State.respond_fb (s : State) (st : Status) (p : BitVec 32) : (s.respond st p).fb = s.fb := rfl
@[simp] theorem State.respond_out (s : State) (st : Status) (p : BitVec 32) : (s.respond st p).out = s.out := rfl
@[simp] theorem State.respond_seq (s : State) (st : Status) (p : BitVec 32) : (s.respond st p).seq = s.seq := rfl
@[simp] theorem State.respond_log (s : State) (st : Status) (p : BitVec 32) : (s.respond st p).log = s.log := rfl
@[simp] theorem State.respond_port (s : State) (st : Status) (p : BitVec 32) : (s.respond st p).port = s.port := rfl
@[simp] theorem State.respond_responses (s : State) (st : Status) (p : BitVec 32) : (s.respond st p).responses = responseWord st p :: s.responses := rfl
@[simp] theorem State.respond_answers (s : State) (st : Status) (p : BitVec 32) : (s.respond st p).answers = s.answers := rfl
@[simp] theorem State.respond_asked (s : State) (st : Status) (p : BitVec 32) : (s.respond st p).asked = s.asked := rfl

/-! `withBrightness`. -/

@[simp] theorem State.withBrightness_cfg (s : State) (n : Nat) : (s.withBrightness n).cfg = s.cfg := rfl
@[simp] theorem State.withBrightness_mode (s : State) (n : Nat) : (s.withBrightness n).mode = s.mode := rfl
@[simp] theorem State.withBrightness_bitsReg (s : State) (n : Nat) : (s.withBrightness n).bitsReg = BitVec.ofNat 4 n := rfl
@[simp] theorem State.withBrightness_stepReg (s : State) (n : Nat) : (s.withBrightness n).stepReg = BitVec.ofNat 8 (stepOf n) := rfl
@[simp] theorem State.withBrightness_countReg (s : State) (n : Nat) : (s.withBrightness n).countReg = BitVec.ofNat 8 (countOf n) := rfl
@[simp] theorem State.withBrightness_shiftReg (s : State) (n : Nat) : (s.withBrightness n).shiftReg = BitVec.ofNat 3 (shiftOf n) := rfl
@[simp] theorem State.withBrightness_fb (s : State) (n : Nat) : (s.withBrightness n).fb = s.fb := rfl
@[simp] theorem State.withBrightness_out (s : State) (n : Nat) : (s.withBrightness n).out = s.out := rfl
@[simp] theorem State.withBrightness_seq (s : State) (n : Nat) : (s.withBrightness n).seq = s.seq := rfl
@[simp] theorem State.withBrightness_log (s : State) (n : Nat) : (s.withBrightness n).log = s.log := rfl
@[simp] theorem State.withBrightness_port (s : State) (n : Nat) : (s.withBrightness n).port = s.port := rfl
@[simp] theorem State.withBrightness_responses (s : State) (n : Nat) : (s.withBrightness n).responses = s.responses := rfl
@[simp] theorem State.withBrightness_answers (s : State) (n : Nat) : (s.withBrightness n).answers = s.answers := rfl
@[simp] theorem State.withBrightness_asked (s : State) (n : Nat) : (s.withBrightness n).asked = s.asked := rfl

/-! `endPass`, `done` and the trace. -/

@[simp] theorem endPass_cfg (s : State) : (endPass s).cfg = s.cfg := rfl
@[simp] theorem endPass_mode (s : State) : (endPass s).mode = .ready := rfl
@[simp] theorem endPass_bitsReg (s : State) : (endPass s).bitsReg = s.bitsReg := rfl
@[simp] theorem endPass_stepReg (s : State) : (endPass s).stepReg = s.stepReg := rfl
@[simp] theorem endPass_countReg (s : State) : (endPass s).countReg = s.countReg := rfl
@[simp] theorem endPass_shiftReg (s : State) : (endPass s).shiftReg = s.shiftReg := rfl
@[simp] theorem endPass_fb (s : State) : (endPass s).fb = s.fb := rfl
@[simp] theorem endPass_out (s : State) : (endPass s).out = s.out := rfl
@[simp] theorem endPass_seq (s : State) : (endPass s).seq = .idle := rfl
@[simp] theorem endPass_log (s : State) : (endPass s).log = s.log := rfl
@[simp] theorem endPass_port (s : State) : (endPass s).port = s.port := rfl
@[simp] theorem endPass_responses (s : State) : (endPass s).responses = s.responses := rfl
@[simp] theorem endPass_answers (s : State) : (endPass s).answers = s.answers := rfl
@[simp] theorem endPass_asked (s : State) : (endPass s).asked = s.asked := rfl

@[simp] theorem done_cfg (s : State) : (done s).cfg = s.cfg := rfl
@[simp] theorem done_mode (s : State) : (done s).mode = s.mode := rfl
@[simp] theorem done_bitsReg (s : State) : (done s).bitsReg = s.bitsReg := rfl
@[simp] theorem done_stepReg (s : State) : (done s).stepReg = s.stepReg := rfl
@[simp] theorem done_countReg (s : State) : (done s).countReg = s.countReg := rfl
@[simp] theorem done_shiftReg (s : State) : (done s).shiftReg = s.shiftReg := rfl
@[simp] theorem done_fb (s : State) : (done s).fb = s.fb := rfl
@[simp] theorem done_out (s : State) : (done s).out = s.out := rfl
@[simp] theorem done_seq (s : State) : (done s).seq = s.seq := rfl
@[simp] theorem done_log (s : State) : (done s).log = s.log := rfl
@[simp] theorem done_port (s : State) : (done s).port = s.port := rfl
@[simp] theorem done_responses (s : State) : (done s).responses = responseWord .ok 0 :: s.responses := rfl
@[simp] theorem done_answers (s : State) : (done s).answers = s.answers := rfl
@[simp] theorem done_asked (s : State) : (done s).asked = s.asked := rfl

@[simp] theorem State.logEvent_trace (s : State) (e : Event) : (s.logEvent e).trace = s.trace ++ [e] := by
  simp [State.trace]

@[simp] theorem State.issueWrite_trace (s : State) (e : Event) : (s.issueWrite e).trace = s.trace ++ [e] := by
  simp [State.trace]

@[simp] theorem State.withMode_trace (s : State) (m : Mode) : (s.withMode m).trace = s.trace := rfl
@[simp] theorem State.withSeq_trace (s : State) (q : Seq) : (s.withSeq q).trace = s.trace := rfl
@[simp] theorem State.withFb_trace (s : State) (m : Memory) : (s.withFb m).trace = s.trace := rfl
@[simp] theorem State.withOut_trace (s : State) (o : Out) : (s.withOut o).trace = s.trace := rfl
@[simp] theorem State.withPort_trace (s : State) (ws : List PortWord) : (s.withPort ws).trace = s.trace := rfl
@[simp] theorem State.withBrightness_trace (s : State) (n : Nat) : (s.withBrightness n).trace = s.trace := rfl
@[simp] theorem State.respond_trace (s : State) (st : Status) (p : BitVec 32) :
    (s.respond st p).trace = s.trace := rfl
@[simp] theorem endPass_trace (s : State) : (endPass s).trace = s.trace := rfl
@[simp] theorem done_trace (s : State) : (done s).trace = s.trace := rfl

/-- The answers to come, after one was consumed. -/
@[simp] theorem State.issueWrite_answerAt (s : State) (e : Event) (k : Nat) :
    (s.issueWrite e).answerAt k = s.answerAt (k + 1) := by
  simp [State.answerAt, State.issueWrite, Nat.add_assoc, Nat.add_comm 1 k]

@[simp] theorem State.logEvent_answerAt (s : State) (e : Event) (k : Nat) :
    (s.logEvent e).answerAt k = s.answerAt k := rfl
@[simp] theorem State.withSeq_answerAt (s : State) (q : Seq) (k : Nat) :
    (s.withSeq q).answerAt k = s.answerAt k := rfl
@[simp] theorem State.withMode_answerAt (s : State) (m : Mode) (k : Nat) :
    (s.withMode m).answerAt k = s.answerAt k := rfl
@[simp] theorem State.withOut_answerAt (s : State) (o : Out) (k : Nat) :
    (s.withOut o).answerAt k = s.answerAt k := rfl

end Sys2Proof.Machine
end

