-- ==== Sys2Proof/Laws/Ops.lean ====
section
/-! SUPPORT. One lemma per shared operation, saying once everything it can do. -/

namespace Sys2Proof.Machine

/-! The checks before a command's own work. -/

theorem inReady_ready {s : State} {body : State → Result} (hw : s.cfg.wf = true) (hm : s.mode = .ready) :
    inReady s body = body s := by simp [inReady, hw, hm]

theorem inReady_unconstructed {s : State} {body : State → Result} (hw : s.cfg.wf = true)
    (hm : s.mode = .unconstructed) : inReady s body = .next (raise .badState s) := by simp [inReady, hw, hm]

theorem inUnconstructed_unconstructed {s : State} {body : State → Result} (hw : s.cfg.wf = true)
    (hm : s.mode = .unconstructed) : inUnconstructed s body = body s := by simp [inUnconstructed, hw, hm]

theorem inUnconstructed_ready {s : State} {body : State → Result} (hw : s.cfg.wf = true)
    (hm : s.mode = .ready) : inUnconstructed s body = .next (raise .badState s) := by
  simp [inUnconstructed, hw, hm]

/-- What a command that needs `READY` can do when it goes on. -/
theorem inReady_next {s t : State} {body : State → Result} (h : inReady s body = .next t) :
    s.cfg.wf = true ∧ ((s.mode = .ready ∧ body s = .next t) ∨ (s.mode = .unconstructed ∧ t = raise .badState s)) := by
  unfold inReady at h
  split at h
  · rename_i hw
    refine ⟨hw, ?_⟩
    split at h
    · exact .inl ⟨‹_›, h⟩
    · exact .inr ⟨‹_›, by injection h with h; exact h.symm⟩
    · cases h
  · cases h

/-- What INIT's check can do when it goes on. -/
theorem inUnconstructed_next {s t : State} {body : State → Result} (h : inUnconstructed s body = .next t) :
    s.cfg.wf = true ∧ ((s.mode = .unconstructed ∧ body s = .next t) ∨ (s.mode = .ready ∧ t = raise .badState s)) := by
  unfold inUnconstructed at h
  split at h
  · rename_i hw
    refine ⟨hw, ?_⟩
    split at h
    · exact .inl ⟨‹_›, h⟩
    · exact .inr ⟨‹_›, by injection h with h; exact h.symm⟩
    · cases h
  · cases h

/-- The only fault and refusals of a command that needs `READY`, beside its body's. -/
theorem inReady_fault {s : State} {body : State → Result} {e : Fault} (h : inReady s body = .fault e) :
    s.cfg.wf = true ∧ s.mode = .ready ∧ body s = .fault e := by
  unfold inReady at h
  split at h
  · rename_i hw
    split at h
    · exact ⟨hw, ‹_›, h⟩
    · cases h
    · cases h
  · cases h

/-! `raise`. -/

/-- An error that is not `PinFault` adds its response and changes nothing else (rule R220). -/
theorem raise_of_ne {e : Error} (he : e ≠ .pinFault) (s : State) : raise e s = s.respond (.error e) 0 := by
  cases e <;> first | rfl | exact absurd rfl he

/-- `PinFault` also ends the pass (rule R221). -/
theorem raise_pinFault (s : State) : raise .pinFault s = (endPass s).respond (.error .pinFault) 0 := rfl

/-! The framebuffer. -/

theorem fbWriteHalf_inRange {s : State} {r c : Nat} {h : Half} {v : Byte × Byte × Byte}
    (hr : cellInRange s.cfg r c = true) :
    fbWriteHalf s r c h v = .next (s.withFb (s.fb.writeAll (halfWrites s.cfg r c h v))) := by
  simp [fbWriteHalf, hr]

/-- Two indices of the framebuffer space are equal only if row, column and field are (rule R34). -/
theorem fbIndex_inj {cfg : Config} {r c r' c' : Nat} {f f' : Field} (hc : c < cfg.fbCols) (hc' : c' < cfg.fbCols)
    (h : fbIndex cfg r c f = fbIndex cfg r' c' f') : r = r' ∧ c = c' ∧ f = f' := by
  unfold fbIndex at h
  have hf : f.index < 6 := by cases f <;> simp [Field.index]
  have hf' : f'.index < 6 := by cases f' <;> simp [Field.index]
  have hfi : f.index = f'.index := by omega
  have hcell : r * cfg.fbCols + c = r' * cfg.fbCols + c' := by omega
  have hc1 : (r * cfg.fbCols + c) % cfg.fbCols = c := by
    rw [Nat.add_comm, Nat.add_mul_mod_self_right, Nat.mod_eq_of_lt hc]
  have hc2 : (r' * cfg.fbCols + c') % cfg.fbCols = c' := by
    rw [Nat.add_comm, Nat.add_mul_mod_self_right, Nat.mod_eq_of_lt hc']
  have hcc : c = c' := by rw [← hc1, ← hc2, hcell]
  refine ⟨?_, hcc, ?_⟩
  · have : r * cfg.fbCols = r' * cfg.fbCols := by omega
    exact Nat.eq_of_mul_eq_mul_right (by omega) this
  · cases f <;> cases f' <;> first | rfl | simp [Field.index] at hfi

/-- An index of a cell in range lies in the framebuffer space (rule R34). -/
theorem fbIndex_lt_fbSize {cfg : Config} {r c : Nat} (f : Field) (h : cellInRange cfg r c = true) :
    fbIndex cfg r c f < cfg.fbSize := by
  simp only [cellInRange, Bool.and_eq_true, decide_eq_true_eq] at h
  obtain ⟨hr, hc⟩ := h
  have hf : f.index < 6 := by cases f <;> simp [Field.index]
  have h1 : (r + 1) * cfg.fbCols ≤ cfg.fbRows * cfg.fbCols := Nat.mul_le_mul_right _ hr
  rw [Nat.add_mul, Nat.one_mul] at h1
  simp only [fbIndex, Config.fbSize]
  omega

/-! The parts of a well-formed configuration (rule R10). -/

/-- The items of rule R10, one by one. -/
theorem Config.wf_parts {cfg : Config} (h : cfg.wf = true) :
    (cfg.scanRows = 16 ∨ cfg.scanRows = 32) ∧ 1 ≤ cfg.rowLength ∧ cfg.rowLength ≤ 32768
      ∧ (cfg.stripeMux = true → cfg.rowLength % (2 * cfg.stripeW) = 0)
      ∧ cfg.gammaOk = true
      ∧ (cfg.variant = .word → cfg.bitposOk = true)
      ∧ 1 ≤ cfg.physScanRows ∧ 1 ≤ cfg.stripeW ∧ (cfg.settleUs = 1 ∨ cfg.settleUs = 2) := by
  simp only [Config.wf, Bool.and_eq_true, Bool.or_eq_true, beq_iff_eq, decide_eq_true_eq,
    Bool.not_eq_true'] at h
  obtain ⟨⟨⟨⟨⟨⟨⟨⟨h1, h2⟩, h3⟩, h4⟩, h5⟩, h6⟩, h7⟩, h8⟩, h9⟩ := h
  refine ⟨h1, h2, h3, fun hm => ?_, h5, fun hv => ?_, h7, h8, h9⟩
  · rcases h4 with h4 | h4
    · rw [hm] at h4; exact absurd h4 (by decide)
    · exact h4
  · rcases h6 with h6 | h6
    · rw [hv] at h6; exact absurd h6 (by decide)
    · exact h6

theorem nondecreasing_getElem {l : List Byte} (h : nondecreasing l = true) {i j : Nat} (hij : i ≤ j)
    (hj : j < l.length) : (l[i]'(Nat.lt_of_le_of_lt hij hj)).toNat ≤ l[j].toNat := by
  have hp : l.Pairwise fun v w => v.toNat ≤ w.toNat := by
    clear hij hj
    induction l with
    | nil => exact .nil
    | cons v l ih =>
      cases l with
      | nil => simp
      | cons w l =>
        simp only [nondecreasing, Bool.and_eq_true, decide_eq_true_eq] at h
        have hrest := ih h.2
        refine List.pairwise_cons.mpr ⟨fun x hx => ?_, hrest⟩
        rcases List.mem_cons.mp hx with rfl | hx
        · exact h.1
        · exact Nat.le_trans h.1 ((List.pairwise_cons.mp hrest).1 x hx)
  rcases Nat.eq_or_lt_of_le hij with rfl | hlt
  · exact Nat.le_refl _
  · exact List.pairwise_iff_getElem.mp hp i j _ hj hlt

/-- The three properties of `GAMMA` (rule R27), as stated there. -/
theorem Config.gamma_properties {cfg : Config} (h : cfg.gammaOk = true) :
    (∀ i j : Byte, i.toNat ≤ j.toNat → (cfg.gammaAt i).toNat ≤ (cfg.gammaAt j).toNat)
      ∧ cfg.gammaAt 0 = 0 ∧ cfg.gammaAt 255 = 255 := by
  simp only [Config.gammaOk, Bool.and_eq_true, beq_iff_eq] at h
  refine ⟨fun i j hij => ?_, h.1.2, h.2⟩
  have := nondecreasing_getElem h.1.1 hij (by simpa using j.isLt)
  simpa [Config.gammaAt] using this

/-! One event, and a pass. -/

/-- Everything one event of a pass can do. -/
theorem passStep_next {s t : State} (h : passStep s = .next t) :
    ∃ kind now later, s.seq = .running kind now later ∧ now.req.inRange s.cfg = true ∧
      ((now.req.isWrite = true ∧ s.answerAt 0 = .ok ∧
          t = advance kind later ((s.issueWrite (now.req.event s)).withOut (now.req.outAfter s)))
        ∨ (now.req.isWrite = true ∧ s.answerAt 0 = .fault ∧ t = raise .pinFault (s.issueWrite (now.req.event s)))
        ∨ (now.req.isWrite = false ∧ t = advance kind later (s.logEvent (now.req.event s)))) := by
  unfold passStep at h
  split at h
  · cases h
  · rename_i kind now later hs
    refine ⟨kind, now, later, hs, ?_⟩
    split at h
    · rename_i hr
      refine ⟨hr, ?_⟩
      split at h
      · rename_i hw
        split at h
        · exact .inl ⟨hw, ‹_›, by injection h with h; exact h.symm⟩
        · exact .inr (.inl ⟨hw, ‹_›, by injection h with h; exact h.symm⟩)
      · rename_i hw
        exact .inr (.inr ⟨by simpa using hw, by injection h with h; exact h.symm⟩)
    · cases h

/-- A write answered ok. -/
theorem passStep_ok {s : State} {kind : PassKind} {now : Slot} {later : List Slot}
    (hq : s.seq = .running kind now later) (hr : now.req.inRange s.cfg = true) (hw : now.req.isWrite = true)
    (ha : s.answerAt 0 = .ok) :
    passStep s = .next (advance kind later ((s.issueWrite (now.req.event s)).withOut (now.req.outAfter s))) := by
  simp [passStep, hq, hr, hw, ha]

/-- A write answered `fault` (rule R212). -/
theorem passStep_fault {s : State} {kind : PassKind} {now : Slot} {later : List Slot}
    (hq : s.seq = .running kind now later) (hr : now.req.inRange s.cfg = true) (hw : now.req.isWrite = true)
    (ha : s.answerAt 0 = .fault) :
    passStep s = .next (raise .pinFault (s.issueWrite (now.req.event s))) := by
  simp [passStep, hq, hr, hw, ha]

/-- A delay (rule R71). -/
theorem passStep_delay {s : State} {kind : PassKind} {now : Slot} {later : List Slot}
    (hq : s.seq = .running kind now later) (hr : now.req.inRange s.cfg = true) (hw : now.req.isWrite = false) :
    passStep s = .next (advance kind later (s.logEvent (now.req.event s))) := by
  simp [passStep, hq, hr, hw]

/-- What every event of a pass keeps, a whole pass keeps. -/
theorem runPass_induct {P : State → Prop} (hstep : ∀ s t, s.mode = .busy → P s → passStep s = .next t → P t)
    {fuel : Nat} {s t : State} (hP : P s) (h : runPass fuel s = .next t) : P t := by
  induction fuel generalizing s with
  | zero => simp only [runPass] at h; injection h with h; exact h ▸ hP
  | succ fuel ih =>
    rw [runPass] at h
    split at h
    · split at h
      · exact ih (hstep _ _ ‹_› hP ‹_›) h
      · cases h
      · cases h
    · injection h with h; exact h ▸ hP

/-- A pass that is over goes no further. -/
theorem runPass_of_not_busy {s : State} (h : s.mode ≠ .busy) (fuel : Nat) : runPass fuel s = .next s := by
  cases fuel with
  | zero => rfl
  | succ fuel =>
    rw [runPass]
    split
    · exact absurd ‹_› h
    · rfl

theorem runPass_succ {s t : State} (hb : s.mode = .busy) (h : passStep s = .next t) (fuel : Nat) :
    runPass (fuel + 1) s = runPass fuel t := by
  rw [runPass, hb]; simp only [h]

/-- Where `advance` leads: to the end of the pass or to its next event. -/
theorem advance_cons (kind : PassKind) (slot : Slot) (later : List Slot) (s : State) :
    advance kind (slot :: later) s = s.withSeq (.running kind slot later) := rfl

theorem advance_nil (kind : PassKind) (s : State) : advance kind [] s = done (endPass s) := rfl

end Sys2Proof.Machine
end

