-- ==== Sys2Proof/Laws/PerInstr.lean ====
section
/-! SUPPORT. Facts stated of each command as syntax, one lemma per constructor. -/

namespace Sys2Proof.Laws.WordMatchesItsRow

/-- The row of the opcode table a command belongs to (rule R84). -/
def row : Instr → TableRow
  | .init _ => ⟨.init, 0x0100000000000000#64, 0xFFFFFFFFFFFFFF00#64⟩
  | .wrpix _ _ _ _ _ => ⟨.wrpix, 0x0200000000000000#64, 0xFF00000000000000#64⟩
  | .clear _ _ _ => ⟨.clear, 0x0300000000000000#64, 0xFFFFFFFFFF000000#64⟩
  | .clrd => ⟨.clrd, 0x0400000000000000#64, 0xFFFFFFFFFFFFFFFF#64⟩
  | .size => ⟨.size, 0x0500000000000000#64, 0xFFFFFFFFFFFFFFFF#64⟩
  | .pwm => ⟨.pwm, 0x0600000000000000#64, 0xFFFFFFFFFFFFFFFF#64⟩
  | .bcm _ => ⟨.bcm, 0x0700000000000000#64, 0xFFFFFFFFFFFF0000#64⟩

/-- The command's word matches the command's row of the table (rule R84). -/
def Statement (i : Instr) : Prop := row i ∈ opcodeTable ∧ (row i).matches (encode i) = true

/-- A word cut into a masked part and an operand part matches when the masked part does. -/
theorem append_and {m n : Nat} (a b : BitVec m) (v : BitVec n) : (a ++ v) &&& (b ++ 0#n) = (a &&& b) ++ 0#n := by
  ext i hi
  simp only [BitVec.getElem_and, BitVec.getElem_append]
  split <;> simp

theorem init (bits : Byte) : Statement (.init bits) := by
  refine ⟨by simp [row, opcodeTable], ?_⟩
  have h := append_and (0x01#8 ++ 0#48) 0xFFFFFFFFFFFFFF#56 bits
  simp only [TableRow.matches, row, encode, beq_iff_eq]
  exact h

theorem wrpix (x y : Int) (r g b : Byte) : Statement (.wrpix x y r g b) := by
  refine ⟨by simp [row, opcodeTable], ?_⟩
  have h1 := append_and (0x02#8 ++ BitVec.ofInt 16 x ++ BitVec.ofInt 16 y ++ r ++ g) 0xFF000000000000#56 b
  have h2 := append_and (0x02#8 ++ BitVec.ofInt 16 x ++ BitVec.ofInt 16 y ++ r) 0xFF0000000000#48 g
  have h3 := append_and (0x02#8 ++ BitVec.ofInt 16 x ++ BitVec.ofInt 16 y) 0xFF00000000#40 r
  have h4 := append_and (0x02#8 ++ BitVec.ofInt 16 x) 0xFF0000#24 (BitVec.ofInt 16 y)
  have h5 := append_and 0x02#8 0xFF#8 (BitVec.ofInt 16 x)
  simp only [TableRow.matches, row, encode, beq_iff_eq]
  refine h1.trans ?_
  have h2' : (0x02#8 ++ BitVec.ofInt 16 x ++ BitVec.ofInt 16 y ++ r ++ g) &&& 0xFF000000000000#56 = _ := h2
  have h3' : (0x02#8 ++ BitVec.ofInt 16 x ++ BitVec.ofInt 16 y ++ r) &&& 0xFF0000000000#48 = _ := h3
  have h4' : (0x02#8 ++ BitVec.ofInt 16 x ++ BitVec.ofInt 16 y) &&& 0xFF00000000#40 = _ := h4
  have h5' : (0x02#8 ++ BitVec.ofInt 16 x) &&& 0xFF0000#24 = _ := h5
  rw [h2', h3', h4', h5']
  rfl

theorem clear (r g b : Byte) : Statement (.clear r g b) := by
  refine ⟨by simp [row, opcodeTable], ?_⟩
  have h1 := append_and (0x03#8 ++ 0#32 ++ r ++ g) 0xFFFFFFFFFF0000#56 b
  have h2 : (0x03#8 ++ 0#32 ++ r ++ g) &&& 0xFFFFFFFFFF0000#56 = _ :=
    append_and (0x03#8 ++ 0#32 ++ r) 0xFFFFFFFFFF00#48 g
  have h3 : (0x03#8 ++ 0#32 ++ r) &&& 0xFFFFFFFFFF00#48 = _ := append_and (0x03#8 ++ 0#32) 0xFFFFFFFFFF#40 r
  simp only [TableRow.matches, row, encode, beq_iff_eq]
  refine h1.trans ?_
  rw [h2, h3]
  rfl

theorem clrd : Statement .clrd := by
  refine ⟨by simp [row, opcodeTable], by decide⟩

theorem size : Statement .size := by
  refine ⟨by simp [row, opcodeTable], by decide⟩

theorem pwm : Statement .pwm := by
  refine ⟨by simp [row, opcodeTable], by decide⟩

theorem bcm (base : Nat) : Statement (.bcm base) := by
  refine ⟨by simp [row, opcodeTable], ?_⟩
  have h := append_and (0x07#8 ++ 0#40) 0xFFFFFFFFFFFF#48 (BitVec.ofNat 16 base)
  simp only [TableRow.matches, row, encode, beq_iff_eq]
  exact h

end Sys2Proof.Laws.WordMatchesItsRow
end

