-- ==== Sys2Proof/Laws/Protocol.lean ====
section
/-! SUPPORT. The requests of a pass without their positions, and that every request of a pass reads inside the
framebuffer. -/

namespace Sys2Proof.Machine

theorem map_zipIdx_fst {α β : Type} (l : List α) (n : Nat) (f : α × Nat → β) (g : α → β)
    (h : ∀ p, f p = g p.1) : (l.zipIdx n).map f = l.map g := by
  induction l generalizing n with
  | nil => rfl
  | cons a l ih => simp [List.zipIdx_cons, h, ih]

/-- A row's slots issue its requests. -/
@[simp] theorem scanSlots_req (cfg : Config) (level row : Nat) (reqs : List Request) :
    (scanSlots cfg level row reqs).map (·.req) = reqs := by
  simp only [scanSlots, List.map_map]
  exact (map_zipIdx_fst reqs 0 _ id fun _ => rfl).trans (List.map_id _)

@[simp] theorem prologueSlots_req (level : Nat) (reqs : List Request) :
    (prologueSlots level reqs).map (·.req) = reqs := by
  simp only [prologueSlots, List.map_map]
  exact (map_zipIdx_fst reqs 0 _ id fun _ => rfl).trans (List.map_id _)

@[simp] theorem epilogueSlots_req (cfg : Config) (level : Nat) (reqs : List Request) :
    (epilogueSlots cfg level reqs).map (·.req) = reqs := by
  simp only [epilogueSlots, List.map_map]
  exact (map_zipIdx_fst reqs 0 _ id fun _ => rfl).trans (List.map_id _)

/-- The requests of a PWM cycle (rule R171). -/
theorem pwmSlots_req (cfg : Config) (step count : Nat) :
    (pwmSlots cfg step count).map (·.req) =
      drive cfg .oe (.sense .on)
        ++ (List.range count).flatMap (fun i => (List.range cfg.fbRows).flatMap fun row =>
            scanRow cfg (.atLeast (threshold step i)) row)
        ++ drive cfg .oe (.sense .off) := by
  simp [pwmSlots, pwmIteration, List.map_flatMap]

/-- The requests of a BCM cycle (rule R186). -/
theorem bcmSlots_req (cfg : Config) (base shift : Nat) :
    (bcmSlots cfg base shift).map (·.req) =
      (planes shift).flatMap (fun p =>
        drive cfg .oe (.sense .off)
          ++ (List.range cfg.fbRows).flatMap (fun row =>
              scanRow cfg (.bit p) row ++ (if cfg.bcmDwellPerRow then [.delay (dwell base shift p)] else []))
          ++ .delay cfg.bcmTailUs :: (if cfg.bcmDwellPerRow then [] else [.delay (dwell base shift p)]))
        ++ drive cfg .oe (.sense .off) := by
  simp [bcmSlots, bcmPlane, bcmRows, List.map_flatMap]

/-- What holds of both kinds of port request a `drive_group` can make holds of all it makes. -/
theorem driveGroup_all {P : Request → Prop} {cfg : Config} {vs : List (Signal × Source)}
    (hline : cfg.variant = .pins → ∀ p ∈ vs, P (.line p.1 p.2)) (hword : cfg.variant = .word → P (.word vs)) :
    ∀ q ∈ driveGroup cfg vs, P q := by
  intro q hq
  unfold driveGroup at hq
  split at hq
  · rename_i hv
    obtain ⟨p, hp, rfl⟩ := List.mem_map.mp hq
    exact hline hv p hp
  · rename_i hv
    rcases List.mem_singleton.mp hq with rfl
    exact hword hv

theorem driveGroup_inRange {cfg cfg' : Config} {vs : List (Signal × Source)} (h : ∀ p ∈ vs, p.2.inRange cfg' = true) :
    ∀ q ∈ driveGroup cfg vs, q.inRange cfg' = true :=
  driveGroup_all (fun _ p hp => h p hp) fun _ => by simpa [Request.inRange] using fun sig v hv => h (sig, v) hv

/-- Every request of a scanned row reads inside the framebuffer (rule R53). -/
theorem scanRow_inRange {cfg : Config} {lit : Lit} {row : Nat} (hr : row < cfg.fbRows) :
    ∀ q ∈ scanRow cfg lit row, q.inRange cfg = true := by
  intro q hq
  rcases List.mem_append.mp hq with hq | hq
  · obtain ⟨col, hc, hq⟩ := List.mem_flatMap.mp hq
    have hcol : col < cfg.fbCols := List.mem_range.mp hc
    simp only [shiftColumn, drive, List.mem_append] at hq
    rcases hq with (hq | hq) | hq
    · exact driveGroup_inRange (by simp [dataGroup, Source.inRange, cellInRange, hr, hcol]) q hq
    · exact driveGroup_inRange (by simp [Source.inRange]) q hq
    · exact driveGroup_inRange (by simp [Source.inRange]) q hq
  · simp only [commitRow, drive, List.mem_append, List.mem_singleton] at hq
    have haddr : ∀ p ∈ addrLevels cfg row, p.2.inRange cfg = true := by
      intro p hp
      simp only [addrLevels, List.mem_append, List.mem_cons, List.not_mem_nil, or_false] at hp
      rcases hp with (rfl | rfl | rfl | rfl) | hp
      · rfl
      · rfl
      · rfl
      · rfl
      · split at hp
        · rcases List.mem_singleton.mp hp with rfl; rfl
        · simp at hp
    rcases hq with ((((((hq | rfl) | hq) | rfl) | hq) | hq) | rfl) | hq
    · exact driveGroup_inRange (by simp [Source.inRange]) q hq
    · rfl
    · exact driveGroup_inRange (by simp [Source.inRange]) q hq
    · rfl
    · exact driveGroup_inRange (by simp [Source.inRange]) q hq
    · exact driveGroup_inRange haddr q hq
    · rfl
    · exact driveGroup_inRange (by simp [Source.inRange]) q hq

/-- Every event of a PWM cycle reads inside the framebuffer (rule R53). -/
theorem pwmSlots_inRange {cfg : Config} {step count : Nat} :
    ∀ sl ∈ pwmSlots cfg step count, sl.req.inRange cfg = true := by
  have key : ∀ q ∈ (pwmSlots cfg step count).map (·.req), q.inRange cfg = true := by
    rw [pwmSlots_req]
    intro q hq
    simp only [drive, List.mem_append, List.mem_flatMap, List.mem_range] at hq
    rcases hq with (hq | ⟨i, hi, row, hrow, hq⟩) | hq
    · exact driveGroup_inRange (by simp [Source.inRange]) q hq
    · exact scanRow_inRange hrow q hq
    · exact driveGroup_inRange (by simp [Source.inRange]) q hq
  exact fun sl hsl => key _ (List.mem_map_of_mem hsl)

/-- Every event of a BCM cycle reads inside the framebuffer (rule R53). -/
theorem bcmSlots_inRange {cfg : Config} {base shift : Nat} :
    ∀ sl ∈ bcmSlots cfg base shift, sl.req.inRange cfg = true := by
  have key : ∀ q ∈ (bcmSlots cfg base shift).map (·.req), q.inRange cfg = true := by
    rw [bcmSlots_req]
    intro q hq
    simp only [drive, List.mem_append, List.mem_flatMap, List.mem_range, List.mem_cons] at hq
    rcases hq with ⟨p, hp, (hq | ⟨row, hrow, hq | hq⟩) | rfl | hq⟩ | hq
    · exact driveGroup_inRange (by simp [Source.inRange]) q hq
    · exact scanRow_inRange hrow q hq
    · split at hq
      · rcases List.mem_singleton.mp hq with rfl; rfl
      · simp at hq
    · rfl
    · split at hq
      · simp at hq
      · rcases List.mem_singleton.mp hq with rfl; rfl
    · exact driveGroup_inRange (by simp [Source.inRange]) q hq
  exact fun sl hsl => key _ (List.mem_map_of_mem hsl)

end Sys2Proof.Machine
end

