-- ==== Sys2Proof/Machine/Text.lean ====
section
/-! DEFINITION. The textual form of a command (rule R88) and of the pseudo-command WRMANY (rule R89), written and read as
lists of characters. Notation of 95_test_vectors.md only: no step reads it. What R88 leaves open
is DESIGN CHOICE (notes/assumptions/12.md). -/

namespace Sys2Proof.Text

/-- The digits of a number in base ten, least significant first; `fuel` bounds their count. -/
def digitsRev : Nat → Nat → List Char
  | 0, _ => []
  | fuel + 1, n => Char.ofNat (48 + n % 10) :: (if n < 10 then [] else digitsRev fuel (n / 10))

/-- A natural number in decimal. -/
def natText (n : Nat) : List Char := (digitsRev (n + 1) n).reverse

/-- A signed number in decimal, with a leading `-` if negative. -/
def intText (v : Int) : List Char :=
  if v < 0 then '-' :: natText v.natAbs else natText v.natAbs

/-- Operands separated by a comma and a space. -/
def joinOperands : List (List Char) → List Char
  | [] => []
  | [o] => o
  | o :: rest => o ++ [',', ' '] ++ joinOperands rest

/-- The mnemonic of a row of the opcode table (rule R84). -/
def mnemonicText : Mnemonic → List Char
  | .init => ['I', 'N', 'I', 'T']
  | .wrpix => ['W', 'R', 'P', 'I', 'X']
  | .clear => ['C', 'L', 'E', 'A', 'R']
  | .clrd => ['C', 'L', 'R', 'D']
  | .size => ['S', 'I', 'Z', 'E']
  | .pwm => ['P', 'W', 'M']
  | .bcm => ['B', 'C', 'M']

/-- The name of the pseudo-command (rule R89). -/
def wrmanyText : List Char := ['W', 'R', 'M', 'A', 'N', 'Y']

/-- The text of a command (rule R88): the mnemonic, then its operands. -/
def write : Instr → List Char
  | .init bits => mnemonicText .init ++ [' '] ++ natText bits.toNat
  | .wrpix x y r g b =>
    mnemonicText .wrpix ++ [' ']
      ++ joinOperands [intText x, intText y, natText r.toNat, natText g.toNat, natText b.toNat]
  | .clear r g b =>
    mnemonicText .clear ++ [' '] ++ joinOperands [natText r.toNat, natText g.toNat, natText b.toNat]
  | .clrd => mnemonicText .clrd
  | .size => mnemonicText .size
  | .pwm => mnemonicText .pwm
  | .bcm base => mnemonicText .bcm ++ [' '] ++ natText base

/-- A blank: space or tab. -/
def isBlank (ch : Char) : Bool := ch == ' ' || ch == '\t'

/-- The text before a comment (rule R88: `;` starts one). -/
def stripComment (cs : List Char) : List Char := cs.takeWhile (fun ch => ch != ';')

/-- The text without blanks at its two ends. -/
def trim (cs : List Char) : List Char := ((cs.dropWhile isBlank).reverse.dropWhile isBlank).reverse

/-- The pieces between separators. -/
def splitAtChar (sep : Char) : List Char → List (List Char)
  | [] => [[]]
  | ch :: rest =>
    match splitAtChar sep rest with
    | [] => [[ch]]
    | piece :: pieces => if ch = sep then [] :: piece :: pieces else (ch :: piece) :: pieces

/-- The value of a digit in a base. Rule R88 does not say the case of hexadecimal digits; both are taken (DESIGN CHOICE,
notes/assumptions/12.md). -/
def digitValue (base : Nat) (ch : Char) : Option Nat :=
  let n := ch.toNat
  let v :=
    if 48 ≤ n ∧ n ≤ 57 then some (n - 48)
    else if 97 ≤ n ∧ n ≤ 102 then some (n - 87)
    else if 65 ≤ n ∧ n ≤ 70 then some (n - 55)
    else none
  v.bind fun d => if d < base then some d else none

/-- The value of a run of digits, most significant first, added to `acc`. -/
def readDigits (base : Nat) : Nat → List Char → Option Nat
  | acc, [] => some acc
  | acc, ch :: rest =>
    match digitValue base ch with
    | some d => readDigits base (acc * base + d) rest
    | none => none

/-- A number: decimal, or hexadecimal after `0x` (rule R88). -/
def readNat : List Char → Option Nat
  | [] => none
  | '0' :: 'x' :: rest => if rest.isEmpty then none else readDigits 16 0 rest
  | cs => readDigits 10 0 cs

/-- A number with an optional leading `-` (rule R88: for `x` and `y`). The rule names the sign beside decimals only; the
model takes it before `0x` too, `-0x10` being -16 (DESIGN CHOICE, notes/assumptions/12.md). -/
def readInt : List Char → Option Int
  | '-' :: rest => (readNat rest).map fun n => -(n : Int)
  | cs => (readNat cs).map fun n => (n : Int)

/-- An operand of 0 to 255. -/
def readByte (cs : List Char) : Option Byte :=
  (readNat cs).bind fun n => if n ≤ 255 then some (BitVec.ofNat 8 n) else none

/-- The five operands of a pixel (rules R88, R89). -/
def readPixel : List (List Char) → Option Pixel
  | [xs, ys, rs, gs, bs] =>
    match readInt xs, readInt ys, readByte rs, readByte gs, readByte bs with
    | some x, some y, some r, some g, some b =>
      if fitsS16 x && fitsS16 y then some { x := x, y := y, r := r, g := g, b := b } else none
    | _, _, _, _, _ => none
  | _ => none

/-- The mnemonic a name spells. -/
def readMnemonic (name : List Char) : Option Mnemonic :=
  [Mnemonic.init, .wrpix, .clear, .clrd, .size, .pwm, .bcm].find? fun m => mnemonicText m == name

/-- A command from its mnemonic and operands (rule R88). -/
def readOperands (m : Mnemonic) (ops : List (List Char)) : Option Instr :=
  match m, ops with
  | .init, [bits] => (readByte bits).map .init
  | .wrpix, ops => (readPixel ops).map fun p => .wrpix p.x p.y p.r p.g p.b
  | .clear, [rs, gs, bs] =>
    match readByte rs, readByte gs, readByte bs with
    | some r, some g, some b => some (.clear r g b)
    | _, _, _ => none
  | .clrd, [] => some .clrd
  | .size, [] => some .size
  | .pwm, [] => some .pwm
  | .bcm, [base] => (readNat base).bind fun n => if n ≤ 65535 then some (.bcm n) else none
  | _, _ => none

/-- The operand texts of a line's rest: none if it is blank, else the pieces between commas. -/
def operandTexts (cs : List Char) : List (List Char) :=
  if (trim cs).isEmpty then [] else (splitAtChar ',' cs).map trim

/-- One `(x, y, r, g, b)` of WRMANY, the text up to its closing parenthesis (rule R89). -/
def readGroup (cs : List Char) : Option Pixel :=
  match trim cs with
  | '(' :: inside => readPixel ((splitAtChar ',' inside).map trim)
  | _ => none

/-- The groups of WRMANY after the first: each preceded by a comma; the text after the last is blank. -/
def readMoreGroups : List (List Char) → Option (List Pixel)
  | [] => some []
  | [last] => if (trim last).isEmpty then some [] else none
  | cs :: rest =>
    match trim cs with
    | ',' :: group =>
      match readGroup group, readMoreGroups rest with
      | some p, some ps => some (p :: ps)
      | _, _ => none
    | _ => none

/-- The list of WRMANY (rule R89), empty or not. -/
def readGroups (cs : List Char) : Option (List Pixel) :=
  if (trim cs).isEmpty then some []
  else
    match splitAtChar ')' cs with
    | first :: rest =>
      match readGroup first, readMoreGroups rest with
      | some p, some ps => if rest.isEmpty then none else some (p :: ps)
      | _, _ => none
    | [] => none

/-- The commands of a line (rules R88, R89): none for a blank or comment line, WRPIX for each element of WRMANY, else
one; `none` if the line has no meaning. -/
def readLine (line : List Char) : Option (List Instr) :=
  let text := trim (stripComment line)
  if text.isEmpty then some []
  else
    let name := text.takeWhile fun ch => !isBlank ch
    let rest := text.dropWhile fun ch => !isBlank ch
    if name == wrmanyText then (readGroups rest).map wrmany
    else
      (readMnemonic name).bind fun m =>
        (readOperands m (operandTexts rest)).map fun i => [i]

end Sys2Proof.Text
end

