-- ==== Sys2Proof/Tests/Slice0.lean ====
section
/-! SUPPORT. The model's own tests. Every expected value is one of 95_test_vectors.md (named in the comment) or is
worked out by hand from the rule named. The `witness_` theorems meet the hypotheses of the statements. -/

namespace Sys2Proof.Tests

open Sys2Proof.Machine

/-! Small states. -/

/-- A block of `cols` columns with 16 scan rows, not multiplexed. -/
def smallCfg (cols : Nat) (v : PortVariant) : Config := Config.standard 16 cols false v Config.identityGamma 5

/-- The multiplexed block of vectors V11. -/
def muxCfg : Config := Config.standard 16 128 true .pins Config.identityGamma 5

/-- A constructed block: the state INIT leaves (rule R200). -/
def built (cfg : Config) (bits : Nat) : State := construct bits (State.resetWith cfg)

/-- A value stored in one field. -/
def State.store (s : State) (r c : Nat) (f : Field) (v : Byte) : State :=
  s.withFb (s.fb.write (fbIndex s.cfg r c f) v)

/-- A handle that answers `n` writes ok, then `rest`. -/
def answering (s : State) (n : Nat) (rest : List Answer) : State :=
  { s with answers := List.replicate n .ok ++ rest }

/-- The next state, if there is one. -/
def after (r : Result) : Option State :=
  match r with
  | .next t => some t
  | .fault _ => none
  | .refused _ => none

/-- The last response and the trace of a next state. -/
def outcome (r : Result) : Option (Option PortWord × List Event) :=
  (after r).map fun t => (t.responses.head?, t.trace)

/-! Well-formedness (rule R82): each check refuses an ill-formed term. -/

theorem test_wf_x_above : (Instr.wrpix 32768 0 0 0 0).wf = false := by decide
theorem test_wf_x_below : (Instr.wrpix (-32769) 0 0 0 0).wf = false := by decide
theorem test_wf_y_above : (Instr.wrpix 0 32768 0 0 0).wf = false := by decide
theorem test_wf_y_below : (Instr.wrpix 0 (-32769) 0 0 0).wf = false := by decide
theorem test_wf_base_above : (Instr.bcm 65536).wf = false := by decide
theorem test_wf_extremes : (Instr.wrpix (-32768) 32767 0 0 0).wf = true ∧ (Instr.bcm 65535).wf = true := by decide

/-! Decoding: words written out from the format table of rule R81. -/

/-- V1: opcode 0x01, reserved 48 bits, bits = 3. -/
theorem test_decode_init : (decode (0x01#8 ++ 0x000000000000#48 ++ 0x03#8)).toOption = some (.init 3) := by decide
/-- V2: opcode 0x02, x = 3, y = 20, r = 255, g = 0, b = 0. -/
theorem test_decode_wrpix :
    (decode (0x02#8 ++ 0x0003#16 ++ 0x0014#16 ++ 0xFF#8 ++ 0x00#8 ++ 0x00#8)).toOption
      = some (.wrpix 3 20 255 0 0) := by decide
/-- V4: the extreme coordinates. -/
theorem test_decode_wrpix_signed :
    (decode 0x0280007FFF000000#64).toOption = some (.wrpix (-32768) 32767 0 0 0) := by decide
/-- V5. -/
theorem test_decode_clear :
    (decode (0x03#8 ++ 0#32 ++ 0xFF#8 ++ 0x00#8 ++ 0x80#8)).toOption = some (.clear 255 0 128) := by decide
/-- V6. -/
theorem test_decode_clrd : (decode (0x04#8 ++ 0#56)).toOption = some .clrd := by decide
/-- V7. -/
theorem test_decode_size : (decode (0x05#8 ++ 0#56)).toOption = some .size := by decide
/-- V8. -/
theorem test_decode_pwm : (decode (0x06#8 ++ 0#56)).toOption = some .pwm := by decide
/-- V9. -/
theorem test_decode_bcm : (decode (0x07#8 ++ 0#40 ++ 0x000A#16)).toOption = some (.bcm 10) := by decide
/-- The illegal words of 95_test_vectors.md section 2.1. -/
theorem test_decode_illegal :
    [0x0000000000000000#64, 0xFFFFFFFFFFFFFFFF#64, 0x0800000000000000#64, 0x0100000000000103#64,
      0x0400000000000001#64, 0x0700000000010000#64, 0x0300000001000000#64, 0x0600000000000001#64,
      0x0500800000000000#64].map (fun cw => (decode cw).toOption)
      = List.replicate 9 none := by decide
/-- The table numbering: bit 0 is the word's least significant bit. -/
theorem test_decodeTableWord : decodeTableWord 64 0x070000000000000A = some (.bcm 10) := by decide
/-- V2, V3, V5, V9a the other way. -/
theorem test_encode :
    [Instr.wrpix 3 20 255 0 0, .wrpix (-1) 5 9 9 9, .clear 255 0 128, .bcm 65535].map encode
      = [0x0200030014FF0000#64, 0x02FFFF0005090909#64, 0x0300000000FF0080#64, 0x070000000000FFFF#64] := by decide
/-- V13d: the expansion of WRMANY. -/
theorem test_wrmany :
    (wrmany [⟨0, 0, 1, 2, 3⟩, ⟨0, 0, 4, 5, 6⟩]).map encode
      = [0x0200000000010203#64, 0x0200000000040506#64] := by decide

/-! INIT and the lifecycle. -/

/-- S7, V40: `INIT 3` gives STEP 32, COUNT 7, SHIFT 5. -/
theorem test_init_3 :
    (after (exec (.init 3) State.reset)).map (fun t => (t.mode, t.bitsReg, t.stepReg, t.countReg, t.shiftReg))
        = some (.ready, 3, 32, 7, 5)
      ∧ (after (exec (.init 3) State.reset)).map (fun t => (t.responses, t.log)) = some ([0#64], []) := by
  decide +kernel
/-- V43. -/
theorem test_init_9 :
    (after (exec (.init 9) State.reset)).map (fun t => (t.mode, t.responses))
      = some (.unconstructed, [0x0100000000000000#64]) := by decide +kernel
/-- V48: `BadState` before `ConfigError`. -/
theorem test_init_9_ready :
    (after (exec (.init 9) (built (smallCfg 1 .pins) 1))).map (fun t => (t.bitsReg, t.responses))
      = some (1, [0x0400000000000000#64]) := by decide +kernel
/-- V45: PWM before construction. -/
theorem test_pwm_unconstructed :
    (after (step (State.reset.withFetchWord 64 0x0600000000000000))).map (fun t => (t.mode, t.responses, t.log, t.port))
      = some (.unconstructed, [0x0400000000000000#64], [], []) := by decide +kernel
/-- V49: `IllegalCommand` before all. -/
theorem test_illegal_first :
    (after (step (State.reset.withFetchWord 64 0x0100000000000109))).map (fun t => (t.mode, t.responses))
      = some (.unconstructed, [0x0300000000000000#64]) := by decide +kernel

/-! The pixel-write commands. -/

/-- V10d: (3, 20) goes to row 4, column 3, bottom half. -/
theorem test_wrpix_plain :
    (after (exec (.wrpix 3 20 255 7 0) (built (smallCfg 32 .pins) 1))).map
        (fun t => (t.readField 4 3 .rBot, t.readField 4 3 .gBot, t.readField 4 3 .bBot, t.fb.length))
      = some (255, 7, 0, 2) := by decide +kernel
/-- V10e: `x = -1` writes nothing and is answered `OK`. -/
theorem test_wrpix_out_of_bounds :
    (after (exec (.wrpix (-1) 5 9 9 9) (built (smallCfg 32 .pins) 1))).map (fun t => (t.fb, t.responses))
      = some ([], [0#64]) := by decide +kernel
/-- V11, V11b, V11g, V11d: the multiplexed mapper. -/
theorem test_map_mux :
    [(40, 5), (40, 21), (63, 0), (63, 63)].map (fun p => mapPixel muxCfg p.1 p.2)
      = [⟨5, 104, .bot⟩, ⟨5, 72, .top⟩, ⟨0, 127, .bot⟩, ⟨15, 95, .top⟩] := by decide +kernel
/-- V12a, V12b: 32 scan rows, the half split is not scaled. -/
theorem test_map_mux_32 :
    [(40, 20), (40, 40)].map (fun p => mapPixel (Config.standard 32 128 true .pins Config.identityGamma 5) p.1 p.2)
      = [⟨20, 104, .top⟩, ⟨8, 72, .top⟩] := by decide +kernel
/-- V13: `CLEAR 255, 0, 128`. -/
theorem test_clear :
    (after (exec (.clear 255 0 128) (built (smallCfg 1 .pins) 1))).map
        (fun t => (allFields.map (t.readField 15 0), t.fb.length))
      = some ([255, 0, 128, 255, 0, 128], 64) := by decide +kernel
/-- S6: CLRD. -/
theorem test_clrd :
    (after (exec .clrd (State.store (built (smallCfg 1 .pins) 1) 15 0 .bBot 9))).map (fun t => (t.fb, t.responses))
      = some ([], [0#64]) := by decide +kernel
/-- The SIZE response of section 2.1 for 16 scan rows, row length 128, multiplexed. -/
theorem test_size_mux :
    (after (exec .size (built muxCfg 1))).map (fun t => t.responses) = some [0x0000000000400040#64] := by decide +kernel
/-- The largest width: 16 scan rows, row length 32768. -/
theorem test_size_widest :
    (after (exec .size ((built muxCfg 1) |> fun s => { s with cfg := smallCfg 32768 .pins }))).map
      (fun t => t.responses) = some [0x0000000080000020#64] := by decide +kernel

/-! The passes. -/

/-- V17: the events of one row against threshold 128. -/
theorem test_scan_row :
    emit (smallCfg 1 .pins) Out.unknown
        (portActs (smallCfg 1 .pins)
          (rowActs { built (smallCfg 1 .pins) 1 with fb := [(30, 128), (31, 127), (32, 255), (34, 200), (35, 128)] }
            (fun d => decide (128 ≤ d.toNat)) 5))
      = [.w .r1 .high, .w .g1 .low, .w .b1 .high, .w .r2 .low, .w .g2 .high, .w .b2 .high, .w .clk .high, .w .clk .low,
          .w .oe .high, .d 2, .w .lat .low, .d 2, .w .lat .high, .w .a .high, .w .b .low, .w .c .high, .w .d .low, .d 2,
          .w .oe .low] := by decide +kernel
/-- V20, first events: `OE on`, then column 0 and column 1 of row 0, where only `G1` is high; the cycle has 434 events. -/
theorem test_pwm_v20 :
    (outcome (exec .pwm (answering (State.store (built (smallCfg 2 .pins) 1) 0 1 .gTop 200) 386 []))).map
        (fun o => (o.1, o.2.length, (o.2.drop 8).take 5, o.2.drop 431))
      = some (some 0#64, 434, [.w .clk .low, .w .r1 .low, .w .g1 .high, .w .b1 .low, .w .r2 .low],
          [.d 2, .w .oe .low, .w .oe .high]) := by decide +kernel
/-- V50: the 20th write is answered `fault`; it is event 21 and the last. -/
theorem test_pwm_v50 :
    (after (exec .pwm (answering (State.store (built (smallCfg 2 .pins) 1) 0 1 .gTop 200) 19 [.fault]))).map
        (fun t => (t.responses, t.mode, t.trace.length, t.trace.drop 20))
      = some ([0x0200000000000000#64], .ready, 22, [.d 2, .w .lat .high]) := by decide +kernel
/-- V50: `OUT` after it. -/
theorem test_pwm_v50_out :
    (after (exec .pwm (answering (State.store (built (smallCfg 2 .pins) 1) 0 1 .gTop 200) 19 [.fault]))).map
        (fun t => (t.out.lat, t.out.g1, t.out.a, t.seq))
      = some (some .low, some .high, none, .idle) := by decide +kernel
/-- P6: the words of row 0 on the parallel port, from `OUT` all unknown. -/
theorem test_pwm_p6 :
    (outcome (exec .pwm (answering (State.store (built (smallCfg 1 .word) 1) 0 0 .rBot 255) 130 []))).map
        (fun o => (o.2.length, o.2.take 12))
      = some (178, [.ww 0x0000, .ww 0x0008, .ww 0x0808, .ww 0x0008, .ww 0x2008, .d 2, .ww 0x2008, .d 2, .ww 0x3008,
          .ww 0x3008, .d 2, .ww 0x1008]) := by decide +kernel
/-- V30: plane 7 ends `D(5) D(20)`, plane 6 begins with `OE off`, `R2` is high at position 596 only; 615 events. -/
theorem test_bcm_v30 :
    (outcome (exec (.bcm 10) (answering (State.store (built (smallCfg 1 .pins) 2) 15 0 .rBot 0x40) 515 []))).map
        (fun o => (o.2.length, (o.2.drop 304).take 4, o.2[596]?, o.2.drop 612))
      = some (615, [.w .oe .low, .d 5, .d 20, .w .oe .high], some (.w .r2 .high), [.d 5, .d 10, .w .oe .high]) := by
  decide +kernel
/-- V51: the parallel port, the second write answered `fault`: `OUT` is that of the first. -/
theorem test_pwm_v51 :
    (after (exec .pwm (answering (built (smallCfg 1 .word) 1) 1 [.fault]))).map
        (fun t => (t.trace, t.out.oe, t.out.clk, t.out.f))
      = some ([.ww 0, .ww 0], some .on, some .low, none) := by decide +kernel
/-- V33: the largest dwell. -/
theorem test_dwell_largest : dwell 65535 0 7 = 8388480 := by decide +kernel
/-- A step in `BUSY` issues one event (rules R30, R173): the first of a PWM cycle is `OE on`. -/
theorem test_busy_step :
    (after (step (answering (beginPass .pwm (passSlots (built (smallCfg 1 .pins) 1) .pwm 0)
        (built (smallCfg 1 .pins) 1)) 1 []))).map (fun t => (t.mode, t.log, t.out.oe))
      = some (.busy, [.w .oe .low], some .on) := by decide +kernel

/-! The text form (rule R88) and the observer (rule R72). -/

/-- V3 as text, and back. -/
theorem test_text :
    Text.write (.wrpix (-1) 5 9 9 9)
        = ['W', 'R', 'P', 'I', 'X', ' ', '-', '1', ',', ' ', '5', ',', ' ', '9', ',', ' ', '9', ',', ' ', '9']
      ∧ Text.readLine (Text.write (.wrpix (-1) 5 9 9 9)) = some [.wrpix (-1) 5 9 9 9] := by decide +kernel
/-- Hexadecimal and a comment. -/
theorem test_text_hex :
    Text.readLine ['B', 'C', 'M', ' ', '0', 'x', '0', 'A', ' ', ';', ' ', 'm', 's'] = some [.bcm 10] := by decide +kernel
/-- A clock edge shifts the data level in, newest first. -/
theorem test_observer_shift :
    shiftBit 2 [false, true] .high = [true, false] := by decide +kernel

/-! Witnesses: for each statement with hypotheses, a state and operands that meet all of them; one for each clause. -/

/-- A 16 by 1 block in `READY`, `BITS = 1`, on discrete lines. -/
def readyPins : State := built (smallCfg 1 .pins) 1

/-- The same on the parallel port. -/
def readyWord : State := built (smallCfg 1 .word) 1

/-- A block of columns 0 and 1 with a stored value. -/
def readyPlain : State := State.store (built (smallCfg 2 .pins) 1) 0 1 .gTop 200

/-- A state in the middle of a pass: before the first event of a PWM cycle. -/
def inPass : State := beginPass .pwm (passSlots readyPins .pwm 0) readyPins

/-- A block whose row length is 0: ill formed (rule R10). -/
def illFormed : State := State.resetWith (smallCfg 0 .pins)

theorem next_of_check {r : Result} {p : State → Bool} (h : (after r).any p = true) :
    ∃ t, r = .next t ∧ p t = true := by
  cases r with
  | next t => exact ⟨t, rfl, by simpa [after] using h⟩
  | fault e => simp [after] at h
  | refused e => simp [after] at h

theorem answering_ok (s : State) (n : Nat) (rest : List Answer) :
    ∀ k, k < n → (answering s n rest).answerAt k = .ok := by
  intro k hk
  simp [State.answerAt, answering, List.getElem?_append_left, hk]

theorem built_inv (cfg : Config) (hw : cfg.wf = true) : (built cfg 1).Inv where
  cfgWf := hw
  fbCanonical := by simp [built, construct, Memory.wf]
  fbInSpace := by simp [built, construct]
  fbGamma := fun _ => ⟨0, by
    have := (Sys2Proof.Machine.Config.gamma_properties (Sys2Proof.Machine.Config.wf_parts hw).2.2.2.2.1).2.1
    exact this.symm⟩
  brightness := fun _ => by
    change 1 ≤ (1#4).toNat ∧ (1#4).toNat ≤ 8 ∧ (128#8).toNat = 2 ^ (8 - (1#4).toNat)
      ∧ (1#8).toNat = 2 ^ (1#4).toNat - 1 ∧ (7#3).toNat = 8 - (1#4).toNat
    decide
  seqIdle := by simp [built, construct]
  seqInPass := by simp [built, construct]
  noF := fun _ => rfl

theorem inPass_inv : inPass.Inv := by
  have h := built_inv (smallCfg 1 .pins) (by decide +kernel)
  obtain ⟨now, later, hp⟩ : ∃ now later, passSlots readyPins .pwm 0 = now :: later := ⟨_, _, rfl⟩
  have e : inPass = (readyPins.withMode .busy).withSeq (.running .pwm now later) := by
    unfold inPass; rw [hp]; rfl
  rw [e]
  refine ⟨h.1, h.2, h.3, h.4, fun _ => h.5 (by decide), by simp, ?_, h.8⟩
  intro k n l hs
  simp only [State.withSeq_seq, Seq.running.injEq] at hs
  obtain ⟨rfl, rfl, rfl⟩ := hs
  exact ⟨0, by rw [← hp]; exact List.suffix_refl _⟩

theorem witness_DecodeOfEncode :
    (Instr.wrpix (-32768) 32767 255 0 1).wf = true ∧ (Instr.bcm 65535).wf = true ∧ Instr.clrd.wf = true := by decide

theorem witness_EncodeOfDecode : decode 0x02FFFF0005090909#64 = .ok (.wrpix (-1) 5 9 9 9) := by rfl

theorem witness_TableRowsDoNotOverlap :
    ∃ row ∈ opcodeTable, 0x070000000000FFFF#64 &&& row.mask = row.pattern := by decide

theorem witness_IllegalWordsByReason :
    decode 0x0000000000000000#64 = .error .unknownOpcode ∧ decode 0x0800000000000000#64 = .error .unknownOpcode
      ∧ decode 0x0100000000000100#64 = .error .reservedField ∧ decode 0x0700000000010000#64 = .error .reservedField :=
  ⟨rfl, rfl, rfl, rfl⟩

theorem witness_StepRunsDecodedCommand :
    (readyPins.withFetchWord 64 0x0400000000000000).cfg.wf = true
      ∧ (readyPins.withFetchWord 64 0x0400000000000000).mode ≠ .busy
      ∧ (readyPins.withFetchWord 64 0x0400000000000000).port = 0x0400000000000000#64 :: []
      ∧ (decode 0x0400000000000000#64).toOption = some .clrd := by decide +kernel

theorem witness_IllegalWordChangesNothing :
    (State.reset.withFetchWord 64 0x0400000000000001).cfg.wf = true
      ∧ (State.reset.withFetchWord 64 0x0400000000000001).mode ≠ .busy
      ∧ (State.reset.withFetchWord 64 0x0400000000000001).port = 0x0400000000000001#64 :: []
      ∧ ∀ row ∈ opcodeTable, 0x0400000000000001#64 &&& row.mask ≠ row.pattern := by decide +kernel

theorem witness_IdleBlockHoldsItsState :
    readyPins.cfg.wf = true ∧ readyPins.mode ≠ .busy ∧ readyPins.port = [] := by decide +kernel

theorem witness_ConfigurationWellFormed :
    (smallCfg 32768 .word).wf = true ∧ (smallCfg 32769 .word).wf = false ∧ muxCfg.wf = true
      ∧ (Config.standard 16 96 true .pins Config.identityGamma 5).wf = false
      ∧ (Config.standard 17 1 false .pins Config.identityGamma 5).wf = false := by decide +kernel

theorem witness_IllFormedConfigurationRefused : illFormed.cfg.wf = false := by decide +kernel

theorem witness_BusyPortAcceptsNoWord :
    inPass.cfg.wf = true ∧ inPass.mode = .busy ∧ ∃ t, step inPass = .next t := by
  refine ⟨by decide +kernel, by decide +kernel, ?_⟩
  obtain ⟨kind, now, later, h⟩ : ∃ kind now later, inPass.seq = .running kind now later := ⟨_, _, _, rfl⟩
  have hw : now.req.inRange inPass.cfg = true := by cases h; decide +kernel
  have hm : inPass.mode = .busy := by decide +kernel
  have hc : inPass.cfg.wf = true := by decide +kernel
  unfold step
  simp only [hc, hm, if_true, passStep, h, hw]
  split
  · cases inPass.answerAt 0 <;> exact ⟨_, rfl⟩
  · exact ⟨_, rfl⟩

theorem witness_EveryWordIsAnsweredOnce :
    (readyPins.withFetchWord 64 0x0500000000000000).cfg.wf = true
      ∧ (readyPins.withFetchWord 64 0x0500000000000000).mode ≠ .busy
      ∧ (readyPins.withFetchWord 64 0x0500000000000000).port = 0x0500000000000000#64 :: [] := by decide +kernel

theorem witness_InitConstructs :
    State.reset.cfg.wf = true ∧ State.reset.mode = .unconstructed
      ∧ (1 ≤ (1#8).toNat ∧ (1#8).toNat ≤ 8) ∧ (1 ≤ (8#8).toNat ∧ (8#8).toNat ≤ 8) := by decide +kernel

theorem witness_ConfigErrorExactlyForIllegalBits :
    State.reset.cfg.wf = true ∧ State.reset.mode = .unconstructed
      ∧ ((0#8).toNat = 0 ∨ 8 < (0#8).toNat) ∧ ((9#8).toNat = 0 ∨ 8 < (9#8).toNat)
      ∧ ∃ t, exec (.init 255) State.reset = .next t
          ∧ decide (t.responses = 0x0100000000000000#64 :: State.reset.responses) = true :=
  ⟨by decide +kernel, rfl, by decide, by decide, next_of_check (by decide +kernel)⟩

theorem witness_LifecycleTable :
    (State.reset.cfg.wf = true ∧ State.reset.mode = .unconstructed ∧ ∀ bits, Instr.pwm ≠ .init bits)
      ∧ (readyPins.cfg.wf = true ∧ readyPins.mode = .ready ∧ ∃ bits, Instr.init 9 = .init bits)
      ∧ (inPass.cfg.wf = true ∧ inPass.mode = .busy) :=
  ⟨⟨by decide +kernel, rfl, by simp⟩, ⟨by decide +kernel, rfl, 9, rfl⟩, by decide +kernel, by decide +kernel⟩

/-- The two kinds of allowed pair: INIT before construction, another command after it. -/
theorem witness_LifecycleTable_allowed :
    (State.reset.cfg.wf = true ∧ State.reset.mode = .unconstructed ∧ ∃ bits, Instr.init 9 = .init bits)
      ∧ (readyPins.cfg.wf = true ∧ readyPins.mode = .ready ∧ ∀ bits, Instr.clrd ≠ .init bits) :=
  ⟨⟨by decide +kernel, rfl, 9, rfl⟩, by decide +kernel, rfl, by simp⟩

theorem witness_ModeTransitions :
    (∃ t, step State.reset = .next t ∧ decide (t.mode = .unconstructed) = true)
      ∧ ∃ t, step (State.reset.withFetchWord 64 0x0100000000000008) = .next t ∧ decide (t.mode ≠ .unconstructed) = true :=
  ⟨next_of_check (by decide +kernel), next_of_check (by decide +kernel)⟩

/-- A step in the middle of a pass that stays in `BUSY`, from a state whose handle answers ok. -/
theorem witness_ModeTransitions_busy :
    ∃ t, step (answering inPass 1 []) = .next t ∧ decide (t.mode = .busy) = true :=
  next_of_check (by decide +kernel)

theorem witness_BrightnessWrittenOnlyByInit :
    (∃ t, step (readyPins.withFetchWord 64 0x0100000000000008) = .next t ∧ decide (t.mode = .ready) = true)
      ∧ ∃ t, step (State.reset.withFetchWord 64 0x0100000000000009) = .next t
          ∧ decide (t.mode = .unconstructed) = true :=
  ⟨next_of_check (by decide +kernel), next_of_check (by decide +kernel)⟩

theorem witness_WrpixOutOfBoundsIgnored :
    readyPins.cfg.wf = true ∧ readyPins.mode = .ready
      ∧ ∀ p ∈ [((-1 : Int), (0 : Int)), (1, 0), (0, -1), (0, 32)],
          ¬ (0 ≤ p.1 ∧ p.1 < (if readyPins.cfg.stripeMux then readyPins.cfg.rowLength / 2
              else readyPins.cfg.rowLength : Nat)
            ∧ 0 ≤ p.2 ∧ p.2 < (if readyPins.cfg.stripeMux then 4 * readyPins.cfg.scanRows
              else 2 * readyPins.cfg.scanRows : Nat)) := by decide +kernel

theorem witness_WrpixStoresPlain :
    readyPlain.cfg.wf = true ∧ readyPlain.mode = .ready ∧ Memory.wf readyPlain.fb
      ∧ readyPlain.cfg.stripeMux = false ∧ 1 < readyPlain.cfg.rowLength
      ∧ (15 < 2 * readyPlain.cfg.scanRows ∧ 15 < readyPlain.cfg.scanRows)
      ∧ (16 < 2 * readyPlain.cfg.scanRows ∧ readyPlain.cfg.scanRows ≤ 16) := by decide +kernel

/-- Row 15 and 16 are the two sides of `HALF_SPLIT`, and of `is_top_half`. -/
theorem witness_WrpixStoresMultiplexed :
    (built muxCfg 1).cfg.wf = true ∧ (built muxCfg 1).mode = .ready ∧ Memory.wf (built muxCfg 1).fb
      ∧ (built muxCfg 1).cfg.stripeMux = true ∧ 63 < (built muxCfg 1).cfg.rowLength / 2
      ∧ (16 < 4 * (built muxCfg 1).cfg.scanRows
          ∧ (built muxCfg 1).cfg.halfSplit < 16 % (built muxCfg 1).cfg.physScanRows)
      ∧ (15 < 4 * (built muxCfg 1).cfg.scanRows
          ∧ 15 % (built muxCfg 1).cfg.physScanRows ≤ (built muxCfg 1).cfg.halfSplit) := by decide +kernel

theorem witness_MappedIndexInFramebuffer :
    muxCfg.wf = true ∧ inBounds muxCfg 63 63 = true ∧ muxCfg.stripeMux = true
      ∧ (smallCfg 1 .pins).wf = true ∧ inBounds (smallCfg 1 .pins) 0 31 = true := by decide +kernel

theorem witness_PlainMapperIsBijective :
    (smallCfg 2 .pins).wf = true ∧ (smallCfg 2 .pins).stripeMux = false ∧ 15 < (smallCfg 2 .pins).scanRows
      ∧ 1 < (smallCfg 2 .pins).rowLength := by decide +kernel

theorem witness_MultiplexedMapperAliases :
    muxCfg.wf = true ∧ muxCfg.stripeMux = true ∧ muxCfg.physScanRows = 2 * muxCfg.scanRows ∧ muxCfg.halfSplit = 15
      ∧ 31 < muxCfg.physScanRows ∧ mapPixel muxCfg 63 31 = mapPixel muxCfg 63 31 := by decide +kernel

theorem witness_ClearFillsEveryCell :
    readyPlain.cfg.wf = true ∧ readyPlain.mode = .ready ∧ Memory.wf readyPlain.fb
      ∧ 15 < readyPlain.cfg.scanRows ∧ 1 < readyPlain.cfg.rowLength := by decide +kernel

theorem witness_ClrdBlanksEveryField :
    readyPlain.cfg.wf = true ∧ readyPlain.mode = .ready ∧ Memory.wf readyPlain.fb ∧ readyPlain.fb ≠ []
      ∧ 15 < readyPlain.cfg.scanRows ∧ 1 < readyPlain.cfg.rowLength := by decide +kernel

theorem witness_ClearBlackIsClrdAndClrdIdempotent :
    readyWord.cfg.wf = true ∧ readyWord.mode = .ready ∧ Memory.wf readyWord.fb := by decide +kernel

theorem witness_SizeReportsPanel :
    readyPins.cfg.wf = true ∧ readyPins.mode = .ready ∧ (built muxCfg 1).cfg.wf = true
      ∧ (built muxCfg 1).mode = .ready := by decide +kernel

/-- Two pixels, one of them outside the panel, and a CLRD after them. -/
theorem witness_WrmanyIsItsPixelsInOrder :
    let ps : List Pixel := [⟨0, 31, 1, 2, 3⟩, ⟨-1, 0, 4, 5, 6⟩]
    let s := readyPins.withPort ((wrmany ps).map encode ++ [0x0400000000000000#64])
    s.cfg.wf = true ∧ s.mode = .ready ∧ (∀ p ∈ ps, fitsS16 p.x = true ∧ fitsS16 p.y = true)
      ∧ s.port = (wrmany ps).map encode ++ [0x0400000000000000#64] := by decide +kernel

theorem witness_PwmIssuesItsCycle :
    let s := answering readyPins 258 []
    s.cfg.wf = true ∧ s.mode = .ready
      ∧ ∀ k, k < writeCount (portActs s.cfg (pwmActs s)) → s.answerAt k = .ok := by
  refine ⟨by decide +kernel, rfl, fun k hk => answering_ok _ _ _ k (Nat.lt_of_lt_of_eq hk ?_)⟩
  decide +kernel

theorem witness_PwmIssuesItsCycle_word :
    let s := answering readyWord 130 []
    s.cfg.wf = true ∧ s.mode = .ready
      ∧ ∀ k, k < writeCount (portActs s.cfg (pwmActs s)) → s.answerAt k = .ok := by
  refine ⟨by decide +kernel, rfl, fun k hk => answering_ok _ _ _ k (Nat.lt_of_lt_of_eq hk ?_)⟩
  decide +kernel

theorem witness_BcmIssuesItsCycle :
    let s := answering readyPins 258 []
    s.cfg.wf = true ∧ s.mode = .ready
      ∧ ∀ k, k < writeCount (portActs s.cfg (bcmActs s 10)) → s.answerAt k = .ok := by
  refine ⟨by decide +kernel, rfl, fun k hk => answering_ok _ _ _ k (Nat.lt_of_lt_of_eq hk ?_)⟩
  decide +kernel

/-- The second write of the cycle (`R1` of the first column) is answered `fault`. -/
theorem witness_PwmStopsAtFirstPinFault :
    let s := answering readyPins 1 [.fault]
    s.cfg.wf = true ∧ s.mode = .ready
      ∧ portActs s.cfg (pwmActs s)
          = (portActs s.cfg (pwmActs s)).take 1 ++ .set [(.r1, .low)] :: (portActs s.cfg (pwmActs s)).drop 2
      ∧ (∀ k, k < writeCount ((portActs s.cfg (pwmActs s)).take 1) → s.answerAt k = .ok)
      ∧ s.answerAt (writeCount ((portActs s.cfg (pwmActs s)).take 1)) = .fault := by
  decide +kernel

/-- The last write of the cycle (`OE off`) is answered `fault`. -/
theorem witness_BcmStopsAtFirstPinFault :
    let s := answering readyPins 257 [.fault]
    s.cfg.wf = true ∧ s.mode = .ready
      ∧ portActs s.cfg (bcmActs s 10)
          = (portActs s.cfg (bcmActs s 10)).take 307 ++ .set [(.oe, .high)] :: []
      ∧ (∀ k, k < writeCount ((portActs s.cfg (bcmActs s 10)).take 307) → s.answerAt k = .ok)
      ∧ s.answerAt (writeCount ((portActs s.cfg (bcmActs s 10)).take 307)) = .fault := by
  decide +kernel

theorem witness_PassIsTheRunOfItsEvents : readyWord.cfg.wf = true ∧ readyWord.mode = .ready := by decide +kernel

theorem witness_BusyStepIssuesOneEvent : inPass.Inv ∧ inPass.mode = .busy := ⟨inPass_inv, by decide +kernel⟩

theorem witness_PinFaultEndsThePass :
    ∃ now later, (answering inPass 0 [.fault]).seq = .running .pwm now later
      ∧ (answering inPass 0 [.fault]).cfg.wf = true ∧ (answering inPass 0 [.fault]).mode = .busy
      ∧ now.req.inRange (answering inPass 0 [.fault]).cfg = true ∧ now.req.isWrite = true
      ∧ (answering inPass 0 [.fault]).answerAt 0 = .fault :=
  ⟨_, _, rfl, by decide +kernel, by decide +kernel, by decide +kernel, by decide +kernel, rfl⟩

theorem witness_LatchAndAddressOnlyWhileDark :
    (readyPins.cfg.wf = true ∧ readyPins.mode = .ready
        ∧ ∃ t, exec .pwm (answering readyPins 258 []) = .next t ∧ decide (t.log ≠ []) = true)
      ∧ readyWord.cfg.wf = true ∧ readyWord.mode = .ready
        ∧ ∃ t, exec (.bcm 10) (answering readyWord 130 []) = .next t ∧ decide (t.log ≠ []) = true :=
  ⟨⟨by decide +kernel, rfl, next_of_check (by decide +kernel)⟩, by decide +kernel, rfl,
    next_of_check (by decide +kernel)⟩

theorem witness_PassShapeIgnoresFramebuffer :
    readyPins.cfg.wf = true ∧ readyPins.mode = .ready ∧ (Instr.bcm 10 = .pwm ∨ ∃ base, Instr.bcm 10 = .bcm base) :=
  ⟨by decide +kernel, rfl, .inr ⟨10, rfl⟩⟩

theorem witness_LevelsAfterACycle :
    readyPins.cfg.wf = true ∧ readyPins.mode = .ready ∧ readyPins.brightnessOk
      ∧ ∃ t, exec .pwm (answering readyPins 258 []) = .next t
          ∧ decide (t.responses = 0#64 :: (answering readyPins 258 []).responses) = true :=
  ⟨by decide +kernel, rfl, (built_inv _ (by decide +kernel)).5 (by decide), next_of_check (by decide +kernel)⟩

theorem witness_OutputWordBits :
    (smallCfg 1 .word).bitposOk = true ∧ Signal.oe ∈ (smallCfg 1 .word).signals
      ∧ ∀ s ∈ (smallCfg 1 .word).signals, (smallCfg 1 .word).bitpos.of s ≠ 10 := by decide +kernel

theorem witness_PwmCycleSize :
    let s := answering readyPins 258 []
    s.cfg.wf = true ∧ s.mode = .ready ∧ s.cfg.variant = .pins
      ∧ 258 = 2 + s.countReg.toNat * s.cfg.scanRows * (8 * s.cfg.rowLength + 4 + s.cfg.nAddr)
      ∧ ∀ k, k < 258 → s.answerAt k = .ok :=
  ⟨by decide +kernel, rfl, rfl, by decide +kernel, answering_ok _ _ _⟩

theorem witness_BcmCycleSize :
    let s := answering readyWord 130 []
    s.cfg.wf = true ∧ s.mode = .ready ∧ s.brightnessOk ∧ s.cfg.variant = .word
      ∧ 130 = 1 + s.bitsReg.toNat * (1 + s.cfg.scanRows * (3 * s.cfg.rowLength + 5))
      ∧ ∀ k, k < 130 → s.answerAt k = .ok :=
  ⟨by decide +kernel, rfl, (built_inv _ (by decide +kernel)).5 (by decide), rfl, by decide +kernel, answering_ok _ _ _⟩

theorem witness_ThresholdNeverSaturates : 1 ≤ 8 ∧ 8 ≤ 8 ∧ 254 < countOf 8 := by decide

theorem witness_LitIterationsOfADuty : 1 ≤ 1 ∧ 1 ≤ 8 ∧ 0 < countOf 1 := by decide

theorem witness_PlaneWeightsOfADuty : 1 ≤ 8 ∧ 8 ≤ 8 ∧ 7 < 8 := by decide

theorem witness_DwellsOfACycle : 1 ≤ 2 ∧ 2 ≤ 8 ∧ shiftOf 2 ≤ 6 ∧ 6 < 7 := by decide

/-- A panel whose lines are all low but the latch. -/
def lowPanel : Panel :=
  { lines := { r1 := .low, g1 := .low, b1 := .low, r2 := .low, g2 := .low, b2 := .low, a := .low, b := .low
               c := .low, d := .low, f := .low, clk := .low, lat := .high, oe := .low }
    shift := { r1 := [], g1 := [], b1 := [], r2 := [], g2 := [], b2 := [] }
    latched := { r1 := [], g1 := [], b1 := [], r2 := [], g2 := [], b2 := [] } }

/-- A block on the parallel port whose `OUT` remembers the lines of `lowPanel`. -/
def shownWord : State :=
  readyWord.withOut
    { r1 := some .low, g1 := some .low, b1 := some .low, r2 := some .low, g2 := some .low, b2 := some .low
      a := some .low, b := some .low, c := some .low, d := some .low, f := none, clk := some .low, lat := some .high
      oe := some .on }

theorem witness_ScannedRowReachesThePanel :
    shownWord.cfg.wf = true ∧ 15 < shownWord.cfg.scanRows
      ∧ (∀ sig ∈ shownWord.cfg.signals, shownWord.out.level shownWord.cfg sig = some (lowPanel.lines.get sig))
      ∧ lowPanel.lines.clk = .low ∧ lowPanel.lines.lat = .high ∧ 0 < shownWord.cfg.rowLength := by decide +kernel

theorem witness_ScannedRowReachesThePanel_pins :
    readyPins.cfg.wf = true ∧ 15 < readyPins.cfg.scanRows ∧ readyPins.cfg.variant = .pins
      ∧ lowPanel.lines.clk = .low ∧ lowPanel.lines.lat = .high ∧ 0 < readyPins.cfg.rowLength := by decide +kernel

theorem witness_InvariantAtPowerUp : muxCfg.wf = true := by decide +kernel

theorem witness_StepKeepsInvariant :
    (readyPins.withFetchWord 64 0x0300000000010203).Inv
      ∧ ∃ t, step (readyPins.withFetchWord 64 0x0300000000010203) = .next t ∧ decide (t.fb ≠ []) = true := by
  have h := built_inv (smallCfg 1 .pins) (by decide +kernel)
  exact ⟨⟨h.1, h.2, h.3, h.4, h.5, h.6, h.7, h.8⟩, next_of_check (by decide +kernel)⟩

theorem witness_NoStepStops : inPass.Inv ∧ readyPins.Inv :=
  ⟨inPass_inv, built_inv (smallCfg 1 .pins) (by decide +kernel)⟩

theorem witness_StepKeepsConfigurationAndHistory :
    ∃ t, step ((answering readyPins 258 []).withFetchWord 64 0x0600000000000000) = .next t
      ∧ decide (t.trace.length = 306) = true :=
  next_of_check (by decide +kernel)

theorem witness_WhoWritesFramebufferAndTrace :
    (∃ t, exec (.clear 1 2 3) readyPins = .next t ∧ decide (t.fb ≠ readyPins.fb) = true)
      ∧ ∃ t, exec .pwm (answering readyPins 258 []) = .next t ∧ decide (t.log ≠ readyPins.log) = true :=
  ⟨next_of_check (by decide +kernel), next_of_check (by decide +kernel)⟩

end Sys2Proof.Tests
end

section
/-! PROOFS. What a command and a step can do, said once: every later fact about commands or steps is a case analysis on
it. -/

namespace Sys2Proof.Machine

/-! An ill-formed configuration (rule R10). -/

theorem inReady_illFormed {s : State} {body : State → Result} (hw : s.cfg.wf = false) :
    inReady s body = .refused .illFormedConfig := by simp [inReady, hw]

theorem inUnconstructed_illFormed {s : State} {body : State → Result} (hw : s.cfg.wf = false) :
    inUnconstructed s body = .refused .illFormedConfig := by simp [inUnconstructed, hw]

theorem exec_illFormed {s : State} (hw : s.cfg.wf = false) (i : Instr) :
    exec i s = .refused .illFormedConfig := by
  cases i with
  | init bits => simp only [exec, execInit, inUnconstructed_illFormed hw]
  | wrpix x y r g b => simp only [exec, execWrpix, inReady_illFormed hw]
  | clear r g b => simp only [exec, execClear, inReady_illFormed hw]
  | clrd => simp only [exec, execClrd, inReady_illFormed hw]
  | size => simp only [exec, execSize, inReady_illFormed hw]
  | pwm => simp only [exec, execPwm, inReady_illFormed hw]
  | bcm base => simp only [exec, execBcm, inReady_illFormed hw]

theorem step_illFormed {s : State} (hw : s.cfg.wf = false) : step s = .refused .illFormedConfig := by
  simp [step, hw]

/-! The effect of a command. -/

/-- Writes of gamma-corrected values inside the framebuffer space (rules R22, R53). -/
def GammaWrites (cfg : Config) (ws : List (Nat × Byte)) : Prop :=
  ∀ w ∈ ws, w.1 < cfg.fbSize ∧ ∃ v : Byte, w.2 = cfg.gammaAt v

theorem gammaWrites_append {cfg : Config} {ws ws' : List (Nat × Byte)} (h : GammaWrites cfg ws)
    (h' : GammaWrites cfg ws') : GammaWrites cfg (ws ++ ws') := by
  intro w hw
  rcases List.mem_append.mp hw with hw | hw
  · exact h w hw
  · exact h' w hw

theorem gammaWrites_flatMap {α : Type} {cfg : Config} {l : List α} {f : α → List (Nat × Byte)}
    (h : ∀ a ∈ l, GammaWrites cfg (f a)) : GammaWrites cfg (l.flatMap f) := by
  intro w hw
  obtain ⟨a, ha, hw⟩ := List.mem_flatMap.mp hw
  exact h a ha w hw

/-- The store of one corrected colour in a half-slot (rules R55, R115). -/
theorem halfWrites_gammaWrites {cfg : Config} {r c : Nat} (hrc : cellInRange cfg r c = true) (h : Half)
    (red green blue : Byte) : GammaWrites cfg (halfWrites cfg r c h (gammaTriple cfg red green blue)) := by
  intro w hw
  simp only [halfWrites, gammaTriple, List.mem_cons, List.not_mem_nil, or_false] at hw
  rcases hw with rfl | rfl | rfl
  · exact ⟨fbIndex_lt_fbSize _ hrc, red, rfl⟩
  · exact ⟨fbIndex_lt_fbSize _ hrc, green, rfl⟩
  · exact ⟨fbIndex_lt_fbSize _ hrc, blue, rfl⟩

theorem cellInRange_of_mem_allCells {cfg : Config} {rc : Nat × Nat} (h : rc ∈ allCells cfg) :
    cellInRange cfg rc.1 rc.2 = true := by
  simp only [allCells, List.mem_flatMap, List.mem_map, List.mem_range] at h
  obtain ⟨r, hr, c, hc, rfl⟩ := h
  simp [cellInRange, hr, hc]

theorem fillWrites_gammaWrites (cfg : Config) (r g b : Byte) :
    GammaWrites cfg (fillWrites cfg (gammaTriple cfg r g b)) :=
  gammaWrites_flatMap fun _ hrc =>
    have hcell := cellInRange_of_mem_allCells hrc
    gammaWrites_append (halfWrites_gammaWrites hcell .top r g b) (halfWrites_gammaWrites hcell .bot r g b)

/-- A blanking bypasses gamma; its 0 is a corrected value because `GAMMA[0] = 0` (rules R27, R122). -/
theorem blankWrites_gammaWrites {cfg : Config} (hw : cfg.wf = true) : GammaWrites cfg (blankWrites cfg) := by
  obtain ⟨-, -, -, -, hgamma, -⟩ := Config.wf_parts hw
  obtain ⟨-, hzero, -⟩ := Config.gamma_properties hgamma
  refine gammaWrites_flatMap fun rc hrc w hw => ?_
  obtain ⟨f, -, rfl⟩ := List.mem_map.mp hw
  exact ⟨fbIndex_lt_fbSize f (cellInRange_of_mem_allCells hrc), 0, hzero.symm⟩

/-- Everything a command can do to the state when it has a meaning: it only answers; it constructs; it stores corrected
values and answers; or it runs a whole pass. -/
inductive CommandEffect (s : State) : State → Prop
  | answered (status : Status) (payload : BitVec 32) : CommandEffect s (s.respond status payload)
  | constructed (bits : Nat) : s.mode = .unconstructed → 1 ≤ bits → bits ≤ 8 →
      CommandEffect s (done (construct bits s))
  | stored (ws : List (Nat × Byte)) : s.mode = .ready → GammaWrites s.cfg ws →
      CommandEffect s (done (s.withFb (s.fb.writeAll ws)))
  | scanned (kind : PassKind) (base : Nat) (t : State) : s.mode = .ready →
      runWholePass kind (passSlots s kind base) s = .next t → CommandEffect s t

theorem CommandEffect.raised {s : State} {e : Error} (he : e ≠ .pinFault) : CommandEffect s (raise e s) := by
  rw [raise_of_ne he]
  exact .answered _ _

/-- A command that needs `READY` answers `BadState`, or has the effect of its body. -/
theorem commandEffect_of_inReady {s t : State} {body : State → Result}
    (hbody : s.cfg.wf = true → s.mode = .ready → body s = .next t → CommandEffect s t)
    (h : inReady s body = .next t) : CommandEffect s t := by
  obtain ⟨hw, ⟨hm, hb⟩ | ⟨-, rfl⟩⟩ := inReady_next h
  · exact hbody hw hm hb
  · exact .raised (by decide)

theorem execInit_effect {s t : State} {bits : Byte} (h : execInit bits s = .next t) : CommandEffect s t := by
  obtain ⟨-, ⟨hm, hb⟩ | ⟨-, rfl⟩⟩ := inUnconstructed_next h
  · split at hb
    · rename_i hlegal
      cases hb
      simp only [bitsLegal, Bool.and_eq_true, decide_eq_true_eq] at hlegal
      exact .constructed _ hm hlegal.1 hlegal.2
    · cases hb
      exact .raised (by decide)
  · exact .raised (by decide)

/-- What the one framebuffer store can do when it goes on (rule R55). -/
theorem fbWriteHalf_next {s t : State} {r c : Nat} {h : Half} {v : Byte × Byte × Byte}
    (hn : fbWriteHalf s r c h v = .next t) :
    cellInRange s.cfg r c = true ∧ t = s.withFb (s.fb.writeAll (halfWrites s.cfg r c h v)) := by
  unfold fbWriteHalf at hn
  split at hn
  · cases hn; exact ⟨‹_›, rfl⟩
  · cases hn

theorem execWrpix_effect {s t : State} {x y : Int} {r g b : Byte} (h : execWrpix x y r g b s = .next t) :
    CommandEffect s t := by
  refine commandEffect_of_inReady (fun _ hm hb => ?_) h
  split at hb
  · dsimp only at hb
    split at hb
    · rename_i hstore
      obtain ⟨hcell, rfl⟩ := fbWriteHalf_next hstore
      cases hb
      exact .stored _ hm (halfWrites_gammaWrites hcell _ r g b)
    · cases hb
    · cases hb
  · cases hb
    exact .answered _ _

theorem execClear_effect {s t : State} {r g b : Byte} (h : execClear r g b s = .next t) : CommandEffect s t := by
  refine commandEffect_of_inReady (fun _ hm hb => ?_) h
  cases hb
  exact .stored _ hm (fillWrites_gammaWrites s.cfg r g b)

theorem execClrd_effect {s t : State} (h : execClrd s = .next t) : CommandEffect s t := by
  refine commandEffect_of_inReady (fun hw hm hb => ?_) h
  cases hb
  exact .stored _ hm (blankWrites_gammaWrites hw)

theorem execSize_effect {s t : State} (h : execSize s = .next t) : CommandEffect s t := by
  refine commandEffect_of_inReady (fun _ _ hb => ?_) h
  cases hb
  exact .answered _ _

theorem execPwm_effect {s t : State} (h : execPwm s = .next t) : CommandEffect s t :=
  commandEffect_of_inReady (fun _ hm hb => .scanned .pwm 0 t hm hb) h

theorem execBcm_effect {s t : State} {base : Nat} (h : execBcm base s = .next t) : CommandEffect s t :=
  commandEffect_of_inReady (fun _ hm hb => .scanned .bcm base t hm hb) h

theorem exec_effect {i : Instr} {s t : State} (h : exec i s = .next t) : CommandEffect s t := by
  cases i with
  | init bits => exact execInit_effect h
  | wrpix x y r g b => exact execWrpix_effect h
  | clear r g b => exact execClear_effect h
  | clrd => exact execClrd_effect h
  | size => exact execSize_effect h
  | pwm => exact execPwm_effect h
  | bcm base => exact execBcm_effect h

/-- Everything a step can do: a pass issues its next event, nothing is presented, or the host's next word has the effect
of a command. -/
theorem step_next {s t : State} (h : step s = .next t) :
    (s.mode = .busy ∧ passStep s = .next t)
      ∨ (s.port = [] ∧ t = s)
      ∨ ∃ cw rest, s.port = cw :: rest ∧ CommandEffect (s.withPort rest) t := by
  unfold step at h
  split at h
  · split at h
    · exact .inl ⟨‹_›, h⟩
    · right
      cases hp : s.port with
      | nil =>
        simp only [takeCommand, hp] at h
        cases h
        exact .inl ⟨rfl, rfl⟩
      | cons cw rest =>
        simp only [takeCommand, hp] at h
        refine .inr ⟨cw, rest, rfl, ?_⟩
        split at h
        · exact exec_effect h
        · cases h
          exact .raised (by decide)
  · cases h

end Sys2Proof.Machine
end

section
/-! PROOFS. The history of a block: no step changes the configuration, takes back an event or takes back a response
(rules R13, R242). -/

namespace Sys2Proof.Machine

/-- `t` is a later state of the same block: its configuration, its events and its responses are still there. -/
def State.Extends (s t : State) : Prop := t.cfg = s.cfg ∧ s.trace <+: t.trace ∧ s.responses <:+ t.responses

theorem State.Extends.refl (s : State) : s.Extends s := ⟨rfl, List.prefix_refl _, List.suffix_refl _⟩

theorem State.Extends.trans {s t u : State} (hst : s.Extends t) (htu : t.Extends u) : s.Extends u := by
  obtain ⟨hcfg, htrace, hresponses⟩ := hst
  obtain ⟨hcfg', htrace', hresponses'⟩ := htu
  exact ⟨hcfg'.trans hcfg, htrace.trans htrace', hresponses.trans hresponses'⟩

theorem extends_respond (s : State) (status : Status) (payload : BitVec 32) : s.Extends (s.respond status payload) :=
  ⟨rfl, List.prefix_refl _, List.suffix_cons _ _⟩

theorem extends_logEvent (s : State) (e : Event) : s.Extends (s.logEvent e) :=
  ⟨rfl, by simp, List.suffix_refl _⟩

theorem extends_issueWrite (s : State) (e : Event) : s.Extends (s.issueWrite e) :=
  ⟨rfl, by simp, List.suffix_refl _⟩

theorem extends_withOut (s : State) (o : Out) : s.Extends (s.withOut o) := .refl s

theorem extends_advance (kind : PassKind) (later : List Slot) (s : State) : s.Extends (advance kind later s) := by
  cases later with
  | nil => exact extends_respond (endPass s) _ _
  | cons slot rest => exact .refl s

theorem extends_passStep {s t : State} (h : passStep s = .next t) : s.Extends t := by
  obtain ⟨kind, now, later, -, -, ⟨-, -, rfl⟩ | ⟨-, -, rfl⟩ | ⟨-, rfl⟩⟩ := passStep_next h
  · exact ((extends_issueWrite s _).trans (extends_withOut _ _)).trans (extends_advance kind later _)
  · exact (extends_issueWrite s _).trans (extends_respond (endPass _) _ _)
  · exact (extends_logEvent s _).trans (extends_advance kind later _)

theorem extends_runWholePass {kind : PassKind} {slots : List Slot} {s t : State}
    (h : runWholePass kind slots s = .next t) : s.Extends t :=
  runPass_induct (P := s.Extends) (fun _ _ _ hs hstep => hs.trans (extends_passStep hstep))
    (extends_advance kind slots (s.withMode .busy)) h

theorem CommandEffect.extends {s t : State} (h : CommandEffect s t) : s.Extends t := by
  cases h with
  | answered status payload => exact extends_respond s status payload
  | constructed bits _ _ _ => exact extends_respond (construct bits s) _ _
  | stored ws _ _ => exact extends_respond (s.withFb _) _ _
  | scanned kind base _ _ hrun => exact extends_runWholePass hrun

theorem extends_step {s t : State} (h : step s = .next t) : s.Extends t := by
  rcases step_next h with ⟨-, hpass⟩ | ⟨-, rfl⟩ | ⟨cw, rest, -, heffect⟩
  · exact extends_passStep hpass
  · exact .refl _
  · exact heffect.extends

/-- Settles O51: each effect of a step extends the history. -/
theorem stepKeepsConfigurationAndHistory : Obligations.StepKeepsConfigurationAndHistory :=
  fun _ _ h => extends_step h

/-- Settles O10: the check of the configuration comes before every other check. -/
theorem illFormedConfigurationRefused : Obligations.IllFormedConfigurationRefused :=
  fun _ hw => ⟨step_illFormed hw, exec_illFormed hw⟩

end Sys2Proof.Machine
end

section
/-! PROOFS. The thresholds of a PWM cycle (rules R7, R17, R172). -/

namespace Sys2Proof.Machine

/-- `COUNT * STEP = 256 - STEP` (rule R7). -/
theorem countOf_mul_stepOf {bits : Nat} (h : bits ≤ 8) :
    countOf bits * stepOf bits = 256 - stepOf bits := by
  have hpow : 2 ^ bits * 2 ^ (8 - bits) = 256 := by rw [← Nat.pow_add, Nat.add_sub_cancel' h]
  rw [countOf, stepOf, Nat.sub_mul, hpow, Nat.one_mul]

theorem succ_mul_stepOf_le {bits i : Nat} (h : bits ≤ 8) (hi : i < countOf bits) :
    (i + 1) * stepOf bits ≤ 255 := by
  have hpos : 0 < stepOf bits := Nat.two_pow_pos _
  calc (i + 1) * stepOf bits
      ≤ countOf bits * stepOf bits := Nat.mul_le_mul_right _ hi
    _ = 256 - stepOf bits := countOf_mul_stepOf h
    _ ≤ 255 := by omega

/-- Settles O42: the last threshold is `256 - STEP`. -/
theorem thresholdNeverSaturates : Obligations.ThresholdNeverSaturates := fun _ _ _ hbits hi =>
  have hle := succ_mul_stepOf_le hbits hi
  ⟨Nat.min_eq_right hle, hle⟩

end Sys2Proof.Machine
end

section
/-! PROOFS. When a configuration is well formed (rules R10, R27). -/

namespace Sys2Proof

theorem nondecreasing_of_pairwise {l : List Byte} (h : l.Pairwise fun v w => v.toNat ≤ w.toNat) :
    nondecreasing l = true := by
  induction l with
  | nil => rfl
  | cons v l ih =>
    cases l with
    | nil => rfl
    | cons w l =>
      obtain ⟨hv, hrest⟩ := List.pairwise_cons.mp h
      simp [nondecreasing, hv w (by simp), ih hrest]

/-- The check of `GAMMA` is rule R27. -/
theorem Config.gammaOk_iff (cfg : Config) : cfg.gammaOk = true ↔
    (∀ i j : Byte, i.toNat ≤ j.toNat → (cfg.gammaAt i).toNat ≤ (cfg.gammaAt j).toNat)
      ∧ cfg.gammaAt 0 = 0 ∧ cfg.gammaAt 255 = 255 := by
  refine ⟨Machine.Config.gamma_properties, fun ⟨hmono, hzero, hlast⟩ => ?_⟩
  have hsorted : nondecreasing cfg.gamma.toList = true := by
    refine nondecreasing_of_pairwise (List.pairwise_iff_getElem.mpr fun i j hi hj hij => ?_)
    simp only [Vector.length_toList] at hi hj
    have hle := hmono (BitVec.ofNatLT i hi) (BitVec.ofNatLT j hj) (Nat.le_of_lt hij)
    simpa [Config.gammaAt] using hle
  simp only [Config.gammaOk, Bool.and_eq_true, beq_iff_eq]
  exact ⟨⟨hsorted, hzero⟩, hlast⟩

theorem Config.signals_nodup (cfg : Config) : cfg.signals.Nodup := by
  unfold Config.signals
  cases cfg.hasF <;> decide

/-- The check of `BITPOS` is item 5 of rule R10, on the signals that exist. -/
theorem Config.bitposOk_iff (cfg : Config) : cfg.bitposOk = true ↔
    (∀ s ∈ cfg.signals, cfg.bitpos.of s < cfg.portWidth)
      ∧ ∀ s ∈ cfg.signals, ∀ s' ∈ cfg.signals, cfg.bitpos.of s = cfg.bitpos.of s' → s = s' := by
  simp only [Config.bitposOk, Bool.and_eq_true, decide_eq_true_eq, List.all_eq_true,
    List.nodup_map_iff_inj_on cfg.signals_nodup]
  exact and_comm

/-- A condition that only one of two variants must meet. -/
theorem Config.pins_or_iff (cfg : Config) (P : Prop) :
    (cfg.variant = .pins ∨ P) ↔ (cfg.variant = .word → P) := by
  cases cfg.variant <;> simp

/-- Settles O9: the check clause by clause, with `gammaOk_iff` and `bitposOk_iff`. -/
theorem configurationWellFormed : Obligations.ConfigurationWellFormed := by
  intro cfg
  simp only [Config.wf, Bool.and_eq_true, Bool.or_eq_true, beq_iff_eq, decide_eq_true_eq, Bool.not_eq_true',
    ← Bool.not_eq_true, ← imp_iff_not_or, ← Nat.dvd_iff_mod_eq_zero, Config.gammaOk_iff, Config.bitposOk_iff,
    Config.pins_or_iff, and_assoc]

end Sys2Proof
end

section
/-! PROOFS. The invariant of the block. -/

namespace Sys2Proof.Machine

/-! The framebuffer. -/

/-- What holds of every value read and of every value written holds of every value read afterwards. -/
theorem Memory.read_writeAll_all {P : Byte → Prop} {m : Memory} {ws : List (Nat × Byte)} (hm : m.wf)
    (hread : ∀ i, P (m.read i)) (hws : ∀ w ∈ ws, P w.2) (i : Nat) : P ((m.writeAll ws).read i) := by
  induction ws generalizing m with
  | nil => exact hread i
  | cons w ws ih =>
    refine ih (Memory.write_wf m w.1 w.2 hm) (fun j => ?_) fun x hx => hws x (List.mem_cons_of_mem _ hx)
    by_cases hj : j = w.1
    · rw [hj, Memory.read_write_same m w.1 w.2 hm.1]
      exact hws w List.mem_cons_self
    · rw [Memory.read_write_other m w.1 j w.2 hj]
      exact hread j

/-! The signals a pass drives: only those that exist (rule R28). -/

/-- Every request of a pass is a delay or comes from a `drive_group` of signals that exist. -/
inductive Request.Drives (cfg : Config) : Request → Prop
  | delay (us : Nat) : Request.Drives cfg (.delay us)
  | group (vs : List (Signal × Source)) (q : Request) : (∀ p ∈ vs, p.1 ∈ cfg.signals) → q ∈ driveGroup cfg vs →
      Request.Drives cfg q

theorem drives_of_mem_drive {cfg : Config} {sig : Signal} {v : Source} (hsig : sig ∈ cfg.signals) {q : Request}
    (hq : q ∈ drive cfg sig v) : q.Drives cfg :=
  .group [(sig, v)] q (by simpa using hsig) hq

theorem dataGroup_signals (cfg : Config) (lit : Lit) (row col : Nat) :
    ∀ p ∈ dataGroup lit row col, p.1 ∈ cfg.signals := by
  simp [dataGroup, Config.signals]

theorem addrLevels_signals (cfg : Config) (row : Nat) : ∀ p ∈ addrLevels cfg row, p.1 ∈ cfg.signals := by
  cases hf : cfg.hasF <;> simp [addrLevels, Config.signals, hf]

theorem clk_mem_signals (cfg : Config) : Signal.clk ∈ cfg.signals := by simp [Config.signals]
theorem lat_mem_signals (cfg : Config) : Signal.lat ∈ cfg.signals := by simp [Config.signals]
theorem oe_mem_signals (cfg : Config) : Signal.oe ∈ cfg.signals := by simp [Config.signals]

theorem shiftRow_drives {cfg : Config} {lit : Lit} {row : Nat} {q : Request} (hq : q ∈ shiftRow cfg lit row) :
    q.Drives cfg := by
  obtain ⟨col, -, hq⟩ := List.mem_flatMap.mp hq
  simp only [shiftColumn, List.mem_append] at hq
  rcases hq with (hdata | hhigh) | hlow
  · exact .group _ q (dataGroup_signals cfg lit row col) hdata
  · exact drives_of_mem_drive (clk_mem_signals cfg) hhigh
  · exact drives_of_mem_drive (clk_mem_signals cfg) hlow

theorem commitRow_drives {cfg : Config} {row : Nat} {q : Request} (hq : q ∈ commitRow cfg row) : q.Drives cfg := by
  simp only [commitRow, List.mem_append, List.mem_singleton] at hq
  rcases hq with ((((((hoff | rfl) | hlow) | rfl) | hhigh) | haddr) | rfl) | hon
  · exact drives_of_mem_drive (oe_mem_signals cfg) hoff
  · exact .delay _
  · exact drives_of_mem_drive (lat_mem_signals cfg) hlow
  · exact .delay _
  · exact drives_of_mem_drive (lat_mem_signals cfg) hhigh
  · exact .group _ q (addrLevels_signals cfg row) haddr
  · exact .delay _
  · exact drives_of_mem_drive (oe_mem_signals cfg) hon

theorem scanRow_drives {cfg : Config} {lit : Lit} {row : Nat} {q : Request} (hq : q ∈ scanRow cfg lit row) :
    q.Drives cfg := by
  rcases List.mem_append.mp hq with hq | hq
  · exact shiftRow_drives hq
  · exact commitRow_drives hq

theorem drives_of_mem_delay {cfg : Config} {b : Prop} [Decidable b] {us : Nat} {q : Request}
    (hq : q ∈ if b then [Request.delay us] else []) : q.Drives cfg := by
  split at hq
  · rw [List.mem_singleton.mp hq]
    exact .delay us
  · cases hq

theorem pwm_drives {cfg : Config} {step count : Nat} {q : Request}
    (hq : q ∈ (pwmSlots cfg step count).map (·.req)) : q.Drives cfg := by
  simp only [pwmSlots_req, List.mem_append, List.mem_flatMap] at hq
  rcases hq with (hon | ⟨_, -, row, -, hscan⟩) | hoff
  · exact drives_of_mem_drive (oe_mem_signals cfg) hon
  · exact scanRow_drives hscan
  · exact drives_of_mem_drive (oe_mem_signals cfg) hoff

theorem bcm_drives {cfg : Config} {base shift : Nat} {q : Request}
    (hq : q ∈ (bcmSlots cfg base shift).map (·.req)) : q.Drives cfg := by
  simp only [bcmSlots_req, List.mem_append, List.mem_flatMap, List.mem_cons] at hq
  rcases hq with ⟨p, -, (hoff | ⟨row, -, hscan | hdwell⟩) | rfl | hdwell⟩ | hoff
  · exact drives_of_mem_drive (oe_mem_signals cfg) hoff
  · exact scanRow_drives hscan
  · exact drives_of_mem_delay hdwell
  · exact .delay _
  · rw [← ite_not] at hdwell
    exact drives_of_mem_delay hdwell
  · exact drives_of_mem_drive (oe_mem_signals cfg) hoff

theorem passSlots_drives {s : State} {kind : PassKind} {base : Nat} {slot : Slot}
    (h : slot ∈ passSlots s kind base) : slot.req.Drives s.cfg := by
  cases kind with
  | pwm => exact pwm_drives (List.mem_map_of_mem h)
  | bcm => exact bcm_drives (List.mem_map_of_mem h)

/-! `OUT` has no field `F` with 16 scan rows (rule R28). -/

theorem f_notMem_signals {cfg : Config} (h : cfg.scanRows = 16) : Signal.f ∉ cfg.signals := by
  simp [Config.signals, Config.hasF, h]

theorem Out.put_f {cfg : Config} {o : Out} {sig : Signal} {l : Level} (h : sig ≠ .f) : (o.put cfg sig l).f = o.f := by
  cases sig <;> first | rfl | exact absurd rfl h

theorem Out.foldl_put_f {cfg : Config} {level : Signal → Level} {sigs : List Signal} {o : Out} (h : .f ∉ sigs) :
    (sigs.foldl (fun acc sig => acc.put cfg sig (level sig)) o).f = o.f := by
  induction sigs generalizing o with
  | nil => rfl
  | cons sig sigs ih =>
    exact (ih (List.not_mem_of_not_mem_cons h)).trans (Out.put_f (List.ne_of_not_mem_cons h).symm)

/-- A request of a pass leaves a field `F` that does not exist as it was. -/
theorem Request.Drives.outAfter_f {s : State} {q : Request} (hf : .f ∉ s.cfg.signals) (h : q.Drives s.cfg) :
    (q.outAfter s).f = s.out.f := by
  cases h with
  | delay us => rfl
  | group vs _ hvs hq =>
    refine driveGroup_all (P := fun q => (q.outAfter s).f = s.out.f) (fun _ p hp => ?_) (fun _ => ?_) q hq
    · exact Out.put_f fun hp' => hf (hp' ▸ hvs p hp)
    · exact Out.foldl_put_f hf

/-! What keeps the invariant, one lemma per operation. -/

/-- The trace, the ports and the answers to come are free. -/
theorem State.Inv.withEnvironment {s : State} (h : s.Inv) (log : List Event) (port responses : List PortWord)
    (answers : List Answer) (asked : Nat) :
    { s with log := log, port := port, responses := responses, answers := answers, asked := asked : State }.Inv :=
  ⟨h.cfgWf, h.fbCanonical, h.fbInSpace, h.fbGamma, h.brightness, h.seqIdle, h.seqInPass, h.noF⟩

theorem State.Inv.withPort {s : State} (h : s.Inv) (ws : List PortWord) : (s.withPort ws).Inv :=
  h.withEnvironment _ _ _ _ _

theorem State.Inv.respond {s : State} (h : s.Inv) (status : Status) (payload : BitVec 32) :
    (s.respond status payload).Inv :=
  h.withEnvironment _ _ _ _ _

theorem State.Inv.logEvent {s : State} (h : s.Inv) (e : Event) : (s.logEvent e).Inv :=
  h.withEnvironment _ _ _ _ _

theorem State.Inv.issueWrite {s : State} (h : s.Inv) (e : Event) : (s.issueWrite e).Inv :=
  h.withEnvironment _ _ _ _ _

theorem State.Inv.withOut {s : State} {o : Out} (h : s.Inv) (ho : s.cfg.scanRows = 16 → o.f = none) :
    (s.withOut o).Inv :=
  ⟨h.cfgWf, h.fbCanonical, h.fbInSpace, h.fbGamma, h.brightness, h.seqIdle, h.seqInPass, ho⟩

/-- Storing corrected values inside the framebuffer space (rules R22, R34, R53). -/
theorem State.Inv.writeAll {s : State} (h : s.Inv) {ws : List (Nat × Byte)} (hws : GammaWrites s.cfg ws) :
    (s.withFb (s.fb.writeAll ws)).Inv where
  cfgWf := h.cfgWf
  fbCanonical := Memory.writeAll_wf s.fb ws h.fbCanonical
  fbInSpace := fun c hc => (Memory.mem_writeAll hc).elim (h.fbInSpace c) fun hc => (hws c hc).1
  fbGamma := Memory.read_writeAll_all (P := fun d => ∃ v, d = s.cfg.gammaAt v) h.fbCanonical h.fbGamma
    fun w hw => (hws w hw).2
  brightness := h.brightness
  seqIdle := h.seqIdle
  seqInPass := h.seqInPass
  noF := h.noF

/-- INIT computes consistent constants from a legal `BITS` (rule R7). -/
theorem construct_brightnessOk {bits : Nat} (h1 : 1 ≤ bits) (h8 : bits ≤ 8) (s : State) :
    (construct bits s).brightnessOk := by
  have hstep : 2 ^ (8 - bits) < 256 := Nat.pow_lt_pow_right (n := 8) (by decide) (by omega)
  have hcount : 2 ^ bits ≤ 256 := Nat.pow_le_pow_right (n := 2) (by decide) h8
  have hbits : (construct bits s).bitsReg.toNat = bits := Nat.mod_eq_of_lt (by omega)
  refine ⟨?_, ?_, ?_, ?_, ?_⟩
  · rwa [hbits]
  · rwa [hbits]
  · rw [hbits]; exact Nat.mod_eq_of_lt hstep
  · rw [hbits]; exact Nat.mod_eq_of_lt (by simp only [countOf]; omega)
  · rw [hbits]; exact Nat.mod_eq_of_lt (by simp only [shiftOf]; omega)

/-- A legal INIT (rules R24, R200). -/
theorem State.Inv.construct {s : State} (h : s.Inv) {bits : Nat} (h1 : 1 ≤ bits) (h8 : bits ≤ 8) :
    (construct bits s).Inv where
  cfgWf := h.cfgWf
  fbCanonical := ⟨List.Pairwise.nil, by simp [Machine.construct]⟩
  fbInSpace := by simp [Machine.construct]
  fbGamma := fun _ => by
    obtain ⟨-, -, -, -, hgamma, -⟩ := Config.wf_parts h.cfgWf
    obtain ⟨-, hzero, -⟩ := Config.gamma_properties hgamma
    exact ⟨0, hzero.symm⟩
  brightness := fun _ => construct_brightnessOk h1 h8 s
  seqIdle := by simp [Machine.construct]
  seqInPass := by simp [Machine.construct]
  noF := h.noF

/-! A pass. -/

theorem State.Inv.endPass {s : State} (h : s.Inv) (hm : s.mode ≠ .unconstructed) : (endPass s).Inv where
  cfgWf := h.cfgWf
  fbCanonical := h.fbCanonical
  fbInSpace := h.fbInSpace
  fbGamma := h.fbGamma
  brightness := fun _ => h.brightness hm
  seqIdle := by simp
  seqInPass := by simp
  noF := h.noF

/-- In a constructed block `SEQ` may move to the rest of any pass: at its beginning from `READY`, later in `BUSY`. -/
theorem State.Inv.advance_constructed {s : State} (h : s.Inv) (hm : s.mode ≠ .unconstructed) {kind : PassKind}
    {base : Nat} {later : List Slot} (hlater : later <:+ passSlots s kind base) : (advance kind later (s.withMode .busy)).Inv := by
  cases later with
  | nil => exact (h.endPass hm).respond .ok 0
  | cons slot rest =>
    refine ⟨h.cfgWf, h.fbCanonical, h.fbInSpace, h.fbGamma, fun _ => h.brightness hm, ?_, ?_, h.noF⟩
    · simp [advance_cons]
    · intro kind' now later' hseq
      cases hseq
      exact ⟨base, hlater⟩

theorem State.Inv.advance_of_busy {s : State} (h : s.Inv) (hbusy : s.mode = .busy) {kind : PassKind} {base : Nat}
    {later : List Slot} (hlater : later <:+ passSlots s kind base) : (advance kind later s).Inv := by
  have hself : s.withMode .busy = s := by rw [← hbusy]; rfl
  have hadvance := h.advance_constructed (by simp [hbusy]) hlater
  rwa [hself] at hadvance

theorem State.Inv.busy_of_running {s : State} (h : s.Inv) {kind : PassKind} {now : Slot} {later : List Slot}
    (hseq : s.seq = .running kind now later) : s.mode = .busy := by
  by_contra hm
  rw [h.seqIdle.mpr hm] at hseq
  cases hseq

theorem State.Inv.passStep {s t : State} (h : s.Inv) (hstep : passStep s = .next t) : t.Inv := by
  obtain ⟨kind, now, later, hseq, -, hcases⟩ := passStep_next hstep
  have hbusy := h.busy_of_running hseq
  have hm : s.mode ≠ .unconstructed := by simp [hbusy]
  obtain ⟨base, hrest⟩ := h.seqInPass kind now later hseq
  have hlater : later <:+ passSlots s kind base := (List.suffix_cons now later).trans hrest
  have hdrives : now.req.Drives s.cfg := passSlots_drives (hrest.subset List.mem_cons_self)
  rcases hcases with ⟨-, -, rfl⟩ | ⟨-, -, rfl⟩ | ⟨-, rfl⟩
  · have hout : s.cfg.scanRows = 16 → (now.req.outAfter s).f = none := fun h16 =>
      (hdrives.outAfter_f (f_notMem_signals h16)).trans (h.noF h16)
    exact ((h.issueWrite _).withOut hout).advance_of_busy hbusy hlater
  · exact ((h.issueWrite _).endPass hm).respond _ _
  · exact (h.logEvent _).advance_of_busy hbusy hlater

theorem State.Inv.runWholePass {s t : State} (h : s.Inv) (hm : s.mode ≠ .unconstructed) {kind : PassKind} {base : Nat}
    (hrun : runWholePass kind (passSlots s kind base) s = .next t) : t.Inv :=
  runPass_induct (P := State.Inv) (fun _ _ _ hu hstep => hu.passStep hstep)
    (h.advance_constructed hm (List.suffix_refl _)) hrun

/-! Commands and steps. -/

theorem CommandEffect.inv {s t : State} (heffect : CommandEffect s t) (h : s.Inv) : t.Inv := by
  cases heffect with
  | answered status payload => exact h.respond status payload
  | constructed bits _ h1 h8 => exact (h.construct h1 h8).respond _ _
  | stored ws _ hws => exact (h.writeAll hws).respond _ _
  | scanned kind base _ hm hrun => exact h.runWholePass (by simp [hm]) hrun

/-- Settles O49: a case analysis on what a step can do; a whole pass by induction over its events. -/
theorem stepKeepsInvariant : Obligations.StepKeepsInvariant := by
  intro s t h hstep
  rcases step_next hstep with ⟨-, hpass⟩ | ⟨-, rfl⟩ | ⟨cw, rest, -, heffect⟩
  · exact h.passStep hpass
  · exact h
  · exact heffect.inv (h.withPort rest)

end Sys2Proof.Machine
end

section
/-! PROOFS. What no event of a pass writes, and who writes the brightness constants, the framebuffer and the trace
(rules R23, R26). -/

namespace Sys2Proof.Machine

/-! The frame of a pass: it moves `MODE` and `SEQ`, drives `OUT`, and talks to the ports; it keeps the rest. -/

/-- `t` holds what `s` holds in every part of the block that no event of a pass writes. -/
structure State.PassFrame (s t : State) : Prop where
  cfg : t.cfg = s.cfg
  bitsReg : t.bitsReg = s.bitsReg
  stepReg : t.stepReg = s.stepReg
  countReg : t.countReg = s.countReg
  shiftReg : t.shiftReg = s.shiftReg
  fb : t.fb = s.fb
  port : t.port = s.port

theorem State.PassFrame.trans {s t u : State} (hst : s.PassFrame t) (htu : t.PassFrame u) : s.PassFrame u where
  cfg := htu.cfg.trans hst.cfg
  bitsReg := htu.bitsReg.trans hst.bitsReg
  stepReg := htu.stepReg.trans hst.stepReg
  countReg := htu.countReg.trans hst.countReg
  shiftReg := htu.shiftReg.trans hst.shiftReg
  fb := htu.fb.trans hst.fb
  port := htu.port.trans hst.port

theorem passFrame_advance (kind : PassKind) (later : List Slot) (s : State) : s.PassFrame (advance kind later s) := by
  cases later with
  | nil => exact ⟨rfl, rfl, rfl, rfl, rfl, rfl, rfl⟩
  | cons slot rest => exact ⟨rfl, rfl, rfl, rfl, rfl, rfl, rfl⟩

theorem passFrame_beginPass (kind : PassKind) (slots : List Slot) (s : State) :
    s.PassFrame (beginPass kind slots s) :=
  State.PassFrame.trans (t := s.withMode .busy) ⟨rfl, rfl, rfl, rfl, rfl, rfl, rfl⟩ (passFrame_advance kind slots _)

theorem passFrame_passStep {s t : State} (h : passStep s = .next t) : s.PassFrame t := by
  obtain ⟨kind, now, later, -, -, ⟨-, -, rfl⟩ | ⟨-, -, rfl⟩ | ⟨-, rfl⟩⟩ := passStep_next h
  · have hissued : s.PassFrame ((s.issueWrite (now.req.event s)).withOut (now.req.outAfter s)) :=
      ⟨rfl, rfl, rfl, rfl, rfl, rfl, rfl⟩
    exact hissued.trans (passFrame_advance kind later _)
  · exact ⟨rfl, rfl, rfl, rfl, rfl, rfl, rfl⟩
  · have hissued : s.PassFrame (s.logEvent (now.req.event s)) := ⟨rfl, rfl, rfl, rfl, rfl, rfl, rfl⟩
    exact hissued.trans (passFrame_advance kind later _)

theorem passFrame_runWholePass {kind : PassKind} {slots : List Slot} {s t : State}
    (h : runWholePass kind slots s = .next t) : s.PassFrame t :=
  runPass_induct (P := s.PassFrame) (fun _ _ _ hs hstep => hs.trans (passFrame_passStep hstep))
    (passFrame_beginPass kind slots s) h

/-! The brightness constants (rule R26). -/

/-- `t` has the `BITS`, `STEP`, `COUNT` and `SHIFT` of `s`. -/
def State.SameBrightness (s t : State) : Prop :=
  t.bitsReg = s.bitsReg ∧ t.stepReg = s.stepReg ∧ t.countReg = s.countReg ∧ t.shiftReg = s.shiftReg

theorem State.PassFrame.sameBrightness {s t : State} (h : s.PassFrame t) : s.SameBrightness t :=
  ⟨h.bitsReg, h.stepReg, h.countReg, h.shiftReg⟩

/-- Of the effects of a command only construction writes the constants, and it leaves `UNCONSTRUCTED` (rule R200). -/
theorem CommandEffect.sameBrightness {s t : State} (heffect : CommandEffect s t)
    (hm : s.mode ≠ .unconstructed ∨ t.mode = .unconstructed) : s.SameBrightness t := by
  cases heffect with
  | answered status payload => exact ⟨rfl, rfl, rfl, rfl⟩
  | constructed bits hunconstructed _ _ =>
    have hready : (done (construct bits s)).mode = .ready := rfl
    rw [hready] at hm
    exact hm.elim (absurd hunconstructed) nofun
  | stored ws _ _ => exact ⟨rfl, rfl, rfl, rfl⟩
  | scanned kind base _ _ hrun => exact (passFrame_runWholePass hrun).sameBrightness

/-- Settles O17: a case analysis on what a step can do; a pass writes none of the four registers. -/
theorem brightnessWrittenOnlyByInit : Obligations.BrightnessWrittenOnlyByInit := by
  intro s t hstep hm
  rcases step_next hstep with ⟨-, hpass⟩ | ⟨-, rfl⟩ | ⟨cw, rest, -, heffect⟩
  · exact (passFrame_passStep hpass).sameBrightness
  · exact ⟨rfl, rfl, rfl, rfl⟩
  · exact heffect.sameBrightness hm

/-! The events and `OUT` (rules R23, R202). -/

/-- From `s` to `t` no event was issued and `OUT` was not written. -/
def State.Silent (s t : State) : Prop := t.log = s.log ∧ t.out = s.out

theorem silent_raise {s : State} (e : Error) : s.Silent (raise e s) := by
  cases e <;> exact ⟨rfl, rfl⟩

/-- A command that needs `READY` is silent if its body is. -/
theorem silent_of_inReady {s t : State} {body : State → Result} (hbody : body s = .next t → s.Silent t)
    (h : inReady s body = .next t) : s.Silent t := by
  obtain ⟨-, ⟨-, hb⟩ | ⟨-, rfl⟩⟩ := inReady_next h
  · exact hbody hb
  · exact silent_raise .badState

theorem execInit_silent {s t : State} {bits : Byte} (h : execInit bits s = .next t) : s.Silent t := by
  obtain ⟨-, ⟨-, hb⟩ | ⟨-, rfl⟩⟩ := inUnconstructed_next h
  · split at hb
    · cases hb
      exact ⟨rfl, rfl⟩
    · cases hb
      exact silent_raise .configError
  · exact silent_raise .badState

theorem execWrpix_silent {s t : State} {x y : Int} {r g b : Byte} (h : execWrpix x y r g b s = .next t) :
    s.Silent t := by
  refine silent_of_inReady (fun hb => ?_) h
  split at hb
  · dsimp only at hb
    split at hb
    · rename_i hstore
      obtain ⟨-, rfl⟩ := fbWriteHalf_next hstore
      cases hb
      exact ⟨rfl, rfl⟩
    · cases hb
    · cases hb
  · cases hb
    exact ⟨rfl, rfl⟩

theorem execClear_silent {s t : State} {r g b : Byte} (h : execClear r g b s = .next t) : s.Silent t := by
  refine silent_of_inReady (fun hb => ?_) h
  cases hb
  exact ⟨rfl, rfl⟩

theorem execClrd_silent {s t : State} (h : execClrd s = .next t) : s.Silent t := by
  refine silent_of_inReady (fun hb => ?_) h
  cases hb
  exact ⟨rfl, rfl⟩

/-- SIZE only answers (rule R125). -/
theorem execSize_next {s t : State} (h : execSize s = .next t) : ∃ status payload, t = s.respond status payload := by
  obtain ⟨-, ⟨-, hb⟩ | ⟨-, rfl⟩⟩ := inReady_next h
  · cases hb
    exact ⟨_, _, rfl⟩
  · exact ⟨_, _, raise_of_ne (by decide) s⟩

theorem execSize_silent {s t : State} (h : execSize s = .next t) : s.Silent t := by
  obtain ⟨status, payload, rfl⟩ := execSize_next h
  exact ⟨rfl, rfl⟩

/-- Only the two output passes issue events or write `OUT`. -/
theorem exec_silent_or_pass {i : Instr} {s t : State} (h : exec i s = .next t) :
    s.Silent t ∨ i = .pwm ∨ ∃ base, i = .bcm base := by
  cases i with
  | init bits => exact .inl (execInit_silent h)
  | wrpix x y r g b => exact .inl (execWrpix_silent h)
  | clear r g b => exact .inl (execClear_silent h)
  | clrd => exact .inl (execClrd_silent h)
  | size => exact .inl (execSize_silent h)
  | pwm => exact .inr (.inl rfl)
  | bcm base => exact .inr (.inr ⟨base, rfl⟩)

/-! The framebuffer (rule R23). -/

/-- A command whose own work is a whole pass keeps the framebuffer. -/
theorem fb_of_inReady_pass {s t : State} (kind : PassKind) (base : Nat)
    (h : inReady s (fun s => runWholePass kind (passSlots s kind base) s) = .next t) : t.fb = s.fb := by
  obtain ⟨-, ⟨-, hrun⟩ | ⟨-, rfl⟩⟩ := inReady_next h
  · exact (passFrame_runWholePass hrun).fb
  · rfl

/-- SIZE and the two passes keep the framebuffer; the other commands may write it. -/
theorem exec_fb_or_write {i : Instr} {s t : State} (h : exec i s = .next t) :
    t.fb = s.fb ∨ (∃ bits, i = .init bits) ∨ (∃ x y r g b, i = .wrpix x y r g b) ∨ (∃ r g b, i = .clear r g b)
      ∨ i = .clrd := by
  cases i with
  | init bits => exact .inr (.inl ⟨bits, rfl⟩)
  | wrpix x y r g b => exact .inr (.inr (.inl ⟨x, y, r, g, b, rfl⟩))
  | clear r g b => exact .inr (.inr (.inr (.inl ⟨r, g, b, rfl⟩)))
  | clrd => exact .inr (.inr (.inr (.inr rfl)))
  | size =>
    obtain ⟨status, payload, rfl⟩ := execSize_next h
    exact .inl rfl
  | pwm => exact .inl (fb_of_inReady_pass .pwm 0 h)
  | bcm base => exact .inl (fb_of_inReady_pass .bcm base h)

/-- Settles O52: the two frames, command by command. -/
theorem whoWritesFramebufferAndTrace : Obligations.WhoWritesFramebufferAndTrace := by
  intro s t i h
  refine ⟨fun hfb => (exec_fb_or_write h).resolve_left hfb, fun hne => (exec_silent_or_pass h).resolve_left ?_⟩
  rintro ⟨hlog, hout⟩
  exact hne.elim (absurd hlog) (absurd hout)

end Sys2Proof.Machine
end

section
/-! PROOFS. A whole pass is the run of its single events (rule R30). -/

namespace Sys2Proof.Machine

theorem step_of_busy {s : State} (hw : s.cfg.wf = true) (hbusy : s.mode = .busy) : step s = passStep s := by
  simp [step, hw, hbusy]

theorem run_one (M : Host.Core) (s : M.State) : M.run 1 s = M.step s := by
  simp only [Host.Core.run]
  cases M.step s <;> rfl

theorem run_succ_of_next {M : Host.Core} {s t : M.State} (h : M.step s = .next t) (n : Nat) :
    M.run (n + 1) s = M.run n t := by
  simp only [Host.Core.run, h]

/-- A pass whose next event stops the machine stops with it. -/
theorem runPass_of_stop {s : State} (hbusy : s.mode = .busy) (hstop : ∀ t, passStep s ≠ .next t) (fuel : Nat) :
    runPass (fuel + 1) s = passStep s := by
  simp only [runPass, hbusy]
  cases hpass : passStep s with
  | next t => exact absurd hpass (hstop t)
  | fault e => rfl
  | refused e => rfl

/-- The engine's own run to the end of a pass is a run of steps: it takes a step for each event it issues, and stops
where the pass has ended, before the next command. -/
theorem exists_run_eq_runPass {fuel : Nat} {s : State} (hw : s.cfg.wf = true) :
    ∃ n, Host.Core.run Sys2Proof.core n s = runPass fuel s := by
  induction fuel generalizing s with
  | zero => exact ⟨0, rfl⟩
  | succ fuel ih =>
    by_cases hbusy : s.mode = .busy
    · have hstep : Sys2Proof.core.step s = passStep s := step_of_busy hw hbusy
      by_cases hnext : ∃ t, passStep s = .next t
      · obtain ⟨t, hpass⟩ := hnext
        obtain ⟨n, hn⟩ := ih (s := t) (by rw [(passFrame_passStep hpass).cfg, hw])
        refine ⟨n + 1, ?_⟩
        rw [runPass_succ hbusy hpass, ← hn]
        exact run_succ_of_next (hstep.trans hpass) n
      · refine ⟨1, ?_⟩
        rw [runPass_of_stop hbusy (not_exists.mp hnext), ← hstep]
        exact run_one Sys2Proof.core s
    · exact ⟨0, (runPass_of_not_busy hbusy (fuel + 1)).symm⟩

theorem exists_run_eq_runWholePass {s : State} (hw : s.cfg.wf = true) (kind : PassKind) (slots : List Slot) :
    ∃ n, Host.Core.run Sys2Proof.core n (beginPass kind slots s) = runWholePass kind slots s :=
  exists_run_eq_runPass (by rw [(passFrame_beginPass kind slots s).cfg, hw])

theorem execPwm_ready {s : State} (hw : s.cfg.wf = true) (hm : s.mode = .ready) :
    execPwm s = runWholePass .pwm (passSlots s .pwm 0) s :=
  inReady_ready hw hm

theorem execBcm_ready {s : State} (hw : s.cfg.wf = true) (hm : s.mode = .ready) (base : Nat) :
    execBcm base s = runWholePass .bcm (passSlots s .bcm base) s :=
  inReady_ready hw hm

/-- Settles O33: by induction on the events the engine may still issue. -/
theorem passIsTheRunOfItsEvents : Obligations.PassIsTheRunOfItsEvents := by
  intro s hw hm
  simp only [exec, execPwm_ready hw hm, execBcm_ready hw hm]
  exact ⟨exists_run_eq_runWholePass hw .pwm _, fun base => exists_run_eq_runWholePass hw .bcm _⟩

end Sys2Proof.Machine
end

section
/-! PROOFS. The bits of an output word (rules R35, R68, R69). -/

namespace Sys2Proof.Machine

theorem testBit_ite_two_pow {b : Prop} [Decidable b] {n k : Nat} :
    (if b then 2 ^ n else 0).testBit k = true ↔ n = k ∧ b := by
  split <;> simp [Nat.testBit_two_pow, *]

/-- A bit of an output word is 1 exactly when a mapped signal at that position is high. -/
theorem composeWord_testBit (cfg : Config) (o : Out) (named : List (Signal × Level)) (k : Nat) :
    (composeWord cfg o named).testBit k = true ↔
      ∃ s ∈ cfg.signals, cfg.bitpos.of s = k ∧ wordLevel cfg o named s = .high := by
  unfold composeWord
  induction cfg.signals with
  | nil => simp
  | cons s rest ih =>
    simp only [List.foldr_cons, Nat.testBit_or, Bool.or_eq_true, testBit_ite_two_pow, ih, List.exists_mem_cons_iff]

theorem composeWord_testBit_mapped {cfg : Config} (hpos : cfg.bitposOk = true) (o : Out)
    (named : List (Signal × Level)) {s : Signal} (hs : s ∈ cfg.signals) :
    (composeWord cfg o named).testBit (cfg.bitpos.of s) = decide (wordLevel cfg o named s = .high) := by
  obtain ⟨-, hinj⟩ := cfg.bitposOk_iff.mp hpos
  rw [Bool.eq_iff_iff, composeWord_testBit, decide_eq_true_eq]
  constructor
  · rintro ⟨s', hs', hsame, hhigh⟩
    rwa [hinj s' hs' s hs hsame] at hhigh
  · exact fun hhigh => ⟨s, hs, rfl, hhigh⟩

theorem composeWord_testBit_unmapped {cfg : Config} (o : Out) (named : List (Signal × Level)) {k : Nat}
    (hk : ∀ s ∈ cfg.signals, cfg.bitpos.of s ≠ k) : (composeWord cfg o named).testBit k = false := by
  rw [Bool.eq_false_iff, ne_eq, composeWord_testBit]
  rintro ⟨s, hs, hsame, -⟩
  exact hk s hs hsame

/-- No bit at or above `PORT_WIDTH` is mapped. -/
theorem composeWord_lt {cfg : Config} (hpos : cfg.bitposOk = true) (o : Out) (named : List (Signal × Level)) :
    composeWord cfg o named < 2 ^ cfg.portWidth := by
  obtain ⟨hwidth, -⟩ := cfg.bitposOk_iff.mp hpos
  refine Nat.lt_pow_two_of_testBit _ fun k hk => composeWord_testBit_unmapped o named fun s hs => ?_
  exact Nat.ne_of_lt ((hwidth s hs).trans_le hk)

/-- Settles O39: mapped bits by injectivity of `BITPOS`, the others because no signal is there. -/
theorem outputWordBits : Obligations.OutputWordBits := fun _ o named hpos =>
  ⟨fun _ hs => composeWord_testBit_mapped hpos o named hs, fun _ hk => composeWord_testBit_unmapped o named hk,
    composeWord_lt hpos o named⟩

end Sys2Proof.Machine
end

section
/-! PROOFS. The mapper stays inside the framebuffer (rules R53, R116). -/

namespace Sys2Proof.Machine

theorem scanRows_pos {cfg : Config} (hw : cfg.wf = true) : 0 < cfg.scanRows := by
  obtain ⟨h16 | h32, -⟩ := Config.wf_parts hw <;> omega

/-- A logical row is half a buffer row, in whole stripes; the two buffer stripes of its stripe `x / w` end inside the
buffer row. -/
theorem stripe_end_le {cols w x : Nat} (hwhole : cols % (2 * w) = 0) (hx : x < cols / 2) :
    2 * w * (x / w + 1) ≤ cols := by
  obtain ⟨k, rfl⟩ := Nat.dvd_of_mod_eq_zero hwhole
  have hlt : x / w < k := Nat.div_lt_of_lt_mul (by rwa [Nat.mul_assoc, Nat.mul_div_cancel_left _ two_pos] at hx)
  exact Nat.mul_le_mul_left _ hlt

theorem mapPixel_row_lt {cfg : Config} (hw : cfg.wf = true) (x y : Nat) : (mapPixel cfg x y).row < cfg.scanRows := by
  unfold mapPixel
  split
  · exact Nat.mod_lt _ (scanRows_pos hw)
  · exact Nat.mod_lt _ (scanRows_pos hw)

theorem mapPixel_col_lt {cfg : Config} (hw : cfg.wf = true) {x : Nat} (hx : x < cfg.width) (y : Nat) :
    (mapPixel cfg x y).col < cfg.rowLength := by
  obtain ⟨-, -, -, hwhole, -, -, -, hstripe, -⟩ := Config.wf_parts hw
  unfold Config.width at hx
  unfold mapPixel
  split
  · rename_i hmux
    rw [if_pos hmux] at hx
    have hend := stripe_end_le (hwhole hmux) hx
    have hsplit := Nat.div_add_mod x cfg.stripeW
    have hoffset := Nat.mod_lt x hstripe
    rw [Nat.mul_add, Nat.mul_assoc] at hend
    simp only [mapMux]
    split <;> omega
  · rename_i hplain
    rwa [if_neg hplain] at hx

/-- The cell an in-bounds pixel is stored in is a cell of the framebuffer. -/
theorem mapPixel_cellInRange {cfg : Config} (hw : cfg.wf = true) {x y : Int} (hin : inBounds cfg x y = true) :
    cellInRange cfg (mapPixel cfg x.toNat y.toNat).row (mapPixel cfg x.toNat y.toNat).col = true := by
  simp only [inBounds, Bool.and_eq_true, decide_eq_true_eq] at hin
  obtain ⟨⟨⟨hx0, hxw⟩, -⟩, -⟩ := hin
  simp only [cellInRange, Bool.and_eq_true, decide_eq_true_eq]
  exact ⟨mapPixel_row_lt hw _ _, mapPixel_col_lt hw (by omega) _⟩

end Sys2Proof.Machine
end

section
/-! PROOFS. Every command outside a pass completes with one well-formed response (rules R60, R80, R83). -/

namespace Sys2Proof.Machine

/-! The fields of a response word (rule R83). -/

@[simp] theorem responseWord_status (status : Status) (payload : BitVec 32) :
    (responseWord status payload).extractLsb' 56 8 = status.code :=
  (BitVec.extractLsb'_append_eq_of_le (by decide)).trans BitVec.extractLsb'_append_eq_left

@[simp] theorem responseWord_reserved (status : Status) (payload : BitVec 32) :
    (responseWord status payload).extractLsb' 32 24 = 0 :=
  (BitVec.extractLsb'_append_eq_of_le (Nat.le_refl 32)).trans BitVec.extractLsb'_append_eq_right

@[simp] theorem responseWord_payload (status : Status) (payload : BitVec 32) :
    (responseWord status payload).extractLsb' 0 32 = payload :=
  BitVec.extractLsb'_append_eq_right

theorem Status.code_le (status : Status) : status.code.toNat ≤ 4 := by
  cases status with
  | ok => decide
  | error e => cases e <;> decide

/-! One answer. -/

/-- The result is a next state with one response more than `s`, the same words presented, and no pass in progress; the
response has a payload only if `sized` and the status is `OK`. -/
def Answers (sized : Prop) (s : State) (r : Result) : Prop :=
  ∃ t status payload, r = .next t ∧ t.responses = responseWord status payload :: s.responses ∧ t.port = s.port
    ∧ t.mode ≠ .busy ∧ (payload ≠ 0 → sized ∧ status = .ok)

theorem answers_respond {sized : Prop} {s : State} (hm : s.mode ≠ .busy) (status : Status) :
    Answers sized s (.next (s.respond status 0)) :=
  ⟨_, status, 0, rfl, rfl, rfl, hm, absurd rfl⟩

theorem answers_raise {sized : Prop} {s : State} {e : Error} (hm : s.mode ≠ .busy) (he : e ≠ .pinFault) :
    Answers sized s (.next (raise e s)) := by
  rw [raise_of_ne he]
  exact answers_respond hm _

/-- A store that ends `OK`, whatever it writes. -/
theorem answers_withFb {sized : Prop} {s : State} (hm : s.mode ≠ .busy) (m : Memory) :
    Answers sized s (.next (done (s.withFb m))) :=
  answers_respond (s := s.withFb m) hm .ok

/-- A command that needs `READY` answers if its body does. -/
theorem answers_inReady {sized : Prop} {s : State} {body : State → Result} (hw : s.cfg.wf = true)
    (hm : s.mode ≠ .busy) (hbody : s.mode = .ready → Answers sized s (body s)) : Answers sized s (inReady s body) := by
  cases hmode : s.mode with
  | ready => rw [inReady_ready hw hmode]; exact hbody hmode
  | unconstructed => rw [inReady_unconstructed hw hmode]; exact answers_raise hm (by decide)
  | busy => exact absurd hmode hm

/-! A pass. -/

/-- Everything an event that reads inside the framebuffer does: it moves the pass on, or it is a write answered `fault`
and ends it. -/
theorem passStep_of_inRange {s : State} {kind : PassKind} {now : Slot} {later : List Slot}
    (hseq : s.seq = .running kind now later) (hr : now.req.inRange s.cfg = true) :
    passStep s = .next (advance kind later ((s.issueWrite (now.req.event s)).withOut (now.req.outAfter s)))
      ∨ passStep s = .next (raise .pinFault (s.issueWrite (now.req.event s)))
      ∨ passStep s = .next (advance kind later (s.logEvent (now.req.event s))) := by
  cases hwrite : now.req.isWrite with
  | false => exact .inr (.inr (passStep_delay hseq hr hwrite))
  | true =>
    cases hanswer : s.answerAt 0 with
    | ok => exact .inl (passStep_ok hseq hr hwrite hanswer)
    | fault => exact .inr (.inl (passStep_fault hseq hr hwrite hanswer))

/-- A pass answers when its last event is answered, or at the first fault before (rules R170, R185, R221): by induction
on the events that are left. -/
theorem answers_runPass {sized : Prop} {kind : PassKind} {slots : List Slot} {s : State} (hbusy : s.mode = .busy)
    (hr : ∀ slot ∈ slots, slot.req.inRange s.cfg = true) :
    Answers sized s (runPass slots.length (advance kind slots s)) := by
  induction slots generalizing s with
  | nil => exact answers_respond (s := endPass s) (by simp) .ok
  | cons slot rest ih =>
    have hrest : ∀ later ∈ rest, later.req.inRange s.cfg = true := fun later h => hr later (List.mem_cons_of_mem _ h)
    have hcur : (advance kind (slot :: rest) s).mode = .busy := hbusy
    rw [List.length_cons]
    rcases passStep_of_inRange (s := advance kind (slot :: rest) s) rfl (hr slot List.mem_cons_self) with
      hok | hfault | hdelay
    · rw [runPass_succ hcur hok]
      exact ih (s := ((advance kind (slot :: rest) s).issueWrite _).withOut _) hbusy hrest
    · rw [runPass_succ hcur hfault, runPass_of_not_busy (by simp [raise_pinFault])]
      exact answers_respond (s := endPass ((advance kind (slot :: rest) s).issueWrite _)) (by simp) _
    · rw [runPass_succ hcur hdelay]
      exact ih (s := (advance kind (slot :: rest) s).logEvent _) hbusy hrest

/-- Every event of a pass reads inside the framebuffer (rule R53). -/
theorem passSlots_inRange (s : State) (kind : PassKind) (base : Nat) :
    ∀ slot ∈ passSlots s kind base, slot.req.inRange s.cfg = true := by
  cases kind with
  | pwm => exact pwmSlots_inRange
  | bcm => exact bcmSlots_inRange

theorem answers_runWholePass (sized : Prop) (s : State) (kind : PassKind) (base : Nat) :
    Answers sized s (runWholePass kind (passSlots s kind base) s) :=
  answers_runPass (s := s.withMode .busy) rfl (passSlots_inRange s kind base)

/-! The commands. -/

theorem answers_execInit {sized : Prop} {s : State} (hw : s.cfg.wf = true) (hm : s.mode ≠ .busy) (bits : Byte) :
    Answers sized s (execInit bits s) := by
  unfold execInit
  cases hmode : s.mode with
  | ready => rw [inUnconstructed_ready hw hmode]; exact answers_raise hm (by decide)
  | busy => exact absurd hmode hm
  | unconstructed =>
    rw [inUnconstructed_unconstructed hw hmode]
    split
    · exact answers_respond (s := construct bits.toNat s) (by simp [construct]) .ok
    · exact answers_raise hm (by decide)

theorem answers_execWrpix {sized : Prop} {s : State} (hw : s.cfg.wf = true) (hm : s.mode ≠ .busy) (x y : Int)
    (r g b : Byte) : Answers sized s (execWrpix x y r g b s) := by
  refine answers_inReady hw hm fun _ => ?_
  split
  · rename_i hin
    dsimp only
    rw [fbWriteHalf_inRange (mapPixel_cellInRange hw hin)]
    exact answers_withFb hm _
  · exact answers_respond hm .ok

theorem answers_execClear {sized : Prop} {s : State} (hw : s.cfg.wf = true) (hm : s.mode ≠ .busy) (r g b : Byte) :
    Answers sized s (execClear r g b s) :=
  answers_inReady hw hm fun _ => answers_withFb hm _

theorem answers_execClrd {sized : Prop} {s : State} (hw : s.cfg.wf = true) (hm : s.mode ≠ .busy) :
    Answers sized s (execClrd s) :=
  answers_inReady hw hm fun _ => answers_withFb hm _

/-- SIZE is the command whose response has a payload (rule R125). -/
theorem answers_execSize {s : State} (hw : s.cfg.wf = true) (hm : s.mode ≠ .busy) : Answers True s (execSize s) :=
  answers_inReady hw hm fun _ => ⟨_, .ok, _, rfl, rfl, rfl, hm, fun _ => ⟨trivial, rfl⟩⟩

theorem answers_execPwm {sized : Prop} {s : State} (hw : s.cfg.wf = true) (hm : s.mode ≠ .busy) :
    Answers sized s (execPwm s) :=
  answers_inReady hw hm fun _ => answers_runWholePass sized s .pwm 0

theorem answers_execBcm {sized : Prop} {s : State} (hw : s.cfg.wf = true) (hm : s.mode ≠ .busy) (base : Nat) :
    Answers sized s (execBcm base s) :=
  answers_inReady hw hm fun _ => answers_runWholePass sized s .bcm base

theorem answers_exec {s : State} (hw : s.cfg.wf = true) (hm : s.mode ≠ .busy) (i : Instr) :
    Answers (i = .size) s (exec i s) := by
  cases i with
  | init bits => exact answers_execInit hw hm bits
  | wrpix x y r g b => exact answers_execWrpix hw hm x y r g b
  | clear r g b => exact answers_execClear hw hm r g b
  | clrd => exact answers_execClrd hw hm
  | size => simpa only [exec] using answers_execSize hw hm
  | pwm => exact answers_execPwm hw hm
  | bcm base => exact answers_execBcm hw hm base

/-! The step outside a pass. -/

theorem step_of_decode_ok {s : State} {cw : PortWord} {rest : List PortWord} {i : Instr} (hw : s.cfg.wf = true)
    (hm : s.mode ≠ .busy) (hp : s.port = cw :: rest) (hd : decode cw = .ok i) : step s = exec i (s.withPort rest) := by
  cases hmode : s.mode with
  | busy => exact absurd hmode hm
  | ready => simp [step, hw, hmode, takeCommand, hp, hd]
  | unconstructed => simp [step, hw, hmode, takeCommand, hp, hd]

theorem step_of_decode_error {s : State} {cw : PortWord} {rest : List PortWord} {e : DecodeError}
    (hw : s.cfg.wf = true) (hm : s.mode ≠ .busy) (hp : s.port = cw :: rest) (hd : decode cw = .error e) :
    step s = .next (raise .illegalCommand (s.withPort rest)) := by
  cases hmode : s.mode with
  | busy => exact absurd hmode hm
  | ready => simp [step, hw, hmode, takeCommand, hp, hd, illegalCommand]
  | unconstructed => simp [step, hw, hmode, takeCommand, hp, hd, illegalCommand]

theorem step_of_port_nil {s : State} (hw : s.cfg.wf = true) (hm : s.mode ≠ .busy) (hp : s.port = []) :
    step s = .next s := by
  cases hmode : s.mode with
  | busy => exact absurd hmode hm
  | ready => simp [step, hw, hmode, takeCommand, hp]
  | unconstructed => simp [step, hw, hmode, takeCommand, hp]

/-- A presented word is answered once, whether or not it is a command. -/
theorem answers_step {s : State} {cw : PortWord} {rest : List PortWord} (hw : s.cfg.wf = true) (hm : s.mode ≠ .busy)
    (hp : s.port = cw :: rest) : Answers (decode cw = .ok .size) (s.withPort rest) (step s) := by
  cases hd : decode cw with
  | ok i =>
    rw [step_of_decode_ok hw hm hp hd]
    simpa using answers_exec (s := s.withPort rest) hw hm i
  | error e =>
    rw [step_of_decode_error hw hm hp hd]
    exact answers_raise (s := s.withPort rest) hm (by decide)

/-- Settles O12: command by command, a pass by induction on its events; the fields are those of the response word. -/
theorem everyWordIsAnsweredOnce : Obligations.EveryWordIsAnsweredOnce := by
  intro s cw rest hw hm hp
  obtain ⟨t, status, payload, hnext, hresponses, hport, hmode, hpayload⟩ := answers_step hw hm hp
  refine ⟨t, responseWord status payload, hnext, hresponses, hport, hmode, ?_, ?_, fun hne => ?_⟩
  · simpa using status.code_le
  · simp
  · obtain ⟨hsize, rfl⟩ := hpayload (by simpa using hne)
    exact ⟨hsize, by simp [Status.code]⟩

/-- Settles O6: outside `BUSY` the step takes the word and runs what it decodes to. -/
theorem stepRunsDecodedCommand : Obligations.StepRunsDecodedCommand :=
  fun _ _ _ _ hw hm hp hd => step_of_decode_ok hw hm hp hd

end Sys2Proof.Machine
end

section
/-! PROOFS. No step stops, and a step in `BUSY` issues one event (rules R53, R61, R141). -/

namespace Sys2Proof.Machine

/-- In `BUSY` the event at `SEQ` is one of a pass, so it reads inside the framebuffer and is answered. -/
theorem State.Inv.exists_passStep {s : State} (h : s.Inv) (hbusy : s.mode = .busy) :
    ∃ t, Machine.passStep s = .next t := by
  cases hseq : s.seq with
  | idle => exact absurd hbusy (h.seqIdle.mp hseq)
  | running kind now later =>
    obtain ⟨base, hrest⟩ := h.seqInPass kind now later hseq
    have hr := passSlots_inRange s kind base now (hrest.subset List.mem_cons_self)
    rcases passStep_of_inRange hseq hr with hok | hfault | hdelay
    · exact ⟨_, hok⟩
    · exact ⟨_, hfault⟩
    · exact ⟨_, hdelay⟩

/-- Settles O50: in `BUSY` by the invariant, with a word presented because every word is answered. -/
theorem noStepStops : Obligations.NoStepStops := by
  intro s h
  by_cases hbusy : s.mode = .busy
  · rw [step_of_busy h.cfgWf hbusy]
    exact h.exists_passStep hbusy
  · cases hp : s.port with
    | nil => exact ⟨s, step_of_port_nil h.cfgWf hbusy hp⟩
    | cons cw rest =>
      obtain ⟨t, -, -, hnext, -⟩ := answers_step h.cfgWf hbusy hp
      exact ⟨t, hnext⟩

@[simp] theorem advance_log (kind : PassKind) (later : List Slot) (s : State) : (advance kind later s).log = s.log := by
  cases later <;> rfl

@[simp] theorem advance_out (kind : PassKind) (later : List Slot) (s : State) : (advance kind later s).out = s.out := by
  cases later <;> rfl

theorem Request.event_ne_delay {q : Request} (h : q.isWrite = true) (s : State) (us : Nat) : q.event s ≠ .d us := by
  cases q with
  | line sig v => exact nofun
  | word vs => exact nofun
  | delay us => cases h

/-- One event is added to the trace, and `OUT` changes only if it is a write answered ok. -/
theorem passStep_issues_one {s t : State} (h : passStep s = .next t) :
    ∃ e : Event, t.log = e :: s.log ∧ (t.out ≠ s.out → s.answerAt 0 = .ok ∧ ∀ us, e ≠ .d us) := by
  obtain ⟨kind, now, later, -, -, ⟨hwrite, hok, rfl⟩ | ⟨-, -, rfl⟩ | ⟨-, rfl⟩⟩ := passStep_next h
  · exact ⟨now.req.event s, by simp, fun _ => ⟨hok, Request.event_ne_delay hwrite s⟩⟩
  · exact ⟨now.req.event s, rfl, absurd rfl⟩
  · exact ⟨now.req.event s, by simp, fun hne => absurd (by simp) hne⟩

/-- Settles O34: the invariant gives the next state, and what one event can do gives the rest. -/
theorem busyStepIssuesOneEvent : Obligations.BusyStepIssuesOneEvent := by
  intro s h hbusy
  obtain ⟨t, hpass⟩ := h.exists_passStep hbusy
  obtain ⟨e, hlog, hout⟩ := passStep_issues_one hpass
  exact ⟨t, e, (step_of_busy h.cfgWf hbusy).trans hpass, hlog, (passFrame_passStep hpass).fb, hout⟩

end Sys2Proof.Machine
end

section
/-! PROOFS. The lines, `OUT` and the output word, signal by signal (rules R14, R66 to R69). -/

namespace Sys2Proof

@[simp] theorem Level.toBool_ofBool (b : Bool) : (Level.ofBool b).toBool = b := by cases b <;> rfl

@[simp] theorem Level.ofBool_decide_high (l : Level) : Level.ofBool (decide (l = .high)) = l := by cases l <;> rfl

@[simp] theorem Config.electrical_senseOf (cfg : Config) (l : Level) : cfg.electrical (cfg.senseOf l) = l := by
  cases l <;> cases hon : cfg.oeOnLevel <;> simp [Config.senseOf, Config.electrical, Level.other, hon]

end Sys2Proof

namespace Sys2Proof.Machine

/-! One line. -/

@[simp] theorem Lines.get_set_same (ls : Lines) (sig : Signal) (l : Level) : (ls.set sig l).get sig = l := by
  cases sig <;> rfl

theorem Lines.get_set_other (ls : Lines) {sig sig' : Signal} (l : Level) (h : sig' ≠ sig) :
    (ls.set sig l).get sig' = ls.get sig' := by
  cases sig <;> cases sig' <;> first | rfl | exact absurd rfl h

theorem Lines.ext_get {ls ls' : Lines} (h : ∀ sig, ls.get sig = ls'.get sig) : ls = ls' := by
  cases ls
  cases ls'
  simp only [Lines.mk.injEq]
  exact ⟨h .r1, h .g1, h .b1, h .r2, h .g2, h .b2, h .a, h .b, h .c, h .d, h .f, h .clk, h .lat, h .oe⟩

@[simp] theorem Out.level_put_same (cfg : Config) (o : Out) (sig : Signal) (l : Level) :
    (o.put cfg sig l).level cfg sig = some l := by
  cases sig <;> simp [Out.put, Out.level]

theorem Out.level_put_other (cfg : Config) (o : Out) {sig sig' : Signal} (l : Level) (h : sig' ≠ sig) :
    (o.put cfg sig l).level cfg sig' = o.level cfg sig' := by
  cases sig <;> cases sig' <;> first | rfl | exact absurd rfl h

/-! Several lines. -/

theorem Lines.get_foldl_set (level : Signal → Level) (sigs : List Signal) (ls : Lines) (sig : Signal) :
    (sigs.foldl (fun acc x => acc.set x (level x)) ls).get sig = if sig ∈ sigs then level sig else ls.get sig := by
  induction sigs generalizing ls with
  | nil => simp
  | cons x sigs ih =>
    rw [List.foldl_cons, ih]
    by_cases hx : sig = x
    · simp [hx]
    · simp [hx, Lines.get_set_other ls _ hx]

theorem Out.level_foldl_put (cfg : Config) (level : Signal → Level) (sigs : List Signal) (o : Out) (sig : Signal) :
    (sigs.foldl (fun acc x => acc.put cfg x (level x)) o).level cfg sig
      = if sig ∈ sigs then some (level sig) else o.level cfg sig := by
  induction sigs generalizing o with
  | nil => simp
  | cons x sigs ih =>
    rw [List.foldl_cons, ih]
    by_cases hx : sig = x
    · simp [hx]
    · simp [hx, Out.level_put_other cfg o _ hx]

/-- Some lines take levels, one after the other. -/
def Lines.drive (ls : Lines) (vs : List (Signal × Level)) : Lines := vs.foldl (fun acc p => acc.set p.1 p.2) ls

theorem Lines.get_drive {vs : List (Signal × Level)} (hnodup : (vs.map Prod.fst).Nodup) (ls : Lines) (sig : Signal) :
    (ls.drive vs).get sig = (vs.lookup sig).getD (ls.get sig) := by
  induction vs generalizing ls with
  | nil => rfl
  | cons p vs ih =>
    obtain ⟨x, l⟩ := p
    obtain ⟨hx, hrest⟩ : x ∉ vs.map Prod.fst ∧ (vs.map Prod.fst).Nodup := List.nodup_cons.mp hnodup
    refine (ih hrest (ls.set x l)).trans ?_
    by_cases hsig : sig = x
    · subst hsig
      have hnone : vs.lookup sig = none := by
        refine List.lookup_eq_none_iff.mpr fun q hq => bne_iff_ne.mpr fun hsame => hx ?_
        rw [hsame]
        exact List.mem_map_of_mem hq
      simp [hnone]
    · rw [List.lookup_cons, beq_false_of_ne hsig, Lines.get_set_other ls l hsig]

theorem Lines.get_drive_of_notMem {vs : List (Signal × Level)} {sig : Signal} (h : ∀ p ∈ vs, p.1 ≠ sig) (ls : Lines) :
    (ls.drive vs).get sig = ls.get sig := by
  induction vs generalizing ls with
  | nil => rfl
  | cons p vs ih =>
    exact (ih (fun q hq => h q (List.mem_cons_of_mem _ hq)) (ls.set p.1 p.2)).trans
      (Lines.get_set_other ls p.2 (h p List.mem_cons_self).symm)

/-! The parallel port, where `OUT` remembers the lines. -/

/-- On the parallel port `OUT` remembers the level of every line. -/
def Out.Tracks (cfg : Config) (o : Out) (ls : Lines) : Prop :=
  cfg.variant = .word → ∀ sig ∈ cfg.signals, o.level cfg sig = some (ls.get sig)

section
variable {cfg : Config} {o : Out} {ls : Lines} {vs : List (Signal × Level)}

/-- The next output word holds the levels of the lines with the named ones replaced (rule R69). -/
theorem wordLevel_eq_get_drive (hnodup : (vs.map Prod.fst).Nodup) {sig : Signal}
    (hlevel : o.level cfg sig = some (ls.get sig)) : wordLevel cfg o vs sig = (ls.drive vs).get sig := by
  rw [Lines.get_drive hnodup, wordLevel, hlevel]
  cases vs.lookup sig <;> rfl

/-- An output word drives the named lines and leaves the others (rules R67, R69). -/
theorem Lines.after_composeWord (hpos : cfg.bitposOk = true) (hnodup : (vs.map Prod.fst).Nodup)
    (hmapped : ∀ p ∈ vs, p.1 ∈ cfg.signals) (hlevels : ∀ sig ∈ cfg.signals, o.level cfg sig = some (ls.get sig)) :
    ls.after cfg (.ww (composeWord cfg o vs)) = ls.drive vs := by
  refine Lines.ext_get fun sig => ?_
  rw [Lines.after, Lines.get_foldl_set]
  split
  · rename_i hsig
    rw [composeWord_testBit_mapped hpos o vs hsig, Level.ofBool_decide_high,
      wordLevel_eq_get_drive hnodup (hlevels sig hsig)]
  · rename_i hsig
    exact (Lines.get_drive_of_notMem (fun p hp hsame => hsig (by simpa [hsame] using hmapped p hp)) ls).symm

theorem tracks_outAfterWord (hnodup : (vs.map Prod.fst).Nodup)
    (hlevels : ∀ sig ∈ cfg.signals, o.level cfg sig = some (ls.get sig)) :
    (outAfterWord cfg o vs).Tracks cfg (ls.drive vs) := by
  intro _ sig hsig
  rw [outAfterWord, Out.level_foldl_put, if_pos hsig, wordLevel_eq_get_drive hnodup (hlevels sig hsig)]

end

end Sys2Proof.Machine
end

section
/-! PROOFS. What acts do to the panel of the observer, in either port variant (rules R72, R142). -/

namespace Sys2Proof.Machine

/-- The panel after its lines took the levels `ls` at once. -/
def Panel.withLines (cfg : Config) (kind : LatchKind) (p : Panel) (ls : Lines) : Panel :=
  let shift := if clockRises p.lines ls then p.shift.clock cfg.fbCols ls else p.shift
  { lines := ls, shift := shift, latched := if latchLoads kind p.lines ls then shift else p.latched }

theorem Panel.after_eq_withLines (cfg : Config) (kind : LatchKind) (p : Panel) (e : Event) :
    p.after cfg kind e = p.withLines cfg kind (p.lines.after cfg e) := rfl

theorem clockRises_of_clk_eq {old new : Lines} (h : new.clk = old.clk) : clockRises old new = false := by
  cases hold : old.clk <;> simp [clockRises, h, hold]

/-- A latch that keeps its level loads the output stage only where the high level does. -/
theorem latchLoads_of_lat_eq (kind : LatchKind) {old new : Lines} (h : new.lat = old.lat) :
    latchLoads kind old new = (kind == .levelHigh && old.lat == .high) := by
  cases kind <;> cases hold : old.lat <;> simp [latchLoads, h, hold]

/-- Lines other than the clock and the latch may change one after the other or at once. -/
theorem Panel.withLines_withLines {cfg : Config} {kind : LatchKind} {p : Panel} {ls ls' : Lines}
    (hclk : ls.clk = p.lines.clk) (hlat : ls.lat = p.lines.lat) (hclk' : ls'.clk = ls.clk) (hlat' : ls'.lat = ls.lat) :
    (p.withLines cfg kind ls).withLines cfg kind ls' = p.withLines cfg kind ls' := by
  simp only [Panel.withLines, clockRises_of_clk_eq hclk, clockRises_of_clk_eq hclk',
    clockRises_of_clk_eq (hclk'.trans hclk), latchLoads_of_lat_eq kind hlat, latchLoads_of_lat_eq kind hlat',
    latchLoads_of_lat_eq kind (hlat'.trans hlat), hlat]
  cases kind == .levelHigh && p.lines.lat == .high <;> rfl

/-- The panel after one act, with no port between. -/
def Panel.act (cfg : Config) (kind : LatchKind) (p : Panel) : Act → Panel
  | .set vs => p.withLines cfg kind (p.lines.drive vs)
  | .wait _ => p.withLines cfg kind p.lines

/-- A group of signals that exist, each named once: one signal, or several that are neither clock nor latch. It does not
matter to the panel whether such a group is driven at once or line by line. -/
structure Panel.Group (cfg : Config) (vs : List (Signal × Level)) : Prop where
  nodup : (vs.map Prod.fst).Nodup
  mapped : ∀ p ∈ vs, p.1 ∈ cfg.signals
  noEdge : (∃ p, vs = [p]) ∨ vs ≠ [] ∧ ∀ p ∈ vs, p.1 ≠ .clk ∧ p.1 ≠ .lat

theorem Panel.group_single {cfg : Config} {sig : Signal} (h : sig ∈ cfg.signals) (l : Level) :
    Panel.Group cfg [(sig, l)] :=
  ⟨by simp, by simpa using h, .inl ⟨_, rfl⟩⟩

/-- Every group an act drives is one the ports may split. -/
def Act.Splits (cfg : Config) : Act → Prop
  | .set vs => Panel.Group cfg vs
  | .wait _ => True

/-- Line by line is at once, for a group with neither clock nor latch. -/
theorem Panel.observe_writes {cfg : Config} {kind : LatchKind} {vs : List (Signal × Level)} {p : Panel} (hne : vs ≠ [])
    (hvs : ∀ v ∈ vs, v.1 ≠ .clk ∧ v.1 ≠ .lat) :
    p.observe cfg kind (vs.map fun v => .w v.1 v.2) = p.act cfg kind (.set vs) := by
  induction vs generalizing p with
  | nil => exact absurd rfl hne
  | cons v vs ih =>
    cases vs with
    | nil => rfl
    | cons v' vs =>
      obtain ⟨hclk, hlat⟩ := hvs v List.mem_cons_self
      have hrest : ∀ x ∈ v' :: vs, x.1 ≠ .clk ∧ x.1 ≠ .lat := fun x hx => hvs x (List.mem_cons_of_mem _ hx)
      refine (ih (p := p.after cfg kind (.w v.1 v.2)) (List.cons_ne_nil _ _) hrest).trans ?_
      exact Panel.withLines_withLines (Lines.get_set_other _ _ hclk.symm) (Lines.get_set_other _ _ hlat.symm)
        (Lines.get_drive_of_notMem (fun x hx => (hrest x hx).1) _)
        (Lines.get_drive_of_notMem (fun x hx => (hrest x hx).2) _)

theorem emit_append (cfg : Config) (o : Out) (as bs : List Act) :
    emit cfg o (as ++ bs) = emit cfg o as ++ emit cfg (outAfterActs cfg o as) bs := by
  induction as generalizing o with
  | nil => rfl
  | cons a as ih => exact congrArg _ (ih _)

/-- On discrete lines a group is one write per line (rule R142). -/
theorem emit_split_pins {cfg : Config} (hv : cfg.variant = .pins) (o : Out) (vs : List (Signal × Level)) :
    emit cfg o (vs.map fun p => .set [p]) = vs.map fun p => .w p.1 p.2 := by
  induction vs generalizing o with
  | nil => rfl
  | cons v vs ih => simp [emit, ih, Act.event, hv]

section
variable {cfg : Config} {kind : LatchKind} {o : Out} {p : Panel}

/-- The panel sees the events of one act as the act, and `OUT` keeps track of the lines. -/
theorem Panel.observe_act (hw : cfg.wf = true) (htrack : o.Tracks cfg p.lines) {a : Act} (ha : a.Splits cfg) :
    p.observe cfg kind (emit cfg o (a.split cfg)) = p.act cfg kind a
      ∧ (outAfterActs cfg o (a.split cfg)).Tracks cfg (p.act cfg kind a).lines := by
  cases a with
  | wait us => exact ⟨rfl, htrack⟩
  | set vs =>
    obtain ⟨hnodup, hmapped, hedge⟩ := ha
    cases hv : cfg.variant with
    | pins =>
      refine ⟨?_, fun hword => nomatch hv.symm.trans hword⟩
      simp only [Act.split, hv, emit_split_pins hv]
      rcases hedge with ⟨v, rfl⟩ | ⟨hne, hvs⟩
      · rfl
      · exact Panel.observe_writes hne hvs
    | word =>
      obtain ⟨-, -, -, -, -, hpos, -⟩ := Config.wf_parts hw
      have hlevels := htrack hv
      have hlines := Lines.after_composeWord (hpos hv) hnodup hmapped hlevels
      constructor
      · simp only [Act.split, hv, emit, Act.event, Panel.observe, List.foldl_cons, List.foldl_nil,
          Panel.after_eq_withLines, hlines, Panel.act]
      · simp only [Act.split, hv, outAfterActs, List.foldl_cons, List.foldl_nil, Act.outAfter]
        exact tracks_outAfterWord hnodup hlevels

/-- The panel sees the events of a list of acts as the acts. -/
theorem Panel.observe_acts (hw : cfg.wf = true) {as : List Act} (has : ∀ a ∈ as, a.Splits cfg)
    (htrack : o.Tracks cfg p.lines) :
    p.observe cfg kind (emit cfg o (portActs cfg as)) = as.foldl (Panel.act cfg kind) p := by
  induction as generalizing o p with
  | nil => rfl
  | cons a as ih =>
    obtain ⟨hact, htrack'⟩ := Panel.observe_act (kind := kind) hw htrack (has a List.mem_cons_self)
    have hrest := ih (fun b hb => has b (List.mem_cons_of_mem _ hb)) htrack'
    rw [List.foldl_cons, ← hrest, ← hact]
    simp only [portActs, List.flatMap_cons, emit_append, Panel.observe, List.foldl_append]

end

end Sys2Proof.Machine
end

section
/-! PROOFS. A scanned row on the panel of the observer (rules R52, R72, R146 to R153). -/

namespace Sys2Proof.Machine

/-! Every group of a scanned row may be split by the port. -/

theorem columnActs_splits (s : State) (lit : Byte → Bool) (row col : Nat) :
    ∀ a ∈ columnActs s lit row col, a.Splits s.cfg := by
  intro a ha
  simp only [columnActs, List.mem_cons, List.not_mem_nil, or_false] at ha
  rcases ha with rfl | rfl | rfl
  · exact ⟨by simp, by simp [Config.signals], .inr (by simp)⟩
  · exact Panel.group_single (clk_mem_signals s.cfg) _
  · exact Panel.group_single (clk_mem_signals s.cfg) _

theorem rowAddress_group (cfg : Config) (row : Nat) : Panel.Group cfg (rowAddress cfg row) := by
  unfold rowAddress
  split
  · rename_i h32
    exact ⟨by simp, by simp [Config.signals, Config.hasF, h32], .inr (by simp)⟩
  · exact ⟨by simp, by simp [Config.signals], .inr (by simp)⟩

theorem commitActs_splits (cfg : Config) (row : Nat) : ∀ a ∈ commitActs cfg row, a.Splits cfg := by
  intro a ha
  simp only [commitActs, List.mem_cons, List.not_mem_nil, or_false] at ha
  rcases ha with rfl | rfl | rfl | rfl | rfl | rfl | rfl | rfl
  · exact Panel.group_single (oe_mem_signals cfg) _
  · trivial
  · exact Panel.group_single (lat_mem_signals cfg) _
  · trivial
  · exact Panel.group_single (lat_mem_signals cfg) _
  · exact rowAddress_group cfg row
  · trivial
  · exact Panel.group_single (oe_mem_signals cfg) _

theorem rowActs_splits (s : State) (lit : Byte → Bool) (row : Nat) : ∀ a ∈ rowActs s lit row, a.Splits s.cfg := by
  intro a ha
  rcases List.mem_append.mp ha with ha | ha
  · obtain ⟨col, -, ha⟩ := List.mem_flatMap.mp ha
    exact columnActs_splits s lit row col a ha
  · exact commitActs_splits s.cfg row a ha

/-! The shift registers. -/

/-- The data lines with the field each carries (rules R55, R145). -/
def dataFields : List (Signal × Field) :=
  [(.r1, .rTop), (.g1, .gTop), (.b1, .bTop), (.r2, .rBot), (.g2, .gBot), (.b2, .bBot)]

/-- The clock and the latch of a panel between two columns of a row, and its registers: column `n - 1` was shifted
last and stands first. -/
structure Panel.Shifted (s : State) (lit : Byte → Bool) (row n : Nat) (lat : Level) (p : Panel) : Prop where
  clk : p.lines.clk = .low
  lat : p.lines.lat = lat
  bits : ∀ d ∈ dataFields, ∀ col < n, (p.shift.get d.1).getD (n - 1 - col) false = lit (s.readField row col d.2)

/-- One column makes one rising clock edge, with the column's bits on the data lines. -/
theorem Panel.act_column (s : State) (lit : Byte → Bool) (row col : Nat) (kind : LatchKind) {p q : Panel}
    (hq : q = (columnActs s lit row col).foldl (Panel.act s.cfg kind) p) (hclk : p.lines.clk = .low) :
    q.lines.clk = .low ∧ q.lines.lat = p.lines.lat
      ∧ ∀ d ∈ dataFields,
          q.shift.get d.1 = (lit (s.readField row col d.2) :: p.shift.get d.1).take s.cfg.rowLength := by
  subst hq
  simp [columnActs, Panel.act, Panel.withLines, Lines.drive, Lines.set, clockRises, hclk, dataFields, Chains.get,
    Chains.clock, shiftBit, Config.fbCols]

theorem Panel.Shifted.column {s : State} {lit : Byte → Bool} {row n : Nat} {lat : Level} {p : Panel}
    (h : p.Shifted s lit row n lat) (hn : n < s.cfg.rowLength) (kind : LatchKind) :
    ((columnActs s lit row n).foldl (Panel.act s.cfg kind) p).Shifted s lit row (n + 1) lat := by
  obtain ⟨hclk, hlat, hshift⟩ := Panel.act_column s lit row n kind rfl h.clk
  refine ⟨hclk, hlat.trans h.lat, fun d hd col hcol => ?_⟩
  rw [hshift d hd, List.getD_eq_getElem?_getD, List.getElem?_take_of_lt (by omega), Nat.add_sub_cancel]
  rcases Nat.lt_succ_iff_lt_or_eq.mp hcol with hlt | rfl
  · have hbit := h.bits d hd col hlt
    rw [List.getD_eq_getElem?_getD] at hbit
    rw [show n - col = n - 1 - col + 1 by omega, List.getElem?_cons_succ, hbit]
  · simp

/-- The columns of a row, by induction on how many are shifted. -/
theorem Panel.shifted_columns (s : State) (lit : Byte → Bool) (row : Nat) (kind : LatchKind) {p : Panel}
    (hclk : p.lines.clk = .low) {n : Nat} (hn : n ≤ s.cfg.rowLength) :
    (((List.range n).flatMap fun col => columnActs s lit row col).foldl (Panel.act s.cfg kind) p).Shifted
      s lit row n p.lines.lat := by
  induction n with
  | zero => exact ⟨hclk, rfl, by simp⟩
  | succ n ih =>
    rw [List.range_succ, List.flatMap_append, List.foldl_append, List.flatMap_singleton]
    exact (ih (Nat.le_of_succ_le hn)).column hn kind

/-! The commit. -/

/-- The address lines spell the row in binary (rule R152). -/
theorem selectedRow_of_rowAddress {cfg : Config} (hw : cfg.wf = true) {row : Nat} (hrow : row < cfg.scanRows) {q : Panel}
    {ls : Lines} (hq : q.lines = (ls.drive (rowAddress cfg row)).set .oe (cfg.electrical .on)) :
    q.selectedRow cfg = row := by
  have h16 : ∀ n < 16, (n.testBit 0).toNat + 2 * (n.testBit 1).toNat + 4 * (n.testBit 2).toNat
      + 8 * (n.testBit 3).toNat = n := by decide
  have h32 : ∀ n < 32, (n.testBit 0).toNat + 2 * (n.testBit 1).toNat + 4 * (n.testBit 2).toNat
      + 8 * (n.testBit 3).toNat + 16 * (n.testBit 4).toNat = n := by decide
  obtain ⟨hrows | hrows, -⟩ := Config.wf_parts hw
  · simpa [Panel.selectedRow, hq, rowAddress, hrows, Config.hasF, Lines.drive, Lines.set] using
      h16 row (hrows ▸ hrow)
  · simpa [Panel.selectedRow, hq, rowAddress, hrows, Config.hasF, Lines.drive, Lines.set] using
      h32 row (hrows ▸ hrow)

/-- A commit leaves the lines with the row's address and output on. -/
theorem Panel.commit_lines (cfg : Config) (kind : LatchKind) (row : Nat) (p : Panel) :
    ((commitActs cfg row).foldl (Panel.act cfg kind) p).lines
      = ((((p.lines.set .oe (cfg.electrical .off)).set .lat .low).set .lat .high).drive (rowAddress cfg row)).set .oe
          (cfg.electrical .on) := rfl

/-- A commit moves no clock, and loads the output stage whichever edge or level of the latch does: the falling one if
the latch was high before. -/
theorem Panel.commit_latched (cfg : Config) (kind : LatchKind) (row : Nat) {p : Panel} (hclk : p.lines.clk = .low)
    (hlat : kind = .falling → p.lines.lat = .high) :
    ((commitActs cfg row).foldl (Panel.act cfg kind) p).latched = p.shift := by
  have haddr : ∀ ls : Lines, (ls.drive (rowAddress cfg row)).clk = ls.clk ∧ (ls.drive (rowAddress cfg row)).lat = ls.lat := by
    intro ls
    unfold rowAddress
    split <;> exact ⟨rfl, rfl⟩
  have hone : ∀ (ls : Lines) (x : Signal) (l : Level), ls.drive [(x, l)] = ls.set x l := fun _ _ _ => rfl
  cases kind <;>
    simp [commitActs, Panel.act, Panel.withLines, clockRises, latchLoads, hone, Lines.set, haddr, hclk, hlat]

/-- Settles O46: the columns fill the registers, the commit loads the output stage from them. -/
theorem scannedRowReachesThePanel : Obligations.ScannedRowReachesThePanel := by
  intro s lit row p kind hw hrow htrack hclk hlat
  refine ⟨_, rfl, ?_⟩
  rw [Panel.observe_acts hw (rowActs_splits s lit row) htrack, rowActs, List.foldl_append]
  have hshifted := Panel.shifted_columns s lit row kind hclk (Nat.le_refl s.cfg.rowLength)
  have hlatched := Panel.commit_latched s.cfg kind row hshifted.clk fun hk => hshifted.lat.trans (hlat hk)
  refine ⟨selectedRow_of_rowAddress hw hrow (Panel.commit_lines s.cfg kind row _), ?_, fun col hcol => ?_⟩
  · rw [Panel.commit_lines]; rfl
  · simp only [Panel.latchedBit, hlatched, Config.fbCols]
    have hbits := fun d hd => hshifted.bits d hd col hcol
    simpa [dataFields] using hbits

end Sys2Proof.Machine
end

section
/-! PROOFS. The decoder and the encoder (rules R81, R82, R84 to R86). -/

namespace Sys2Proof

/-! A word that matches a row of the table (rule R84). -/

theorem TableRow.matches_iff {row : TableRow} {cw : PortWord} :
    row.matches cw = true ↔ cw &&& row.mask = row.pattern := by
  simp [TableRow.matches]

/-- Where a row's mask is all ones, a matching word has the bits of the row's pattern. -/
theorem TableRow.extractLsb'_of_matches {row : TableRow} {cw : PortWord} (h : cw &&& row.mask = row.pattern)
    (start len : Nat) (hmask : row.mask.extractLsb' start len = BitVec.allOnes len) :
    row.pattern.extractLsb' start len = cw.extractLsb' start len := by
  rw [← h, BitVec.extractLsb'_and, hmask, BitVec.and_allOnes]

theorem opcodeField_of_matches {cw : PortWord} {row : TableRow} (hrow : row ∈ opcodeTable)
    (h : cw &&& row.mask = row.pattern) : opcodeField row.pattern = opcodeField cw := by
  have hmask : ∀ row ∈ opcodeTable, row.mask.extractLsb' 56 8 = BitVec.allOnes 8 := by decide
  exact TableRow.extractLsb'_of_matches h 56 8 (hmask row hrow)

theorem knownOpcode_of_matches {cw : PortWord} {row : TableRow} (hrow : row ∈ opcodeTable)
    (h : cw &&& row.mask = row.pattern) : knownOpcode (opcodeField cw) = true := by
  have hknown : ∀ row ∈ opcodeTable, knownOpcode (opcodeField row.pattern) = true := by decide
  rw [← opcodeField_of_matches hrow h]
  exact hknown row hrow

/-- Settles O4: the two rows have the word's opcode, and no two rows of the table have one opcode. -/
theorem tableRowsDoNotOverlap : Obligations.TableRowsDoNotOverlap := by
  intro cw row hrow row' hrow' h h'
  have hopcodes : ∀ row ∈ opcodeTable, ∀ row' ∈ opcodeTable,
      opcodeField row.pattern = opcodeField row'.pattern → row = row' := by decide
  exact hopcodes row hrow row' hrow' ((opcodeField_of_matches hrow h).trans (opcodeField_of_matches hrow' h').symm)

/-! What a word decodes to (rules R84 to R86). -/

/-- The row the decoder finds is the row the word matches, because there is only one. -/
theorem decode_of_matches {cw : PortWord} {row : TableRow} (hrow : row ∈ opcodeTable)
    (h : cw &&& row.mask = row.pattern) : decode cw = .ok (operandsOf cw row.mnemonic) := by
  have hfind : opcodeTable.find? (fun row => row.matches cw) = some row := by
    cases hfound : opcodeTable.find? (fun row => row.matches cw) with
    | none => exact absurd (TableRow.matches_iff.mpr h) (List.find?_eq_none.mp hfound row hrow)
    | some row' =>
      have hmatch : cw &&& row'.mask = row'.pattern :=
        TableRow.matches_iff.mp (List.find?_some (p := (TableRow.matches · cw)) hfound)
      rw [tableRowsDoNotOverlap cw row' (List.mem_of_find?_eq_some hfound) row hrow hmatch h]
  simp [decode, hfind]

theorem decode_of_no_row {cw : PortWord} (h : ∀ row ∈ opcodeTable, cw &&& row.mask ≠ row.pattern) :
    decode cw = .error (if knownOpcode (opcodeField cw) then .reservedField else .unknownOpcode) := by
  have hfind : opcodeTable.find? (fun row => row.matches cw) = none :=
    List.find?_eq_none.mpr fun row hrow hmatch => h row hrow (TableRow.matches_iff.mp hmatch)
  simp only [decode, hfind]
  split <;> rfl

/-- The decoder's two cases. -/
theorem matches_or_no_row (cw : PortWord) :
    (∃ row ∈ opcodeTable, cw &&& row.mask = row.pattern) ∨ ∀ row ∈ opcodeTable, cw &&& row.mask ≠ row.pattern := by
  simpa using Classical.em (∃ row ∈ opcodeTable, cw &&& row.mask = row.pattern)

theorem matches_of_decode_ok {cw : PortWord} {i : Instr} (h : decode cw = .ok i) :
    ∃ row ∈ opcodeTable, cw &&& row.mask = row.pattern ∧ operandsOf cw row.mnemonic = i := by
  obtain ⟨row, hrow, hmatch⟩ | hno := matches_or_no_row cw
  · rw [decode_of_matches hrow hmatch] at h
    exact ⟨row, hrow, hmatch, Except.ok.inj h⟩
  · rw [decode_of_no_row hno] at h
    cases h

theorem knownOpcode_iff {op : Byte} : knownOpcode op = true ↔ 1 ≤ op.toNat ∧ op.toNat ≤ 7 := by
  simp [knownOpcode]

/-- The opcodes of rule R86 are those outside the table. -/
theorem knownOpcode_eq_false_iff {op : Byte} : knownOpcode op = false ↔ op.toNat = 0 ∨ 8 ≤ op.toNat := by
  rw [← Bool.not_eq_true, knownOpcode_iff]
  omega

theorem decode_eq_unknownOpcode_iff {cw : PortWord} :
    decode cw = .error .unknownOpcode ↔ knownOpcode (opcodeField cw) = false := by
  obtain ⟨row, hrow, hmatch⟩ | hno := matches_or_no_row cw
  · simp [decode_of_matches hrow hmatch, knownOpcode_of_matches hrow hmatch]
  · simp [decode_of_no_row hno]

theorem decode_eq_reservedField_iff {cw : PortWord} :
    decode cw = .error .reservedField ↔
      knownOpcode (opcodeField cw) = true ∧ ∀ row ∈ opcodeTable, cw &&& row.mask ≠ row.pattern := by
  obtain ⟨row, hrow, hmatch⟩ | hno := matches_or_no_row cw
  · simp only [decode_of_matches hrow hmatch, reduceCtorEq, false_iff]
    exact fun ⟨_, hno⟩ => hno row hrow hmatch
  · rw [and_iff_left hno]
    simp [decode_of_no_row hno]

/-- Settles O5: a word that matches a row has a known opcode; of the others the opcode gives the reason. -/
theorem illegalWordsByReason : Obligations.IllegalWordsByReason := fun _ =>
  ⟨decode_eq_unknownOpcode_iff.trans knownOpcode_eq_false_iff,
    decode_eq_reservedField_iff.trans (and_congr_left' knownOpcode_iff)⟩

/-! Signed operands (rules R11, R82). -/

theorem fitsS16_iff {v : Int} : fitsS16 v = true ↔ -32768 ≤ v ∧ v ≤ 32767 := by
  simp [fitsS16]

theorem toInt_ofInt_of_fitsS16 {v : Int} (h : fitsS16 v = true) : (BitVec.ofInt 16 v).toInt = v := by
  obtain ⟨hlo, hhi⟩ := fitsS16_iff.mp h
  exact BitVec.toInt_ofInt_eq_self (by decide) hlo (Int.lt_add_one_of_le hhi)

theorem fitsS16_toInt (v : BitVec 16) : fitsS16 v.toInt = true :=
  fitsS16_iff.mpr ⟨v.le_toInt, Int.le_of_lt_add_one v.toInt_lt⟩

/-! The fields of a word put together (rules R81, R82). -/

/-- The bits above a word's lowest field are those of the rest of the word. -/
theorem extractLsb'_append_above {m n : Nat} (hi : BitVec m) (lo : BitVec n) (start len : Nat) :
    (hi ++ lo).extractLsb' (start + n) len = hi.extractLsb' start len := by
  rw [BitVec.extractLsb'_append_eq_of_le (Nat.le_add_left n start), Nat.add_sub_cancel]

theorem bField_append (hi : BitVec 56) (b : Byte) : bField (hi ++ b : BitVec 64) = b :=
  BitVec.extractLsb'_append_eq_right

theorem gField_append (hi : BitVec 48) (g b : Byte) : gField (hi ++ g ++ b : BitVec 64) = g :=
  (extractLsb'_append_above (hi ++ g) b 0 8).trans BitVec.extractLsb'_append_eq_right

theorem rField_append (hi : BitVec 40) (r g b : Byte) : rField (hi ++ r ++ g ++ b : BitVec 64) = r :=
  calc rField (hi ++ r ++ g ++ b : BitVec 64)
    _ = (hi ++ r ++ g).extractLsb' 8 8 := extractLsb'_append_above _ b 8 8
    _ = (hi ++ r).extractLsb' 0 8 := extractLsb'_append_above _ g 0 8
    _ = r := BitVec.extractLsb'_append_eq_right

theorem yField_append (hi : BitVec 24) (y : BitVec 16) (r g b : Byte) :
    yField (hi ++ y ++ r ++ g ++ b : BitVec 64) = y.toInt :=
  congrArg BitVec.toInt <|
    calc (hi ++ y ++ r ++ g ++ b : BitVec 64).extractLsb' 24 16
      _ = (hi ++ y ++ r ++ g).extractLsb' 16 16 := extractLsb'_append_above _ b 16 16
      _ = (hi ++ y ++ r).extractLsb' 8 16 := extractLsb'_append_above _ g 8 16
      _ = (hi ++ y).extractLsb' 0 16 := extractLsb'_append_above _ r 0 16
      _ = y := BitVec.extractLsb'_append_eq_right

theorem xField_append (hi : Byte) (x y : BitVec 16) (r g b : Byte) :
    xField (hi ++ x ++ y ++ r ++ g ++ b : BitVec 64) = x.toInt :=
  congrArg BitVec.toInt <|
    calc (hi ++ x ++ y ++ r ++ g ++ b : BitVec 64).extractLsb' 40 16
      _ = (hi ++ x ++ y ++ r ++ g).extractLsb' 32 16 := extractLsb'_append_above _ b 32 16
      _ = (hi ++ x ++ y ++ r).extractLsb' 24 16 := extractLsb'_append_above _ g 24 16
      _ = (hi ++ x ++ y).extractLsb' 16 16 := extractLsb'_append_above _ r 16 16
      _ = (hi ++ x).extractLsb' 0 16 := extractLsb'_append_above _ y 0 16
      _ = x := BitVec.extractLsb'_append_eq_right

theorem baseField_append (hi : BitVec 48) (base : BitVec 16) : baseField (hi ++ base : BitVec 64) = base.toNat :=
  congrArg BitVec.toNat BitVec.extractLsb'_append_eq_right

/-! The word of a command (rules R81, R82, R84). -/

theorem encode_matches_row (i : Instr) : Laws.WordMatchesItsRow.Statement i := by
  cases i with
  | init bits => exact Laws.WordMatchesItsRow.init bits
  | wrpix x y r g b => exact Laws.WordMatchesItsRow.wrpix x y r g b
  | clear r g b => exact Laws.WordMatchesItsRow.clear r g b
  | clrd => exact Laws.WordMatchesItsRow.clrd
  | size => exact Laws.WordMatchesItsRow.size
  | pwm => exact Laws.WordMatchesItsRow.pwm
  | bcm base => exact Laws.WordMatchesItsRow.bcm base

/-- Every operand of a well-formed command is read back from its field of the word. -/
theorem operandsOf_encode {i : Instr} (hwf : i.wf = true) :
    operandsOf (encode i) (Laws.WordMatchesItsRow.row i).mnemonic = i := by
  cases i with
  | init bits => exact congrArg Instr.init (bField_append _ bits)
  | wrpix x y r g b =>
    obtain ⟨hx, hy⟩ : fitsS16 x = true ∧ fitsS16 y = true := by simpa [Instr.wf] using hwf
    refine (Instr.wrpix.injEq ..).mpr ⟨?_, ?_, rField_append _ r g b, gField_append _ g b, bField_append _ b⟩
    · exact (xField_append ..).trans (toInt_ofInt_of_fitsS16 hx)
    · exact (yField_append ..).trans (toInt_ofInt_of_fitsS16 hy)
  | clear r g b =>
    exact (Instr.clear.injEq ..).mpr ⟨rField_append _ r g b, gField_append _ g b, bField_append _ b⟩
  | clrd => rfl
  | size => rfl
  | pwm => rfl
  | bcm base =>
    have hbase : base < 2 ^ 16 := Nat.lt_succ_of_le (by simpa [Instr.wf] using hwf)
    exact congrArg Instr.bcm <| (baseField_append _ _).trans <|
      (BitVec.toNat_ofNat base 16).trans (Nat.mod_eq_of_lt hbase)

/-- Settles O2: the word matches the command's row, and the operands are read back from their fields. -/
theorem decodeOfEncode : Obligations.DecodeOfEncode := by
  intro i hwf
  obtain ⟨hrow, hmatch⟩ := encode_matches_row i
  rw [decode_of_matches hrow (TableRow.matches_iff.mp hmatch), operandsOf_encode hwf]

/-! The command of a word (rules R81, R82, R84). -/

theorem operandsOf_wf (cw : PortWord) (m : Mnemonic) : (operandsOf cw m).wf = true := by
  cases m with
  | wrpix =>
    have hx : fitsS16 (xField cw) = true := fitsS16_toInt _
    have hy : fitsS16 (yField cw) = true := fitsS16_toInt _
    simp [operandsOf, Instr.wf, hx, hy]
  | bcm => exact decide_eq_true (Nat.le_of_lt_succ (cw.extractLsb' 0 16).isLt)
  | init => rfl
  | clear => rfl
  | clrd => rfl
  | size => rfl
  | pwm => rfl

/-- A part of a word and the part just below it, put together. -/
theorem append_eq_extractLsb' (start n : Nat) {cw : PortWord} {m : Nat} {hi : BitVec m} {lo : BitVec n}
    (hhi : hi = cw.extractLsb' (start + n) m) (hlo : lo = cw.extractLsb' start n) :
    hi ++ lo = cw.extractLsb' start (m + n) := by
  rw [hhi, hlo, BitVec.extractLsb'_append_extractLsb'_eq_extractLsb' rfl]

/-- The parts of a word from its top bit to its lowest are the word. -/
theorem append_eq_word (m n : Nat) {cw : BitVec (m + n)} {hi : BitVec m} {lo : BitVec n}
    (hhi : hi = cw.extractLsb' n m) (hlo : lo = cw.extractLsb' 0 n) : hi ++ lo = cw := by
  rw [hhi, hlo, BitVec.extractLsb'_append_extractLsb'_eq_extractLsb' (Nat.zero_add n).symm, BitVec.extractLsb'_eq_self]

/-- The colour fields complete a word (the formats of WRPIX and CLEAR, rule R81). -/
theorem append_rgb_eq_word {cw : PortWord} {hi : BitVec 40} (hhi : hi = cw.extractLsb' 24 40) :
    (hi ++ rField cw ++ gField cw ++ bField cw : BitVec 64) = cw :=
  append_eq_word 56 8 (append_eq_extractLsb' 8 8 (append_eq_extractLsb' 16 8 hhi rfl) rfl) rfl

/-- A word that matches a row is the word of the command its operands give: the opcode and the reserved fields are those
of the row's pattern, and the parts together are the word. -/
theorem encode_operandsOf {cw : PortWord} {row : TableRow} (hrow : row ∈ opcodeTable)
    (h : cw &&& row.mask = row.pattern) : encode (operandsOf cw row.mnemonic) = cw := by
  have hop := opcodeField_of_matches hrow h
  have hreserved := TableRow.extractLsb'_of_matches h
  simp only [opcodeTable, List.mem_cons, List.not_mem_nil, or_false] at hrow
  obtain hinit | hwrpix | hclear | hclrd | hsize | hpwm | hbcm := hrow
  · subst hinit
    exact append_eq_word 56 8 (append_eq_extractLsb' 8 48 hop (hreserved 8 48 rfl)) rfl
  · subst hwrpix
    have hx : BitVec.ofInt 16 (xField cw) = cw.extractLsb' 40 16 := BitVec.ofInt_toInt
    have hy : BitVec.ofInt 16 (yField cw) = cw.extractLsb' 24 16 := BitVec.ofInt_toInt
    exact append_rgb_eq_word (append_eq_extractLsb' 24 16 (append_eq_extractLsb' 40 16 hop hx) hy)
  · subst hclear
    exact append_rgb_eq_word (append_eq_extractLsb' 24 32 hop (hreserved 24 32 rfl))
  · subst hclrd
    exact append_eq_word 8 56 hop (hreserved 0 56 rfl)
  · subst hsize
    exact append_eq_word 8 56 hop (hreserved 0 56 rfl)
  · subst hpwm
    exact append_eq_word 8 56 hop (hreserved 0 56 rfl)
  · subst hbcm
    have hbase : BitVec.ofNat 16 (baseField cw) = cw.extractLsb' 0 16 :=
      (BitVec.ofNat_toNat 16 _).trans (BitVec.setWidth_eq _)
    exact append_eq_word 48 16 (append_eq_extractLsb' 16 40 hop (hreserved 16 40 rfl)) hbase

/-- Settles O3: the word matches a row, and the operands read from it give the word back. -/
theorem encodeOfDecode : Obligations.EncodeOfDecode := by
  intro cw i hd
  obtain ⟨row, hrow, hmatch, rfl⟩ := matches_of_decode_ok hd
  exact ⟨operandsOf_wf cw row.mnemonic, encode_operandsOf hrow hmatch⟩

end Sys2Proof

namespace Sys2Proof.Machine

/-- Settles O7: the word decodes to no command, so the step answers it with the error alone. -/
theorem illegalWordChangesNothing : Obligations.IllegalWordChangesNothing := by
  intro s cw rest hw hm hp hno
  rw [step_of_decode_error hw hm hp (decode_of_no_row hno), raise_of_ne (by decide)]
  rfl

end Sys2Proof.Machine
end

section
/-! PROOFS. Where the mapper puts a pixel (rules R113, R114, R116, R117). -/

namespace Sys2Proof.Machine

theorem inBounds_iff (cfg : Config) (x y : Int) :
    inBounds cfg x y = true ↔ 0 ≤ x ∧ x < cfg.width ∧ 0 ≤ y ∧ y < cfg.height := by
  simp only [inBounds, Bool.and_eq_true, decide_eq_true_eq, and_assoc]

/-- Natural coordinates are never negative. -/
theorem inBounds_natCast_iff (cfg : Config) (x y : Nat) :
    inBounds cfg x y = true ↔ x < cfg.width ∧ y < cfg.height := by
  rw [inBounds_iff]
  omega

/-! Without stripe multiplexing. -/

theorem mod_eq_sub_of_lt_two_mul {n y : Nat} (hle : n ≤ y) (hlt : y < 2 * n) : y % n = y - n := by
  rw [Nat.mod_eq_sub_mod hle, Nat.mod_eq_of_lt (by omega)]

theorem mapPixel_plain {cfg : Config} (hplain : cfg.stripeMux = false) (x y : Nat) :
    mapPixel cfg x y = ⟨y % cfg.scanRows, x, if y < cfg.scanRows then .top else .bot⟩ := by
  simp [mapPixel, hplain, mapPlain]

theorem mapPixel_plain_top {cfg : Config} (hplain : cfg.stripeMux = false) (x : Nat) {y : Nat}
    (hy : y < cfg.scanRows) : mapPixel cfg x y = ⟨y, x, .top⟩ := by
  rw [mapPixel_plain hplain, if_pos hy, Nat.mod_eq_of_lt hy]

theorem mapPixel_plain_bot {cfg : Config} (hplain : cfg.stripeMux = false) (x : Nat) {y : Nat}
    (hy : cfg.scanRows ≤ y) (hlast : y < 2 * cfg.scanRows) : mapPixel cfg x y = ⟨y - cfg.scanRows, x, .bot⟩ := by
  rw [mapPixel_plain hplain, if_neg (Nat.not_lt.mpr hy), mod_eq_sub_of_lt_two_mul hy hlast]

theorem inBounds_plain_iff {cfg : Config} (hplain : cfg.stripeMux = false) (x y : Nat) :
    inBounds cfg x y = true ↔ x < cfg.rowLength ∧ y < 2 * cfg.scanRows := by
  simp [inBounds_natCast_iff, Config.width, Config.height, hplain]

/-- The logical row of a half-slot: the inverse of the non-multiplexed mapper. -/
def plainRow (cfg : Config) (row : Nat) : Half → Nat
  | .top => row
  | .bot => row + cfg.scanRows

theorem plainRow_lt {cfg : Config} {row : Nat} (hrow : row < cfg.scanRows) (half : Half) :
    plainRow cfg row half < 2 * cfg.scanRows := by
  cases half with
  | top => simp only [plainRow]; omega
  | bot => simp only [plainRow]; omega

theorem mapPixel_plainRow {cfg : Config} (hplain : cfg.stripeMux = false) {row : Nat} (hrow : row < cfg.scanRows)
    (col : Nat) (half : Half) : mapPixel cfg col (plainRow cfg row half) = ⟨row, col, half⟩ := by
  cases half with
  | top => exact mapPixel_plain_top hplain col hrow
  | bot =>
    rw [plainRow, mapPixel_plain_bot hplain col (by omega) (by omega), Nat.add_sub_cancel]

theorem plainRow_mapPixel {cfg : Config} (hplain : cfg.stripeMux = false) (x : Nat) {y : Nat}
    (hy : y < 2 * cfg.scanRows) : plainRow cfg (mapPixel cfg x y).row (mapPixel cfg x y).half = y := by
  by_cases htop : y < cfg.scanRows
  · rw [mapPixel_plain_top hplain x htop]
    rfl
  · rw [mapPixel_plain_bot hplain x (by omega) hy]
    exact Nat.sub_add_cancel (by omega)

/-- Settles O22: `plainRow` inverts the mapper. -/
theorem plainMapperIsBijective : Obligations.PlainMapperIsBijective := by
  intro cfg _ hplain row col half hrow hcol
  have hin := (inBounds_plain_iff hplain col _).mpr ⟨hcol, plainRow_lt hrow half⟩
  refine ⟨(col, plainRow cfg row half), ⟨hin, mapPixel_plainRow hplain hrow col half⟩, ?_⟩
  rintro ⟨x, y⟩ ⟨hin, hmap⟩
  obtain ⟨-, hy⟩ := (inBounds_plain_iff hplain x y).mp hin
  have hback := plainRow_mapPixel hplain x hy
  have hx : (mapPixel cfg x y).col = x := by rw [mapPixel_plain hplain]
  rw [hmap] at hback hx
  exact Prod.ext hx.symm hback.symm

/-! With stripe multiplexing. -/

theorem inBounds_mux_iff {cfg : Config} (hmux : cfg.stripeMux = true) (x y : Nat) :
    inBounds cfg x y = true ↔ x < cfg.rowLength / 2 ∧ y < 4 * cfg.scanRows := by
  simp [inBounds_natCast_iff, Config.width, Config.height, hmux]

/-- The place of a pixel in the two buffer stripes of its logical stripe: the upper one is for `is_top_half`
(rule R116). -/
def stripeOffset (cfg : Config) (x y : Nat) : Nat :=
  x % cfg.stripeW + if y % cfg.physScanRows < cfg.scanRows then cfg.stripeW else 0

theorem stripeOffset_lt {cfg : Config} (hstripe : 1 ≤ cfg.stripeW) (x y : Nat) :
    stripeOffset cfg x y < 2 * cfg.stripeW := by
  have hoffset := Nat.mod_lt x hstripe
  unfold stripeOffset
  split <;> omega

theorem stripeW_le_stripeOffset_iff {cfg : Config} (hstripe : 1 ≤ cfg.stripeW) (x y : Nat) :
    cfg.stripeW ≤ stripeOffset cfg x y ↔ y % cfg.physScanRows < cfg.scanRows := by
  have hoffset := Nat.mod_lt x hstripe
  unfold stripeOffset
  split <;> omega

theorem mapPixel_mux {cfg : Config} (hmux : cfg.stripeMux = true) (x y : Nat) :
    mapPixel cfg x y = ⟨y % cfg.scanRows,
      x + cfg.stripeW * (x / cfg.stripeW) + (if y % cfg.physScanRows < cfg.scanRows then cfg.stripeW else 0),
      if cfg.halfSplit < y % cfg.physScanRows then .top else .bot⟩ := by
  rw [mapPixel, if_pos hmux, mapMux]
  by_cases htop : y % cfg.physScanRows < cfg.scanRows <;> simp [htop]

/-- Stripe `x / STRIPE_W` starts at buffer column `2 * STRIPE_W * (x / STRIPE_W)`. -/
theorem mapPixel_mux_col {cfg : Config} (hmux : cfg.stripeMux = true) (x y : Nat) :
    (mapPixel cfg x y).col = stripeOffset cfg x y + 2 * cfg.stripeW * (x / cfg.stripeW) := by
  have hsplit := Nat.mod_add_div x cfg.stripeW
  rw [mapPixel_mux hmux, stripeOffset, Nat.mul_assoc]
  dsimp only
  omega

theorem mapPixel_mux_col_div {cfg : Config} (hmux : cfg.stripeMux = true) (hstripe : 1 ≤ cfg.stripeW) (x y : Nat) :
    (mapPixel cfg x y).col / (2 * cfg.stripeW) = x / cfg.stripeW := by
  rw [mapPixel_mux_col hmux, Nat.add_mul_div_left _ _ (by omega), Nat.div_eq_of_lt (stripeOffset_lt hstripe x y),
    Nat.zero_add]

theorem mapPixel_mux_col_mod {cfg : Config} (hmux : cfg.stripeMux = true) (hstripe : 1 ≤ cfg.stripeW) (x y : Nat) :
    (mapPixel cfg x y).col % (2 * cfg.stripeW) = stripeOffset cfg x y := by
  rw [mapPixel_mux_col hmux, Nat.add_mul_mod_self_left, Nat.mod_eq_of_lt (stripeOffset_lt hstripe x y)]

/-- Settles O21: the bounds of the mapper, and the stripe's columns as quotient and remainder by `2 * STRIPE_W`. -/
theorem mappedIndexInFramebuffer : Obligations.MappedIndexInFramebuffer := by
  intro cfg x y hw hin
  obtain ⟨-, -, -, -, -, -, -, hstripe, -⟩ := Config.wf_parts hw
  obtain ⟨hx, -⟩ := (inBounds_natCast_iff cfg x y).mp hin
  refine ⟨mapPixel_row_lt hw x y, mapPixel_col_lt hw hx y, fun hmux => ?_⟩
  refine ⟨mapPixel_mux_col_div hmux hstripe x y, ?_⟩
  rw [mapPixel_mux_col_mod hmux hstripe]
  exact stripeW_le_stripeOffset_iff hstripe x y

/-- The mapped column gives back the pixel's column and `is_top_half`. -/
theorem eq_and_isTopHalf_iff_of_mapPixel_mux_col_eq {cfg : Config} (hmux : cfg.stripeMux = true)
    (hstripe : 1 ≤ cfg.stripeW) {x y x' y' : Nat} (hcol : (mapPixel cfg x y).col = (mapPixel cfg x' y').col) :
    x = x' ∧ (y % cfg.physScanRows < cfg.scanRows ↔ y' % cfg.physScanRows < cfg.scanRows) := by
  have hindex : x / cfg.stripeW = x' / cfg.stripeW := by
    rw [← mapPixel_mux_col_div hmux hstripe x y, hcol, mapPixel_mux_col_div hmux hstripe]
  have hoffset : stripeOffset cfg x y = stripeOffset cfg x' y' := by
    rw [← mapPixel_mux_col_mod hmux hstripe x y, hcol, mapPixel_mux_col_mod hmux hstripe]
  have htop : y % cfg.physScanRows < cfg.scanRows ↔ y' % cfg.physScanRows < cfg.scanRows := by
    rw [← stripeW_le_stripeOffset_iff hstripe x y, hoffset, stripeW_le_stripeOffset_iff hstripe]
  have hmod : x % cfg.stripeW = x' % cfg.stripeW := by
    simpa only [stripeOffset, htop, Nat.add_right_cancel_iff] using hoffset
  refine ⟨?_, htop⟩
  rw [← Nat.mod_add_div x cfg.stripeW, hmod, hindex, Nat.mod_add_div]

/-- Settles O23: with `PHYS_SCAN_ROWS = 2 * SCAN_ROWS` every formula of the mapper has that period in `y`; below it the
column tells in which half of the period `y` lies, and the row tells where. -/
theorem multiplexedMapperAliases : Obligations.MultiplexedMapperAliases := by
  intro cfg hw hmux hphys _
  obtain ⟨-, -, -, -, -, -, -, hstripe, -⟩ := Config.wf_parts hw
  refine ⟨fun x y => ?_, fun x y x' y' hy hy' hmap => ?_⟩
  · have hrow : (y + cfg.physScanRows) % cfg.scanRows = y % cfg.scanRows := by
      rw [hphys, Nat.add_mul_mod_self_right]
    simp only [mapPixel_mux hmux, hrow, Nat.add_mod_right]
  · obtain ⟨rfl, htop⟩ := eq_and_isTopHalf_iff_of_mapPixel_mux_col_eq hmux hstripe (congrArg Slot3.col hmap)
    refine ⟨rfl, ?_⟩
    rw [Nat.mod_eq_of_lt hy, Nat.mod_eq_of_lt hy'] at htop
    have hrow : y % cfg.scanRows = y' % cfg.scanRows := by
      simpa only [mapPixel_mux hmux] using congrArg Slot3.row hmap
    by_cases hlow : y < cfg.scanRows
    · rwa [Nat.mod_eq_of_lt hlow, Nat.mod_eq_of_lt (htop.mp hlow)] at hrow
    · have hlow' : ¬ y' < cfg.scanRows := fun h => hlow (htop.mpr h)
      rw [mod_eq_sub_of_lt_two_mul (by omega) (by omega), mod_eq_sub_of_lt_two_mul (by omega) (by omega)] at hrow
      omega

end Sys2Proof.Machine
end

section
/-! PROOFS. The pixel-write commands: the stores they make in the framebuffer, and what they leave (rules R110 to
R125). -/

namespace Sys2Proof.Machine

/-! WRPIX and WRMANY. -/

/-- The framebuffer after WRPIX of one pixel (rules R110, R112, R115). -/
def Memory.storePixel (cfg : Config) (m : Memory) (p : Pixel) : Memory :=
  if inBounds cfg p.x p.y = true then
    m.writeAll (halfWrites cfg (mapPixel cfg p.x.toNat p.y.toNat).row (mapPixel cfg p.x.toNat p.y.toNat).col
      (mapPixel cfg p.x.toNat p.y.toNat).half (gammaTriple cfg p.r p.g p.b))
  else m

/-- All of WRPIX in `READY`. -/
theorem execWrpix_ready {s : State} (hw : s.cfg.wf = true) (hm : s.mode = .ready) (p : Pixel) :
    execWrpix p.x p.y p.r p.g p.b s = .next (done (s.withFb (s.fb.storePixel s.cfg p))) := by
  rw [execWrpix, inReady_ready hw hm]
  by_cases hin : inBounds s.cfg p.x p.y = true
  · simp only [hin, if_true, Memory.storePixel, fbWriteHalf_inRange (mapPixel_cellInRange hw hin)]
  · simp only [hin, Memory.storePixel]
    rfl

/-- Settles O18: out of bounds no store is made, and the answer is the normal end of the command. -/
theorem wrpixOutOfBoundsIgnored : Obligations.WrpixOutOfBoundsIgnored := by
  intro s x y r g b hw hm hout
  have hin : ¬ inBounds s.cfg x y = true := fun h => hout ((inBounds_iff s.cfg x y).mp h)
  refine (execWrpix_ready hw hm ⟨x, y, r, g, b⟩).trans ?_
  rw [Memory.storePixel, if_neg hin]
  rfl

/-- From `s` to `t` a triple is stored in one half-slot and no other element changes (rule R55). -/
def StoresHalf (s t : State) (slot : Slot3) (v : Byte × Byte × Byte) : Prop :=
  t.readField slot.row slot.col slot.half.fields.1 = v.1
    ∧ t.readField slot.row slot.col slot.half.fields.2.1 = v.2.1
    ∧ t.readField slot.row slot.col slot.half.fields.2.2 = v.2.2
    ∧ ∀ j, j ≠ fbIndex s.cfg slot.row slot.col slot.half.fields.1 →
        j ≠ fbIndex s.cfg slot.row slot.col slot.half.fields.2.1 →
        j ≠ fbIndex s.cfg slot.row slot.col slot.half.fields.2.2 → t.fb.read j = s.fb.read j

/-- Where no two writes name one index, each of them is read back. -/
theorem Memory.read_writeAll_of_nodup {m : Memory} {ws : List (Nat × Byte)} (hm : m.wf)
    (hnodup : (ws.map Prod.fst).Nodup) {i : Nat} {v : Byte} (hw : (i, v) ∈ ws) : (m.writeAll ws).read i = v :=
  Memory.read_writeAll_same m ws i v hm ⟨(i, v), hw, rfl⟩ fun _ hx hxi =>
    congrArg Prod.snd (List.inj_on_of_nodup_map hnodup hx hw hxi)

theorem halfWrites_nodup (cfg : Config) (r c : Nat) (h : Half) (v : Byte × Byte × Byte) :
    ((halfWrites cfg r c h v).map Prod.fst).Nodup := by
  cases h with
  | top => simp [halfWrites, Half.fields, fbIndex, Field.index]
  | bot => simp [halfWrites, Half.fields, fbIndex, Field.index]

theorem storesHalf_halfWrites {s : State} (hcanonical : Memory.wf s.fb) (slot : Slot3) (v : Byte × Byte × Byte) :
    StoresHalf s (done (s.withFb (s.fb.writeAll (halfWrites s.cfg slot.row slot.col slot.half v)))) slot v := by
  have hnodup := halfWrites_nodup s.cfg slot.row slot.col slot.half v
  refine ⟨Memory.read_writeAll_of_nodup hcanonical hnodup (by simp [halfWrites]),
    Memory.read_writeAll_of_nodup hcanonical hnodup (by simp [halfWrites]),
    Memory.read_writeAll_of_nodup hcanonical hnodup (by simp [halfWrites]),
    fun j hr hg hb => Memory.read_writeAll_other s.fb _ j fun w hw => ?_⟩
  simp only [halfWrites, List.mem_cons, List.not_mem_nil, or_false] at hw
  rcases hw with rfl | rfl | rfl
  · exact hr.symm
  · exact hg.symm
  · exact hb.symm

/-- WRPIX in bounds: the store, the canonical form and the frame. -/
theorem exec_wrpix_inBounds {s : State} {x y : Nat} (hw : s.cfg.wf = true) (hm : s.mode = .ready)
    (hcanonical : Memory.wf s.fb) (hin : inBounds s.cfg x y = true) (r g b : Byte) :
    ∃ t : State, exec (.wrpix x y r g b) s = .next t
      ∧ t = { s with fb := t.fb, responses := 0#64 :: s.responses }
      ∧ Memory.wf t.fb
      ∧ StoresHalf s t (mapPixel s.cfg x y) (gammaTriple s.cfg r g b) := by
  refine ⟨_, execWrpix_ready hw hm ⟨x, y, r, g, b⟩, rfl, ?_⟩
  simp only [Memory.storePixel, if_pos hin, Int.toNat_natCast]
  exact ⟨Memory.writeAll_wf _ _ hcanonical, storesHalf_halfWrites hcanonical _ _⟩

/-- Settles O19: the half-slot of the non-multiplexed mapper, half by half. -/
theorem wrpixStoresPlain : Obligations.WrpixStoresPlain := by
  intro s x y r g b hw hm hcanonical hplain hx hy
  obtain ⟨t, hexec, hframe, hwf, hstore⟩ :=
    exec_wrpix_inBounds hw hm hcanonical ((inBounds_plain_iff hplain x y).mpr ⟨hx, hy⟩) r g b
  refine ⟨t, hexec, hframe, hwf, fun htop => ?_, fun hbot => ?_⟩
  · rw [mapPixel_plain_top hplain x htop] at hstore
    exact hstore
  · rw [mapPixel_plain_bot hplain x hbot hy] at hstore
    exact hstore

/-- Settles O20: the half-slot of the multiplexed mapper, half by half. -/
theorem wrpixStoresMultiplexed : Obligations.WrpixStoresMultiplexed := by
  intro s x y r g b row col hw hm hcanonical hmux hx hy hrow hcol
  obtain ⟨t, hexec, hframe, hwf, hstore⟩ :=
    exec_wrpix_inBounds hw hm hcanonical ((inBounds_mux_iff hmux x y).mpr ⟨hx, hy⟩) r g b
  rw [mapPixel_mux hmux, ← hrow, ← hcol] at hstore
  refine ⟨t, hexec, hframe, hwf, fun htop => ?_, fun hbot => ?_⟩
  · rw [if_pos htop] at hstore
    exact hstore
  · rw [if_neg (Nat.not_lt.mpr hbot)] at hstore
    exact hstore

/-- The word of one WRPIX is taken, its pixel stored, and the response 0 given. -/
theorem step_wrpix {s : State} {p : Pixel} {rest : List PortWord} (hw : s.cfg.wf = true) (hm : s.mode = .ready)
    (hp : fitsS16 p.x = true ∧ fitsS16 p.y = true) (hport : s.port = encode (.wrpix p.x p.y p.r p.g p.b) :: rest) :
    step s = .next (done ((s.withPort rest).withFb (s.fb.storePixel s.cfg p))) := by
  have hdecode := decodeOfEncode (.wrpix p.x p.y p.r p.g p.b) (by simp [Instr.wf, hp])
  rw [step_of_decode_ok hw (by simp [hm]) hport hdecode]
  exact execWrpix_ready (s := s.withPort rest) hw hm p

/-- The words of WRMANY, by induction on its list (rule R118). -/
theorem run_wrmany {s : State} {ps : List Pixel} {rest : List PortWord} (hw : s.cfg.wf = true) (hm : s.mode = .ready)
    (hps : ∀ p ∈ ps, fitsS16 p.x = true ∧ fitsS16 p.y = true) (hport : s.port = (wrmany ps).map encode ++ rest) :
    Host.Core.run Sys2Proof.core ps.length s = .next
      { s with
        fb := ps.foldl (Memory.storePixel s.cfg) s.fb
        port := rest
        responses := List.replicate ps.length 0#64 ++ s.responses } := by
  induction ps generalizing s with
  | nil =>
    obtain rfl : s.port = rest := hport
    rfl
  | cons p ps ih =>
    obtain ⟨hp, hps⟩ := List.forall_mem_cons.mp hps
    have hstep := step_wrpix hw hm hp hport
    have hrest := ih (s := done ((s.withPort ((wrmany ps).map encode ++ rest)).withFb (s.fb.storePixel s.cfg p)))
      hw hm hps rfl
    refine (run_succ_of_next hstep ps.length).trans (hrest.trans ?_)
    rw [List.length_cons, List.replicate_succ', List.append_assoc]
    rfl

/-- Settles O28: the fold of the stores is that of `run_wrmany`. -/
theorem wrmanyIsItsPixelsInOrder : Obligations.WrmanyIsItsPixelsInOrder :=
  fun _ _ _ hw hm hps hport => ⟨_, run_wrmany hw hm hps hport, rfl, rfl⟩

/-! CLEAR and CLRD: one value for each of the six fields, the same in every cell. -/

/-- The writes that give each field one value in every cell. -/
def cellWrites (cfg : Config) (value : Field → Byte) : List (Nat × Byte) :=
  (allCells cfg).flatMap fun rc => allFields.map fun f => (fbIndex cfg rc.1 rc.2 f, value f)

/-- The colour channel a field holds (rule R21). -/
def Field.channel (v : Byte × Byte × Byte) : Field → Byte
  | .rTop | .rBot => v.1
  | .gTop | .gBot => v.2.1
  | .bTop | .bBot => v.2.2

theorem fillWrites_eq_cellWrites (cfg : Config) (v : Byte × Byte × Byte) :
    fillWrites cfg v = cellWrites cfg (Field.channel v) := rfl

theorem blankWrites_eq_cellWrites (cfg : Config) : blankWrites cfg = cellWrites cfg fun _ => 0 := rfl

theorem mem_cellWrites_iff {cfg : Config} {value : Field → Byte} {w : Nat × Byte} :
    w ∈ cellWrites cfg value ↔
      ∃ r < cfg.fbRows, ∃ c < cfg.fbCols, ∃ f, w = (fbIndex cfg r c f, value f) := by
  have hall (f : Field) : f ∈ allFields := by cases f <;> decide
  simp [cellWrites, allCells, hall, and_assoc, eq_comm]

theorem read_cellWrites_inRange {cfg : Config} {m : Memory} (hm : m.wf) (value : Field → Byte) {r c : Nat}
    (hr : r < cfg.fbRows) (hc : c < cfg.fbCols) (f : Field) :
    (m.writeAll (cellWrites cfg value)).read (fbIndex cfg r c f) = value f := by
  have hmem : (fbIndex cfg r c f, value f) ∈ cellWrites cfg value := mem_cellWrites_iff.mpr ⟨r, hr, c, hc, f, rfl⟩
  refine Memory.read_writeAll_same m _ _ _ hm ⟨_, hmem, rfl⟩ fun w hw hindex => ?_
  obtain ⟨r', -, c', hc', f', rfl⟩ := mem_cellWrites_iff.mp hw
  obtain ⟨-, -, rfl⟩ := fbIndex_inj hc' hc hindex
  rfl

theorem read_cellWrites_outside {cfg : Config} (m : Memory) (value : Field → Byte) {j : Nat} (hj : cfg.fbSize ≤ j) :
    (m.writeAll (cellWrites cfg value)).read j = m.read j := by
  refine Memory.read_writeAll_other m _ j fun w hw => ?_
  obtain ⟨r, hr, c, hc, f, rfl⟩ := mem_cellWrites_iff.mp hw
  have hcell : cellInRange cfg r c = true := by simp [cellInRange, hr, hc]
  exact Nat.ne_of_lt ((fbIndex_lt_fbSize f hcell).trans_le hj)

theorem execClear_ready {s : State} (hw : s.cfg.wf = true) (hm : s.mode = .ready) (r g b : Byte) :
    execClear r g b s =
      .next (done (s.withFb (s.fb.writeAll (cellWrites s.cfg (Field.channel (gammaTriple s.cfg r g b)))))) := by
  rw [← fillWrites_eq_cellWrites]
  exact inReady_ready hw hm

theorem execClrd_ready {s : State} (hw : s.cfg.wf = true) (hm : s.mode = .ready) :
    execClrd s = .next (done (s.withFb (s.fb.writeAll (cellWrites s.cfg fun _ => 0)))) := by
  rw [← blankWrites_eq_cellWrites]
  exact inReady_ready hw hm

/-- Settles O24: the six fields are read back from `cellWrites`, which writes nothing outside the space. -/
theorem clearFillsEveryCell : Obligations.ClearFillsEveryCell := by
  intro s r g b hw hm hcanonical
  refine ⟨_, execClear_ready hw hm r g b, rfl, Memory.writeAll_wf _ _ hcanonical, fun row col hrow hcol => ?_,
    fun j hj => read_cellWrites_outside s.fb _ hj⟩
  have hread := read_cellWrites_inRange hcanonical (Field.channel (gammaTriple s.cfg r g b)) hrow hcol
  exact ⟨hread .rTop, hread .gTop, hread .bTop, hread .rBot, hread .gBot, hread .bBot⟩

/-- Settles O25: `cellWrites` with the value 0. -/
theorem clrdBlanksEveryField : Obligations.ClrdBlanksEveryField := fun s hw hm hcanonical =>
  ⟨_, execClrd_ready hw hm, rfl, Memory.writeAll_wf _ _ hcanonical,
    fun _ _ f hrow hcol => read_cellWrites_inRange hcanonical (fun _ => 0) hrow hcol f,
    fun _ hj => read_cellWrites_outside s.fb _ hj⟩

theorem channel_gammaTriple_black {cfg : Config} (hw : cfg.wf = true) :
    Field.channel (gammaTriple cfg 0 0 0) = fun _ => 0 := by
  obtain ⟨-, -, -, -, hgamma, -⟩ := Config.wf_parts hw
  obtain ⟨-, hzero, -⟩ := Config.gamma_properties hgamma
  funext f
  cases f <;> exact hzero

/-- Writing one value everywhere a second time changes nothing. -/
theorem Memory.writeAll_writeAll_const {m : Memory} {ws : List (Nat × Byte)} {v : Byte} (hm : m.wf)
    (hconst : ∀ w ∈ ws, w.2 = v) : (m.writeAll ws).writeAll ws = m.writeAll ws := by
  have hm' := Memory.writeAll_wf m ws hm
  refine Memory.ext_of_read (Memory.writeAll_wf _ ws hm') hm' fun j => ?_
  by_cases hj : ∃ w ∈ ws, w.1 = j
  · rw [Memory.read_writeAll_same _ ws j v hm' hj fun w hw _ => hconst w hw,
      Memory.read_writeAll_same m ws j v hm hj fun w hw _ => hconst w hw]
  · exact Memory.read_writeAll_other _ ws j fun w hw hwj => hj ⟨w, hw, hwj⟩

/-- Settles O26: `GAMMA[0] = 0`, and CLRD writes one value. -/
theorem clearBlackIsClrdAndClrdIdempotent : Obligations.ClearBlackIsClrdAndClrdIdempotent := by
  intro s hw hm hcanonical
  have hblack := execClear_ready hw hm 0 0 0
  rw [channel_gammaTriple_black hw] at hblack
  have hclrd := execClrd_ready hw hm
  refine ⟨hblack.trans hclrd.symm, _, _, hclrd, execClrd_ready (s := done _) hw hm, ?_⟩
  refine Memory.writeAll_writeAll_const (v := 0) hcanonical fun w hw => ?_
  obtain ⟨r, -, c, -, f, rfl⟩ := mem_cellWrites_iff.mp hw
  rfl

/-! SIZE. -/

theorem sizePayload_width (width height : Nat) :
    (sizePayload width height).extractLsb' 16 16 = BitVec.ofNat 16 width :=
  BitVec.extractLsb'_append_eq_left

theorem sizePayload_height (width height : Nat) :
    (sizePayload width height).extractLsb' 0 16 = BitVec.ofNat 16 height :=
  BitVec.extractLsb'_append_eq_right

/-- A part of the payload, read from the response. -/
theorem responseWord_payload_part (status : Status) (payload : BitVec 32) {start len : Nat} (h : start + len ≤ 32) :
    (responseWord status payload).extractLsb' start len = payload.extractLsb' start len :=
  BitVec.extractLsb'_append_eq_of_add_le h

/-- The width and the height of a well-formed configuration fit 16 bits. -/
theorem Config.size_lt {cfg : Config} (hw : cfg.wf = true) : cfg.width < 2 ^ 16 ∧ cfg.height < 2 ^ 16 := by
  obtain ⟨hrows, -, hlength, -⟩ := Config.wf_parts hw
  unfold Config.width Config.height
  split <;> omega

theorem execSize_ready {s : State} (hw : s.cfg.wf = true) (hm : s.mode = .ready) :
    execSize s = .next (s.respond .ok (sizePayload s.cfg.width s.cfg.height)) :=
  inReady_ready hw hm

/-- Settles O27: the payload's two halves, neither cut off. -/
theorem sizeReportsPanel : Obligations.SizeReportsPanel := by
  intro s hw hm
  obtain ⟨hwidth, hheight⟩ := Config.size_lt hw
  refine ⟨responseWord .ok (sizePayload s.cfg.width s.cfg.height), execSize_ready hw hm, responseWord_status _ _,
    responseWord_reserved _ _, ?_, ?_⟩
  · rw [responseWord_payload_part _ _ (by decide), sizePayload_width]
    exact Nat.mod_eq_of_lt hwidth
  · rw [responseWord_payload_part _ _ (by decide), sizePayload_height]
    exact Nat.mod_eq_of_lt hheight

end Sys2Proof.Machine
end

section
/-! PROOFS. A pass event by event, and what its requests give the lines (rules R141, R142, R212). -/

namespace Sys2Proof.Machine

/-! A pass with its next event answered. -/

section
variable {s : State} {kind : PassKind} {slot : Slot} {rest : List Slot}

/-- Only the first event looks at where `SEQ` stands. -/
theorem runPass_write_ok (hbusy : s.mode = .busy) (hr : slot.req.inRange s.cfg = true)
    (hwrite : slot.req.isWrite = true) (hanswer : s.answerAt 0 = .ok) :
    runPass (slot :: rest).length (advance kind (slot :: rest) s)
      = runPass rest.length (advance kind rest ((s.issueWrite (slot.req.event s)).withOut (slot.req.outAfter s))) := by
  have hcur : (advance kind (slot :: rest) s).mode = .busy := hbusy
  rw [List.length_cons, runPass_succ hcur (passStep_ok rfl hr hwrite hanswer)]
  cases rest <;> rfl

theorem runPass_write_fault (hbusy : s.mode = .busy) (hr : slot.req.inRange s.cfg = true)
    (hwrite : slot.req.isWrite = true) (hanswer : s.answerAt 0 = .fault) :
    runPass (slot :: rest).length (advance kind (slot :: rest) s)
      = .next (raise .pinFault (s.issueWrite (slot.req.event s))) := by
  have hcur : (advance kind (slot :: rest) s).mode = .busy := hbusy
  rw [List.length_cons, runPass_succ hcur (passStep_fault rfl hr hwrite hanswer),
    runPass_of_not_busy (by simp [raise_pinFault])]
  rfl

theorem runPass_delay (hbusy : s.mode = .busy) (hr : slot.req.inRange s.cfg = true)
    (hwrite : slot.req.isWrite = false) :
    runPass (slot :: rest).length (advance kind (slot :: rest) s)
      = runPass rest.length (advance kind rest (s.logEvent (slot.req.event s))) := by
  have hcur : (advance kind (slot :: rest) s).mode = .busy := hbusy
  rw [List.length_cons, runPass_succ hcur (passStep_delay rfl hr hwrite)]
  cases rest <;> rfl

end

/-- PWM and BCM, in `READY`, are whole passes of their events (rules R170, R185). -/
theorem exists_pass_of_instr {i : Instr} (hi : i = .pwm ∨ ∃ base, i = .bcm base) :
    ∃ kind base, ∀ s : State, s.cfg.wf = true → s.mode = .ready →
      exec i s = runWholePass kind (passSlots s kind base) s := by
  rcases hi with rfl | ⟨base, rfl⟩
  · exact ⟨.pwm, 0, fun _ => execPwm_ready⟩
  · exact ⟨.bcm, base, fun _ hw hm => execBcm_ready hw hm base⟩

/-! The groups of a pass (rule R142). -/

/-- The groups of signals a pass drives together. -/
inductive PassGroup (cfg : Config) : List (Signal × Source) → Prop
  | data (lit : Lit) (row col : Nat) : PassGroup cfg (dataGroup lit row col)
  | address (row : Nat) : PassGroup cfg (addrLevels cfg row)
  | clock (l : Level) : PassGroup cfg [(.clk, .level l)]
  | latch (l : Level) : PassGroup cfg [(.lat, .level l)]
  | output (o : Sense) : PassGroup cfg [(.oe, .sense o)]

section
variable {P : Request → Prop} {cfg : Config} (hdelay : ∀ us, P (.delay us))
  (hgroup : ∀ vs, PassGroup cfg vs → ∀ q ∈ driveGroup cfg vs, P q)
include hdelay hgroup

theorem scanRow_all (lit : Lit) (row : Nat) : ∀ q ∈ scanRow cfg lit row, P q := by
  simp only [scanRow, shiftRow, shiftColumn, commitRow, drive, List.forall_mem_append, List.forall_mem_flatMap,
    List.forall_mem_singleton]
  exact ⟨fun col _ => ⟨⟨hgroup _ (.data lit row col), hgroup _ (.clock _)⟩, hgroup _ (.clock _)⟩,
    ⟨⟨⟨⟨⟨⟨hgroup _ (.output _), hdelay _⟩, hgroup _ (.latch _)⟩, hdelay _⟩, hgroup _ (.latch _)⟩,
      hgroup _ (.address row)⟩, hdelay _⟩, hgroup _ (.output _)⟩

/-- What holds of every delay and of every port request of a group holds of every request of a PWM cycle. -/
theorem pwmSlots_all (step count : Nat) : ∀ slot ∈ pwmSlots cfg step count, P slot.req := by
  rw [← List.forall_mem_map, pwmSlots_req]
  simp only [drive, List.forall_mem_append, List.forall_mem_flatMap]
  exact ⟨⟨hgroup _ (.output _), fun _ _ row _ => scanRow_all hdelay hgroup _ row⟩, hgroup _ (.output _)⟩

theorem bcmSlots_all (base shift : Nat) : ∀ slot ∈ bcmSlots cfg base shift, P slot.req := by
  have hdwell : ∀ us, ∀ q ∈ [Request.delay us], P q := fun us => List.forall_mem_singleton.mpr (hdelay us)
  rw [← List.forall_mem_map, bcmSlots_req]
  simp only [drive, List.forall_mem_append, List.forall_mem_flatMap, List.forall_mem_cons]
  refine ⟨fun p _ => ⟨⟨hgroup _ (.output _), fun row _ => ⟨scanRow_all hdelay hgroup _ row, ?_⟩⟩, hdelay _, ?_⟩,
    hgroup _ (.output _)⟩
  · split
    · exact hdwell _
    · exact nofun
  · split
    · exact nofun
    · exact hdwell _

end

theorem passSlots_all {P : Request → Prop} {s : State} (hdelay : ∀ us, P (.delay us))
    (hgroup : ∀ vs, PassGroup s.cfg vs → ∀ q ∈ driveGroup s.cfg vs, P q) (kind : PassKind) (base : Nat) :
    ∀ slot ∈ passSlots s kind base, P slot.req := by
  cases kind with
  | pwm => exact pwmSlots_all hdelay hgroup _ _
  | bcm => exact bcmSlots_all hdelay hgroup _ _

/-! The levels a request gives. -/

/-- The lines a request names, with the level it gives each. -/
def Request.given (s : State) : Request → List (Signal × Level)
  | .line sig v => namedLevels s [(sig, v)]
  | .word vs => namedLevels s vs
  | .delay _ => []

/-- A write of one line gives it its level and leaves the others as `OUT` remembers them (rule R141). -/
theorem level_outAfter_line (s : State) (x : Signal) (v : Source) (sig : Signal) :
    ((Request.line x v).outAfter s).level s.cfg sig
      = (((Request.line x v).given s).lookup sig).or (s.out.level s.cfg sig) := by
  by_cases hx : sig = x
  · simp [Request.outAfter, Request.given, namedLevels, hx]
  · simp [Request.outAfter, Request.given, namedLevels, List.lookup_cons, beq_false_of_ne hx,
      Out.level_put_other _ _ _ hx]

/-- An output word gives every mapped line a level (rule R69). -/
theorem level_outAfter_word (s : State) (vs : List (Signal × Source)) (sig : Signal) :
    ((Request.word vs).outAfter s).level s.cfg sig
      = if sig ∈ s.cfg.signals then some (wordLevel s.cfg s.out (namedLevels s vs) sig) else s.out.level s.cfg sig :=
  Out.level_foldl_put s.cfg _ _ _ sig

end Sys2Proof.Machine
end

section
/-! PROOFS. The shape of a pass does not depend on the framebuffer (rule R160). -/

namespace Sys2Proof.Machine

/-! Two runs of one pass. -/

/-- Two states with the same configuration, mode, answers to come and responses, and, but for the levels of the data
lines, the same `OUT` and the same trace. -/
structure State.SameShape (s s' : State) : Prop where
  cfg : s'.cfg = s.cfg
  mode : s'.mode = s.mode
  answers : s'.answers = s.answers
  asked : s'.asked = s.asked
  responses : s'.responses = s.responses
  shapes : s'.log.map (Event.shape s.cfg) = s.log.map (Event.shape s.cfg)
  levels : ∀ sig, sig.isData = false → s'.out.level s.cfg sig = s.out.level s.cfg sig

/-- The level of the source is fixed: it is not read from the framebuffer. -/
def Source.isFixed : Source → Bool
  | .level _ => true
  | .sense _ => true
  | .pixel _ _ _ _ => false

/-- Only data lines take levels from the framebuffer. -/
def FixedButData (vs : List (Signal × Source)) : Prop := ∀ p ∈ vs, p.1.isData = false → p.2.isFixed = true

/-- A request that gives no line but a data line a level read from the framebuffer; on the parallel port no two signals
share a bit. -/
inductive Request.ShapeFixed (cfg : Config) : Request → Prop
  | delay (us : Nat) : Request.ShapeFixed cfg (.delay us)
  | line (sig : Signal) (v : Source) : FixedButData [(sig, v)] → Request.ShapeFixed cfg (.line sig v)
  | word (vs : List (Signal × Source)) : cfg.bitposOk = true → FixedButData vs → Request.ShapeFixed cfg (.word vs)

theorem PassGroup.fixedButData {cfg : Config} {vs : List (Signal × Source)} (h : PassGroup cfg vs) :
    FixedButData vs := by
  cases h with
  | data lit row col => simp [FixedButData, dataGroup, Signal.isData]
  | address row => cases hf : cfg.hasF <;> simp [FixedButData, addrLevels, hf, Source.isFixed]
  | clock l => simp [FixedButData, Source.isFixed]
  | latch l => simp [FixedButData, Source.isFixed]
  | output o => simp [FixedButData, Source.isFixed]

/-- The data lines are the only ones a pass drives by the framebuffer (rules R144, R145). -/
theorem passSlots_shapeFixed {s : State} (hw : s.cfg.wf = true) (kind : PassKind) (base : Nat) :
    ∀ slot ∈ passSlots s kind base, slot.req.ShapeFixed s.cfg := by
  obtain ⟨-, -, -, -, -, hpos, -⟩ := Config.wf_parts hw
  exact passSlots_all .delay (fun vs hvs => driveGroup_all
    (fun _ p hp => .line _ _ (List.forall_mem_singleton.mpr (hvs.fixedButData p hp)))
    fun hword => .word vs (hpos hword) hvs.fixedButData) kind base

/-- The levels an output word gives are those it was composed of. -/
theorem wordLevels_composeWord {cfg : Config} (hpos : cfg.bitposOk = true) (o : Out) (named : List (Signal × Level)) :
    wordLevels cfg (composeWord cfg o named) = cfg.signals.map fun sig => (sig, wordLevel cfg o named sig) :=
  List.map_congr_left fun _ hsig => by rw [composeWord_testBit_mapped hpos o named hsig, Level.ofBool_decide_high]

section
variable {s s' : State}

theorem Source.eval_of_isFixed (hcfg : s'.cfg = s.cfg) {v : Source} (hv : v.isFixed = true) : v.eval s' = v.eval s := by
  cases v with
  | level l => rfl
  | sense o => simp only [Source.eval, hcfg]
  | pixel lit row col f => cases hv

theorem lookup_namedLevels_of_fixed (hcfg : s'.cfg = s.cfg) {vs : List (Signal × Source)} (hvs : FixedButData vs)
    {sig : Signal} (hsig : sig.isData = false) : (namedLevels s' vs).lookup sig = (namedLevels s vs).lookup sig := by
  induction vs with
  | nil => rfl
  | cons p vs ih =>
    have hrest := ih fun q hq => hvs q (List.mem_cons_of_mem _ hq)
    simp only [namedLevels, List.map_cons, List.lookup_cons] at hrest ⊢
    rw [hrest]
    by_cases hp : sig = p.1
    · rw [Source.eval_of_isFixed hcfg (hvs p List.mem_cons_self (hp ▸ hsig))]
    · rw [beq_false_of_ne hp]

namespace State.SameShape

theorem answerAt_eq (h : s.SameShape s') (k : Nat) : s'.answerAt k = s.answerAt k := by
  simp only [State.answerAt, h.answers, h.asked]

theorem wordLevel_eq (h : s.SameShape s') {vs : List (Signal × Source)} (hvs : FixedButData vs) {sig : Signal}
    (hsig : sig.isData = false) :
    wordLevel s.cfg s'.out (namedLevels s' vs) sig = wordLevel s.cfg s.out (namedLevels s vs) sig := by
  simp only [wordLevel, lookup_namedLevels_of_fixed h.cfg hvs hsig, h.levels sig hsig]

theorem event_shape (h : s.SameShape s') {q : Request} (hq : q.ShapeFixed s.cfg) :
    (q.event s').shape s.cfg = (q.event s).shape s.cfg := by
  cases hq with
  | delay us => rfl
  | line sig v hv =>
    cases hsig : sig.isData with
    | true => simp only [Request.event, Event.shape, hsig, if_true]
    | false =>
      have heval := Source.eval_of_isFixed h.cfg (hv _ (List.mem_singleton.mpr rfl) hsig)
      simp only [Request.event, Event.shape, heval]
  | word vs hpos hvs =>
    simp only [Request.event, Event.shape, h.cfg, wordLevels_composeWord hpos, List.filter_map]
    refine congrArg EventShape.word (List.map_congr_left fun sig hsig => ?_)
    have hcontrol : sig.isData = false := by simpa using (List.mem_filter.mp hsig).2
    rw [h.wordLevel_eq hvs hcontrol]

theorem level_outAfter (h : s.SameShape s') {q : Request} (hq : q.ShapeFixed s.cfg) {sig : Signal}
    (hsig : sig.isData = false) : (q.outAfter s').level s.cfg sig = (q.outAfter s).level s.cfg sig := by
  have hlevel := h.levels sig hsig
  cases hq with
  | delay us => exact hlevel
  | line x v hv =>
    rw [level_outAfter_line, ← h.cfg, level_outAfter_line, h.cfg, hlevel]
    exact congrArg (Option.or · _) (lookup_namedLevels_of_fixed h.cfg hv hsig)
  | word vs _ hvs =>
    rw [level_outAfter_word, ← h.cfg, level_outAfter_word, h.cfg, hlevel, h.wordLevel_eq hvs hsig]

/-! One event in both runs. -/

theorem logEvent (h : s.SameShape s') {q : Request} (hq : q.ShapeFixed s.cfg) :
    (s.logEvent (q.event s)).SameShape (s'.logEvent (q.event s')) :=
  { h with shapes := by simp [h.event_shape hq, h.shapes] }

theorem issueWrite (h : s.SameShape s') {q : Request} (hq : q.ShapeFixed s.cfg) :
    (s.issueWrite (q.event s)).SameShape (s'.issueWrite (q.event s')) :=
  { h with
    answers := congrArg List.tail h.answers
    asked := congrArg (· + 1) h.asked
    shapes := by simp [h.event_shape hq, h.shapes] }

theorem writeOk (h : s.SameShape s') {q : Request} (hq : q.ShapeFixed s.cfg) :
    ((s.issueWrite (q.event s)).withOut (q.outAfter s)).SameShape
      ((s'.issueWrite (q.event s')).withOut (q.outAfter s')) :=
  { h.issueWrite hq with levels := fun _ hsig => h.level_outAfter hq hsig }

theorem endPass_respond (h : s.SameShape s') (status : Status) :
    ((endPass s).respond status 0).SameShape ((endPass s').respond status 0) :=
  { h with mode := rfl, responses := congrArg (_ :: ·) h.responses }

/-- The pass ends in both runs, and the ends have the same shape: by induction on the events that are left, each of
which is answered alike in both. -/
theorem exists_runPass {slots : List Slot} (h : s.SameShape s') (hbusy : s.mode = .busy)
    (hr : ∀ slot ∈ slots, slot.req.inRange s.cfg = true) (hfixed : ∀ slot ∈ slots, slot.req.ShapeFixed s.cfg)
    (kind : PassKind) :
    ∃ t t', runPass slots.length (advance kind slots s) = .next t
      ∧ runPass slots.length (advance kind slots s') = .next t' ∧ t.SameShape t' := by
  induction slots generalizing s s' with
  | nil => exact ⟨_, _, rfl, rfl, h.endPass_respond .ok⟩
  | cons slot rest ih =>
    have hbusy' : s'.mode = .busy := h.mode.trans hbusy
    obtain ⟨hslot, hrest⟩ := List.forall_mem_cons.mp hr
    obtain ⟨hq, hfixed'⟩ := List.forall_mem_cons.mp hfixed
    have hslot' : slot.req.inRange s'.cfg = true := by rw [h.cfg, hslot]
    cases hwrite : slot.req.isWrite with
    | false =>
      rw [runPass_delay hbusy hslot hwrite, runPass_delay hbusy' hslot' hwrite]
      exact ih (h.logEvent hq) hbusy hrest hfixed'
    | true =>
      cases hanswer : s.answerAt 0 with
      | ok =>
        rw [runPass_write_ok hbusy hslot hwrite hanswer,
          runPass_write_ok hbusy' hslot' hwrite ((h.answerAt_eq 0).trans hanswer)]
        exact ih (h.writeOk hq) hbusy hrest hfixed'
      | fault =>
        exact ⟨_, _, runPass_write_fault hbusy hslot hwrite hanswer,
          runPass_write_fault hbusy' hslot' hwrite ((h.answerAt_eq 0).trans hanswer),
          (h.issueWrite hq).endPass_respond (.error .pinFault)⟩

end State.SameShape

end

/-- Settles O37: the two runs begin in states of the same shape and stay so. -/
theorem passShapeIgnoresFramebuffer : Obligations.PassShapeIgnoresFramebuffer := by
  intro s m i hw hm hi
  obtain ⟨kind, base, hexec⟩ := exists_pass_of_instr hi
  have hstart : (s.withMode .busy).SameShape (State.withMode { s with fb := m } .busy) :=
    ⟨rfl, rfl, rfl, rfl, rfl, rfl, fun _ _ => rfl⟩
  obtain ⟨t, u, ht, hu, hend⟩ :=
    hstart.exists_runPass rfl (passSlots_inRange s kind base) (passSlots_shapeFixed hw kind base) kind
  refine ⟨t, u, (hexec s hw hm).trans ht, (hexec { s with fb := m } hw hm).trans hu, ?_, hend.responses.symm⟩
  have hcfg : t.cfg = s.cfg := (passFrame_runWholePass ht).cfg
  rw [State.trace, State.trace, List.map_reverse, List.map_reverse, ← hcfg, hend.shapes]

end Sys2Proof.Machine
end

section
/-! PROOFS. The levels a pass leaves (rules R151, R152, R157, R173, R191). -/

namespace Sys2Proof.Machine

/-! What is known of a line after some requests. -/

/-- The level of a line after some requests, all answered ok, where `known` is what is known of it before them. -/
def levelAfter (s : State) (sig : Signal) (known : Option Level) (qs : List Request) : Option Level :=
  qs.foldl (fun k q => ((q.given s).lookup sig).or k) known

theorem levelAfter_append (s : State) (sig : Signal) (known : Option Level) (qs qs' : List Request) :
    levelAfter s sig known (qs ++ qs') = levelAfter s sig (levelAfter s sig known qs) qs' := List.foldl_append

theorem Request.given_of_delay {s : State} {q : Request} (h : q.isWrite = false) : q.given s = [] := by
  cases q with
  | line x v => cases h
  | word vs => cases h
  | delay us => rfl

theorem levelAfter_delays {s : State} {qs : List Request} (h : ∀ q ∈ qs, q.isWrite = false) (sig : Signal)
    (known : Option Level) : levelAfter s sig known qs = known := by
  induction qs with
  | nil => rfl
  | cons q qs ih =>
    obtain ⟨hq, hrest⟩ := List.forall_mem_cons.mp h
    refine Eq.trans ?_ (ih hrest)
    simp only [levelAfter, List.foldl_cons, Request.given_of_delay hq, List.lookup_nil, Option.none_or]

theorem levelAfter_delay (s : State) (sig : Signal) (known : Option Level) (us : Nat) :
    levelAfter s sig known [.delay us] = known := rfl

theorem lookup_namedLevels_of_notMem {s : State} {vs : List (Signal × Source)} {sig : Signal}
    (h : sig ∉ vs.map Prod.fst) : (namedLevels s vs).lookup sig = none :=
  List.lookup_eq_none_iff.mpr <| List.forall_mem_map.mpr fun _ hp =>
    bne_iff_ne.mpr fun hsame => h (hsame ▸ List.mem_map_of_mem hp)

/-- However the port splits a group, it gives the named lines their levels and keeps the others (rule R142). -/
theorem levelAfter_driveGroup {s : State} {cfg : Config} {vs : List (Signal × Source)}
    (hnodup : (vs.map Prod.fst).Nodup) (sig : Signal) (known : Option Level) :
    levelAfter s sig known (driveGroup cfg vs) = ((namedLevels s vs).lookup sig).or known := by
  unfold driveGroup
  split
  · induction vs generalizing known with
    | nil => rfl
    | cons p vs ih =>
      obtain ⟨hp, hrest⟩ : p.1 ∉ vs.map Prod.fst ∧ (vs.map Prod.fst).Nodup := List.nodup_cons.mp hnodup
      refine (ih hrest _).trans ?_
      have hcons : namedLevels s (p :: vs) = (p.1, p.2.eval s) :: namedLevels s vs := rfl
      have hline : (Request.line p.1 p.2).given s = [(p.1, p.2.eval s)] := rfl
      by_cases hsig : sig = p.1
      · subst hsig
        simp [hcons, hline, lookup_namedLevels_of_notMem hp]
      · simp [hcons, hline, List.lookup_cons, beq_false_of_ne hsig]
  · rfl

theorem levelAfter_drive (s : State) (cfg : Config) (x : Signal) (v : Source) (sig : Signal) (known : Option Level) :
    levelAfter s sig known (drive cfg x v) = if sig = x then some (v.eval s) else known := by
  rw [drive, levelAfter_driveGroup (by simp)]
  by_cases hx : sig = x
  · simp [namedLevels, hx]
  · simp [namedLevels, List.lookup_cons, hx, beq_false_of_ne hx]

/-! Requests that settle lines. -/

/-- The requests leave these lines at these levels, whatever was known of them before. -/
def Leaves (s : State) (qs : List Request) (ls : List (Signal × Level)) : Prop :=
  ∀ p ∈ ls, ∀ known, levelAfter s p.1 known qs = some p.2

theorem Leaves.append_left {s : State} {qs' : List Request} {ls : List (Signal × Level)} (h : Leaves s qs' ls)
    (qs : List Request) : Leaves s (qs ++ qs') ls := fun p hp _ => by
  rw [levelAfter_append]
  exact h p hp _

theorem Leaves.append_delays {s : State} {qs qs' : List Request} {ls : List (Signal × Level)} (h : Leaves s qs ls)
    (hdelays : ∀ q ∈ qs', q.isWrite = false) : Leaves s (qs ++ qs') ls := fun p hp known => by
  rw [levelAfter_append, levelAfter_delays hdelays, h p hp]

/-- Of a loop only the last round matters. -/
theorem leaves_flatMap {α : Type} {s : State} {l : List α} {f : α → List Request} {ls : List (Signal × Level)}
    (hl : l ≠ []) (h : Leaves s (f (l.getLast hl)) ls) : Leaves s (l.flatMap f) ls := by
  rw [← List.dropLast_append_getLast hl, List.flatMap_append, List.flatMap_singleton]
  exact h.append_left _

/-! A row. -/

theorem namedLevels_addrLevels (s : State) (row : Nat) :
    namedLevels s (addrLevels s.cfg row) = rowAddress s.cfg row := by
  by_cases h32 : s.cfg.scanRows = 32
  · simp [addrLevels, namedLevels, rowAddress, Config.hasF, h32, Source.eval]
  · simp [addrLevels, namedLevels, rowAddress, Config.hasF, h32, Source.eval]

theorem addrLevels_nodup (cfg : Config) (row : Nat) : ((addrLevels cfg row).map Prod.fst).Nodup := by
  cases hf : cfg.hasF <;> simp [addrLevels, hf]

/-- The control lines after a committed row, with output-enable at `o`. -/
def committedLevels (cfg : Config) (row : Nat) (o : Sense) : List (Signal × Level) :=
  (.clk, .low) :: (.oe, cfg.electrical o) :: (.lat, .high) :: rowAddress cfg row

theorem rowAddress_ne {cfg : Config} {row : Nat} {p : Signal × Level} (hp : p ∈ rowAddress cfg row) :
    p.1 ≠ .clk ∧ p.1 ≠ .oe ∧ p.1 ≠ .lat := by
  revert p
  unfold rowAddress
  split <;> simp

theorem lookup_rowAddress {cfg : Config} {row : Nat} {p : Signal × Level} (hp : p ∈ rowAddress cfg row) :
    (rowAddress cfg row).lookup p.1 = some p.2 := by
  revert p
  unfold rowAddress
  split
  · simp only [List.cons_append, List.nil_append, List.forall_mem_cons]
    exact ⟨rfl, rfl, rfl, rfl, rfl, nofun⟩
  · simp only [List.append_nil, List.forall_mem_cons]
    exact ⟨rfl, rfl, rfl, rfl, nofun⟩

/-- A column ends with the clock low (rule R146). -/
theorem shiftRow_leaves {s : State} (hw : s.cfg.wf = true) (lit : Lit) (row : Nat) :
    Leaves s (shiftRow s.cfg lit row) [(.clk, .low)] := by
  obtain ⟨-, hcols, -⟩ := Config.wf_parts hw
  refine leaves_flatMap (List.range_eq_nil.not.mpr (Nat.ne_of_gt hcols)) (Leaves.append_left ?_ _)
  simp [Leaves, levelAfter_drive, Source.eval]

/-- A commit leaves the latch high, the row's address, and output on (rule R148). -/
theorem levelAfter_commitRow (s : State) (row : Nat) (sig : Signal) (known : Option Level) :
    levelAfter s sig known (commitRow s.cfg row)
      = if sig = .oe then some (s.cfg.electrical .on)
        else ((rowAddress s.cfg row).lookup sig).or (if sig = .lat then some .high else known) := by
  simp only [commitRow, levelAfter_append, levelAfter_drive, levelAfter_delay,
    levelAfter_driveGroup (addrLevels_nodup s.cfg row), namedLevels_addrLevels, Source.eval]
  by_cases hoe : sig = .oe
  · simp only [hoe, if_true]
  · by_cases hlat : sig = .lat
    · simp only [if_neg hoe, if_pos hlat]
    · simp only [if_neg hoe, if_neg hlat]

theorem scanRow_leaves {s : State} (hw : s.cfg.wf = true) (lit : Lit) (row : Nat) :
    Leaves s (scanRow s.cfg lit row) (committedLevels s.cfg row .on) := by
  have hnone : ∀ sig, (∀ p ∈ rowAddress s.cfg row, p.1 ≠ sig) → (rowAddress s.cfg row).lookup sig = none :=
    fun _ hne => List.lookup_eq_none_iff.mpr fun p hp => bne_iff_ne.mpr (hne p hp).symm
  have hclk := hnone .clk fun _ hp => (rowAddress_ne hp).1
  have hlat := hnone .lat fun _ hp => (rowAddress_ne hp).2.2
  have hshift := shiftRow_leaves hw lit row _ (List.mem_singleton.mpr rfl)
  simp only [Leaves, scanRow, levelAfter_append, levelAfter_commitRow, committedLevels, List.forall_mem_cons]
  refine ⟨fun known => by simp [hclk, hshift], fun _ => by simp, fun _ => by simp [hlat], fun p hp _ => ?_⟩
  obtain ⟨-, hoe, -⟩ := rowAddress_ne hp
  rw [if_neg hoe, lookup_rowAddress hp, Option.some_or]

/-! A cycle. -/

/-- The rows of a loop nest, each with delays after it: the last row is what stays (rules R171, R186). -/
theorem rows_leave {s : State} (hw : s.cfg.wf = true) (lit : Lit) {wait : List Request}
    (hwait : ∀ q ∈ wait, q.isWrite = false) :
    Leaves s ((List.range s.cfg.fbRows).flatMap fun row => scanRow s.cfg lit row ++ wait)
      (committedLevels s.cfg (s.cfg.scanRows - 1) .on) := by
  have hne : List.range s.cfg.fbRows ≠ [] := List.range_eq_nil.not.mpr (Nat.ne_of_gt (scanRows_pos hw))
  refine leaves_flatMap hne ?_
  rw [List.getLast_range]
  exact (scanRow_leaves hw lit _).append_delays hwait

/-- The closing write changes output-enable alone (rules R173, R191). -/
theorem Leaves.output_off {s : State} {qs : List Request} {row : Nat}
    (h : Leaves s qs (committedLevels s.cfg row .on)) :
    Leaves s (qs ++ drive s.cfg .oe (.sense .off)) (committedLevels s.cfg row .off) := by
  simp only [Leaves, committedLevels, List.forall_mem_cons, levelAfter_append, levelAfter_drive] at h ⊢
  obtain ⟨hclk, -, hlat, haddr⟩ := h
  refine ⟨hclk, fun _ => rfl, hlat, fun p hp known => ?_⟩
  obtain ⟨-, hoe, -⟩ := rowAddress_ne hp
  rw [if_neg hoe, haddr p hp]

/-- A cycle leaves the control lines as the commit of its last row did, with output off. -/
theorem passSlots_leave {s : State} (hw : s.cfg.wf = true) (hbright : s.brightnessOk) (kind : PassKind) (base : Nat) :
    Leaves s ((passSlots s kind base).map (·.req)) (committedLevels s.cfg (s.cfg.scanRows - 1) .off) := by
  obtain ⟨hbits, -, -, hcount, -⟩ := hbright
  cases kind with
  | pwm =>
    have hpos : s.countReg.toNat ≠ 0 := by
      have := Nat.pow_le_pow_right two_pos hbits
      omega
    simp only [passSlots, pwmSlots_req]
    refine Leaves.output_off (Leaves.append_left (leaves_flatMap (List.range_eq_nil.not.mpr hpos) ?_) _)
    simpa using rows_leave hw (.atLeast _) (wait := []) nofun
  | bcm =>
    have hplanes : planes s.shiftReg.toNat ≠ [] := by
      have := s.shiftReg.isLt
      simp only [planes, ne_eq, List.map_eq_nil_iff, List.range_eq_nil]
      omega
    simp only [passSlots, bcmSlots_req]
    refine Leaves.output_off (leaves_flatMap hplanes ?_)
    refine Leaves.append_delays (Leaves.append_left (rows_leave hw _ ?_) _) ?_
    · split <;> simp [Request.isWrite]
    · split <;> simp [Request.isWrite]

/-! A pass that ended `OK`. -/

theorem State.PassFrame.given {s₀ s : State} (h : s₀.PassFrame s) (q : Request) : q.given s = q.given s₀ := by
  have heval : ∀ v : Source, v.eval s = v.eval s₀ := fun v => by
    cases v <;> simp only [Source.eval, State.readField, h.cfg, h.fb]
  cases q <;> simp only [Request.given, namedLevels, heval]

theorem passFrame_logEvent (s : State) (e : Event) : s.PassFrame (s.logEvent e) := ⟨rfl, rfl, rfl, rfl, rfl, rfl, rfl⟩

theorem passFrame_writeOk (s : State) (e : Event) (o : Out) : s.PassFrame ((s.issueWrite e).withOut o) :=
  ⟨rfl, rfl, rfl, rfl, rfl, rfl, rfl⟩

/-- A write answered ok leaves a mapped line at the level it gives it, or at the known level. -/
theorem level_outAfter_of_known {s : State} {q : Request} {sig : Signal} (hsig : sig ∈ s.cfg.signals)
    {known : Option Level} {l : Level} (hknown : ∀ l, known = some l → s.out.level s.cfg sig = some l)
    (h : ((q.given s).lookup sig).or known = some l) : (q.outAfter s).level s.cfg sig = some l := by
  have hout : ((q.given s).lookup sig).or (s.out.level s.cfg sig) = some l := by
    cases hgiven : (q.given s).lookup sig with
    | some l' => simpa [hgiven] using h
    | none => simpa [hgiven] using hknown l (by simpa [hgiven] using h)
  cases q with
  | delay us => exact hout
  | line x v => rw [level_outAfter_line, hout]
  | word vs =>
    rw [level_outAfter_word, if_pos hsig, wordLevel]
    simp only [Request.given] at hout
    cases hnamed : (namedLevels s vs).lookup sig with
    | some l' => simpa [hnamed] using hout
    | none =>
      rw [hnamed, Option.none_or] at hout
      simp only [hout, Option.getD_some]

/-- `OUT` holds what is known of a line at the end of a pass that ended `OK`: by induction on the events that are left,
none of them a write answered `fault`. -/
theorem level_of_runPass_ok {s₀ s t : State} {kind : PassKind} {slots : List Slot} {sig : Signal}
    {known : Option Level} {l : Level} (hframe : s₀.PassFrame s) (hbusy : s.mode = .busy)
    (hr : ∀ slot ∈ slots, slot.req.inRange s₀.cfg = true) (hsig : sig ∈ s₀.cfg.signals)
    (hknown : ∀ l, known = some l → s.out.level s₀.cfg sig = some l)
    (hl : levelAfter s₀ sig known (slots.map (·.req)) = some l)
    (hrun : runPass slots.length (advance kind slots s) = .next t)
    (hok : t.responses = responseWord .ok 0 :: s.responses) : t.out.level s₀.cfg sig = some l := by
  induction slots generalizing s known with
  | nil =>
    injection hrun with hrun
    exact hrun ▸ hknown l hl
  | cons slot rest ih =>
    obtain ⟨hslot, hrest⟩ := List.forall_mem_cons.mp hr
    rw [← hframe.cfg] at hslot
    have hl' : levelAfter s₀ sig (((slot.req.given s).lookup sig).or known) (rest.map (·.req)) = some l := by
      rw [hframe.given]; exact hl
    cases hwrite : slot.req.isWrite with
    | false =>
      rw [runPass_delay hbusy hslot hwrite] at hrun
      rw [Request.given_of_delay hwrite] at hl'
      exact ih (hframe.trans (passFrame_logEvent s _)) hbusy hrest hknown hl' hrun hok
    | true =>
      cases hanswer : s.answerAt 0 with
      | ok =>
        rw [runPass_write_ok hbusy hslot hwrite hanswer] at hrun
        refine ih (hframe.trans (passFrame_writeOk s _ _)) hbusy hrest (fun l' hl' => ?_) hl' hrun hok
        rw [← hframe.cfg] at hknown hsig ⊢
        exact level_outAfter_of_known hsig hknown hl'
      | fault =>
        rw [runPass_write_fault hbusy hslot hwrite hanswer] at hrun
        injection hrun with hrun
        rw [← hrun] at hok
        exact absurd (List.cons_eq_cons.mp hok).1 (by decide)

theorem Out.oe_of_level {cfg : Config} {o : Out} {sense : Sense} (h : o.level cfg .oe = some (cfg.electrical sense)) :
    o.oe = some sense := by
  obtain ⟨sense', hoe, helec⟩ := Option.map_eq_some_iff.mp h
  rw [hoe]
  revert helec
  cases sense <;> cases sense' <;> cases hon : cfg.oeOnLevel <;> simp [Config.electrical, Level.other, hon]

theorem committedLevels_signals (cfg : Config) (row : Nat) (o : Sense) :
    ∀ p ∈ committedLevels cfg row o, p.1 ∈ cfg.signals := by
  simp only [committedLevels, List.forall_mem_cons]
  exact ⟨clk_mem_signals cfg, oe_mem_signals cfg, lat_mem_signals cfg, (rowAddress_group cfg row).mapped⟩

/-- Every bit of the last row's number is 1. -/
theorem rowAddress_last {cfg : Config} (hw : cfg.wf = true) :
    ∀ p ∈ rowAddress cfg (cfg.scanRows - 1), p.2 = .high := by
  obtain ⟨h16 | h32, -⟩ := Config.wf_parts hw
  · rw [rowAddress, h16]; decide
  · rw [rowAddress, h32]; decide

/-- Settles O38: the last row and the closing write settle the control lines. -/
theorem levelsAfterACycle : Obligations.LevelsAfterACycle := by
  intro s t i hw hm hbright hi hexec hok
  obtain ⟨kind, base, hpass⟩ := exists_pass_of_instr hi
  rw [hpass s hw hm] at hexec
  have hlevel : ∀ p ∈ committedLevels s.cfg (s.cfg.scanRows - 1) .off, t.out.level s.cfg p.1 = some p.2 := fun p hp =>
    level_of_runPass_ok (s := s.withMode .busy) (known := none) ⟨rfl, rfl, rfl, rfl, rfl, rfl, rfl⟩ rfl
      (passSlots_inRange s kind base) (committedLevels_signals _ _ _ p hp) nofun
      (passSlots_leave hw hbright kind base p hp none) hexec hok
  simp only [committedLevels, List.forall_mem_cons] at hlevel
  obtain ⟨hclk, hoe, hlat, haddr⟩ := hlevel
  have hhigh : ∀ p ∈ rowAddress s.cfg (s.cfg.scanRows - 1), t.out.level s.cfg p.1 = some .high := fun p hp =>
    rowAddress_last hw p hp ▸ haddr p hp
  simp only [rowAddress, List.forall_mem_append, List.forall_mem_cons] at hhigh
  obtain ⟨⟨ha, hb, hc, hd, -⟩, hf⟩ := hhigh
  refine ⟨hclk, hlat, Out.oe_of_level hoe, ha, hb, hc, hd, fun h32 => ?_⟩
  rw [if_pos h32] at hf
  exact hf _ (List.mem_singleton.mpr rfl)

end Sys2Proof.Machine
end

section
/-! PROOFS. The thresholds of a PWM cycle against a duty (rules R7, R172, R175). -/

namespace Sys2Proof.Machine

/-- Settles O43: the threshold is `(i + 1) * STEP`, and the bound `COUNT` is the premise on `i`. -/
theorem litIterationsOfADuty : Obligations.LitIterationsOfADuty := by
  intro bits i d hlow hhigh hi
  have hpos : 0 < stepOf bits := Nat.two_pow_pos _
  rw [Lit.test, decide_eq_true_iff, (thresholdNeverSaturates bits i hlow hhigh hi).1, lt_min_iff,
    ← Nat.le_div_iff_mul_le hpos, Nat.succ_le_iff, and_iff_right hi]

end Sys2Proof.Machine
end

section
/-! PROOFS. A pass is its reference trace: the sequencer issues the acts its requests stand for, one after the other, up
to the first write answered `fault` (rules R61, R170, R185, R212, R221). -/

namespace Sys2Proof.Machine

/-! One request as an act of the reference trace. -/

/-- The act a request stands for, its levels read from the framebuffer of `s` (rule R56). -/
def Request.act (s : State) : Request → Act
  | .line sig v => .set (namedLevels s [(sig, v)])
  | .word vs => .set (namedLevels s vs)
  | .delay us => .wait us

/-- The request is one the port variant can make: a line write on discrete lines, a word on the parallel port. -/
def Request.FitsPort (cfg : Config) : Request → Prop
  | .line _ _ => cfg.variant = .pins
  | .word _ => cfg.variant = .word
  | .delay _ => True

theorem passSlots_fitsPort (s : State) (kind : PassKind) (base : Nat) :
    ∀ slot ∈ passSlots s kind base, slot.req.FitsPort s.cfg :=
  passSlots_all (P := Request.FitsPort s.cfg) (fun _ => trivial)
    (fun _ _ => driveGroup_all (fun hv _ _ => hv) fun hv => hv) kind base

@[simp] theorem Request.act_isSet (s : State) (q : Request) : (q.act s).isSet = q.isWrite := by
  cases q <;> rfl

theorem Request.act_event {s : State} {q : Request} (hfits : q.FitsPort s.cfg) :
    (q.act s).event s.cfg s.out = q.event s := by
  cases q with
  | line sig v =>
    have hv : s.cfg.variant = .pins := hfits
    simp [Request.act, Act.event, Request.event, namedLevels, hv]
  | word vs =>
    have hv : s.cfg.variant = .word := hfits
    simp [Request.act, Act.event, Request.event, hv]
  | delay us => rfl

theorem Request.act_outAfter {s : State} {q : Request} (hfits : q.FitsPort s.cfg) :
    (q.act s).outAfter s.cfg s.out = q.outAfter s := by
  cases q with
  | line sig v =>
    have hv : s.cfg.variant = .pins := hfits
    simp [Request.act, Act.outAfter, Request.outAfter, namedLevels, hv]
  | word vs =>
    have hv : s.cfg.variant = .word := hfits
    simp [Request.act, Act.outAfter, Request.outAfter, hv]
  | delay us => rfl

/-- During a pass a request keeps its act: no event writes the framebuffer. -/
theorem State.PassFrame.act {s₀ s : State} (h : s₀.PassFrame s) (q : Request) : q.act s = q.act s₀ := by
  cases q with
  | line sig v => exact congrArg Act.set (h.given (.line sig v))
  | word vs => exact congrArg Act.set (h.given (.word vs))
  | delay us => rfl

/-! The state after some acts, every write answered ok. -/

/-- What acts answered ok leave: their events in the trace, their levels in `OUT`, one answer used for each write. -/
def State.afterActs (s : State) (as : List Act) : State :=
  { s with
    out := outAfterActs s.cfg s.out as
    log := (emit s.cfg s.out as).reverse ++ s.log
    answers := s.answers.drop (writeCount as)
    asked := s.asked + writeCount as }

theorem State.afterActs_append (s : State) (as bs : List Act) :
    s.afterActs (as ++ bs) = (s.afterActs as).afterActs bs := by
  simp [State.afterActs, outAfterActs, emit_append, writeCount, Nat.add_assoc]

theorem State.afterActs_answerAt (s : State) (as : List Act) (k : Nat) :
    (s.afterActs as).answerAt k = s.answerAt (writeCount as + k) := by
  simp [State.answerAt, State.afterActs, Nat.add_assoc]

theorem passFrame_afterActs (s : State) (as : List Act) : s.PassFrame (s.afterActs as) :=
  ⟨rfl, rfl, rfl, rfl, rfl, rfl, rfl⟩

/-- A request answered ok leaves what its act leaves. -/
theorem afterActs_act {s : State} {q : Request} (hfits : q.FitsPort s.cfg) :
    s.afterActs [q.act s]
      = if q.isWrite then (s.issueWrite (q.event s)).withOut (q.outAfter s) else s.logEvent (q.event s) := by
  simp only [State.afterActs, outAfterActs, emit, writeCount, List.foldl_cons, List.foldl_nil, List.countP_singleton,
    Request.act_isSet, Request.act_event hfits, Request.act_outAfter hfits]
  cases q with
  | line sig v => simp [State.issueWrite, State.withOut, Request.isWrite]
  | word vs => simp [State.issueWrite, State.withOut, Request.isWrite]
  | delay us => simp [State.logEvent, Request.isWrite, Request.outAfter]

/-! A pass, act by act. -/

section
variable {s : State} {kind : PassKind}

theorem runPass_act {slot : Slot} {rest : List Slot} (hbusy : s.mode = .busy) (hr : slot.req.inRange s.cfg = true)
    (hfits : slot.req.FitsPort s.cfg) (hok : slot.req.isWrite = true → s.answerAt 0 = .ok) :
    runPass (slot :: rest).length (advance kind (slot :: rest) s)
      = runPass rest.length (advance kind rest (s.afterActs [slot.req.act s])) := by
  rw [afterActs_act hfits]
  cases hwrite : slot.req.isWrite with
  | true => exact runPass_write_ok hbusy hr hwrite (hok hwrite)
  | false => exact runPass_delay hbusy hr hwrite

/-- The sequencer passes over events whose writes are all answered ok, by induction on these events. -/
theorem runPass_acts {pre post : List Slot} (hbusy : s.mode = .busy) (hr : ∀ slot ∈ pre, slot.req.inRange s.cfg = true)
    (hfits : ∀ slot ∈ pre, slot.req.FitsPort s.cfg)
    (hok : ∀ k, k < writeCount (pre.map (·.req.act s)) → s.answerAt k = .ok) :
    runPass (pre ++ post).length (advance kind (pre ++ post) s)
      = runPass post.length (advance kind post (s.afterActs (pre.map (·.req.act s)))) := by
  induction pre generalizing s with
  | nil => rfl
  | cons slot rest ih =>
    obtain ⟨hslot, hrest⟩ := List.forall_mem_cons.mp hr
    obtain ⟨hfit, hfitsRest⟩ := List.forall_mem_cons.mp hfits
    have hcount : writeCount ((slot :: rest).map (·.req.act s))
        = writeCount [slot.req.act s] + writeCount (rest.map (·.req.act s)) := List.countP_append (l₁ := [_])
    rw [hcount] at hok
    have hframe := passFrame_afterActs s [slot.req.act s]
    have hacts : rest.map (·.req.act (s.afterActs [slot.req.act s])) = rest.map (·.req.act s) :=
      List.map_congr_left fun later _ => hframe.act later.req
    have hfirst : slot.req.isWrite = true → s.answerAt 0 = .ok := fun hwrite =>
      hok 0 (by simp [writeCount, hwrite])
    have hlater : ∀ k, k < writeCount (rest.map (·.req.act s)) → (s.afterActs [slot.req.act s]).answerAt k = .ok :=
      fun k hk => (State.afterActs_answerAt s _ k).trans (hok _ (Nat.add_lt_add_left hk _))
    rw [← hacts] at hlater
    rw [List.cons_append, runPass_act hbusy hslot hfit hfirst, ih (s := s.afterActs _) hbusy hrest hfitsRest hlater,
      hacts, ← State.afterActs_append]
    rfl

variable {base : Nat}

/-- A pass with every write answered ok issues its acts and ends `OK` (rules R170, R185). -/
theorem runWholePass_ok
    (hok : ∀ k, k < writeCount ((passSlots s kind base).map (·.req.act s)) → s.answerAt k = .ok) :
    runWholePass kind (passSlots s kind base) s
      = .next (done (endPass (s.afterActs ((passSlots s kind base).map (·.req.act s))))) := by
  have hacts := runPass_acts (s := s.withMode .busy) (kind := kind) (post := []) rfl (passSlots_inRange s kind base)
    (passSlots_fitsPort s kind base) hok
  rw [List.append_nil] at hacts
  exact hacts

/-- A pass whose first write answered `fault` is the one after `before` ends there (rules R212, R221). -/
theorem runWholePass_fault {before after : List Act} {vs : List (Signal × Level)}
    (hsplit : (passSlots s kind base).map (·.req.act s) = before ++ .set vs :: after)
    (hok : ∀ k, k < writeCount before → s.answerAt k = .ok) (hfault : s.answerAt (writeCount before) = .fault) :
    runWholePass kind (passSlots s kind base) s
      = .next (raise .pinFault ((s.afterActs before).issueWrite
          (Act.event s.cfg (outAfterActs s.cfg s.out before) (.set vs)))) := by
  obtain ⟨pre, post, hslots, rfl, hpost⟩ := List.map_eq_append_iff.mp hsplit
  obtain ⟨slot, rest, rfl, hact, -⟩ := List.map_eq_cons_iff.mp hpost
  have hr := passSlots_inRange s kind base
  have hfits := passSlots_fitsPort s kind base
  rw [hslots, List.forall_mem_append, List.forall_mem_cons] at hr hfits
  obtain ⟨hrPre, hrSlot, -⟩ := hr
  obtain ⟨hfitsPre, hfitsSlot, -⟩ := hfits
  have hwrite : slot.req.isWrite = true := by rw [← Request.act_isSet s, hact, Act.isSet]
  have hevent : slot.req.event (s.afterActs (pre.map (·.req.act s)))
      = Act.event s.cfg (outAfterActs s.cfg s.out (pre.map (·.req.act s))) (.set vs) := by
    rw [← hact, ← (passFrame_afterActs s (pre.map (·.req.act s))).act slot.req]
    exact (Request.act_event (s := s.afterActs _) hfitsSlot).symm
  rw [hslots, ← hevent]
  refine (runPass_acts (s := s.withMode .busy) rfl hrPre hfitsPre hok).trans ?_
  exact runPass_write_fault (s := (s.withMode .busy).afterActs _) rfl hrSlot hwrite
    ((State.afterActs_answerAt _ _ 0).trans hfault)

end

theorem endPass_of_ready {s : State} (hm : s.mode = .ready) : endPass s = s.withSeq .idle := by
  rw [endPass, ← hm]
  rfl

end Sys2Proof.Machine
end

section
/-! PROOFS. The requests of a PWM cycle stand for the acts of its loop nest (rules R142 to R153, R171). -/

namespace Sys2Proof.Machine

theorem portActs_append (cfg : Config) (as bs : List Act) :
    portActs cfg (as ++ bs) = portActs cfg as ++ portActs cfg bs := List.flatMap_append

theorem portActs_flatMap {α : Type} (cfg : Config) (l : List α) (f : α → List Act) :
    portActs cfg (l.flatMap f) = l.flatMap fun a => portActs cfg (f a) := List.flatMap_assoc

/-- The port splits a group of requests as it splits the group's act (rule R142). -/
theorem act_driveGroup (s : State) (vs : List (Signal × Source)) :
    (driveGroup s.cfg vs).map (·.act s) = portActs s.cfg [.set (namedLevels s vs)] := by
  cases hv : s.cfg.variant with
  | pins => simp [driveGroup, portActs, Act.split, hv, namedLevels, Request.act]
  | word => simp [driveGroup, portActs, Act.split, hv, Request.act]

theorem act_shiftColumn (s : State) (lit : Lit) (row col : Nat) :
    (shiftColumn s.cfg lit row col).map (·.act s) = portActs s.cfg (columnActs s lit.test row col) := by
  simp only [shiftColumn, drive, List.map_append, act_driveGroup, ← portActs_append]
  rfl

theorem act_commitRow (s : State) (row : Nat) :
    (commitRow s.cfg row).map (·.act s) = portActs s.cfg (commitActs s.cfg row) := by
  have hdelay : [Request.delay s.cfg.settleUs].map (·.act s) = portActs s.cfg [.wait s.cfg.settleUs] := rfl
  simp only [commitRow, drive, List.map_append, act_driveGroup, namedLevels_addrLevels, hdelay, ← portActs_append]
  rfl

theorem act_scanRow (s : State) (lit : Lit) (row : Nat) :
    (scanRow s.cfg lit row).map (·.act s) = portActs s.cfg (rowActs s lit.test row) := by
  simp only [scanRow, shiftRow, rowActs, List.map_append, List.map_flatMap, act_shiftColumn, act_commitRow,
    portActs_append, portActs_flatMap]
  rfl

/-- The acts of a PWM cycle are those of the loop nest of rule R171. -/
theorem passSlots_pwm_act (s : State) (base : Nat) :
    (passSlots s .pwm base).map (·.req.act s) = portActs s.cfg (pwmActs s) := by
  have hreq : (passSlots s .pwm base).map (·.req.act s) = ((passSlots s .pwm base).map (·.req)).map (·.act s) := by
    rw [List.map_map]
    rfl
  rw [hreq, passSlots, pwmSlots_req]
  simp only [drive, List.map_append, List.map_flatMap, act_driveGroup, act_scanRow, pwmActs, portActs_append,
    portActs_flatMap]
  rfl

/-- Settles O29: the pass issues the acts of its requests, which are those of the loop nest. -/
theorem pwmIssuesItsCycle : Obligations.PwmIssuesItsCycle := by
  intro s hw hm hok
  rw [← passSlots_pwm_act s 0] at hok ⊢
  refine (execPwm_ready hw hm).trans ((runWholePass_ok hok).trans ?_)
  rw [endPass_of_ready (s := s.afterActs _) hm]
  rfl

/-- Settles O31: the pass issues the acts of its requests up to the first write answered `fault`. -/
theorem pwmStopsAtFirstPinFault : Obligations.PwmStopsAtFirstPinFault := by
  intro s before after vs hw hm hsplit hok hfault
  rw [← passSlots_pwm_act s 0] at hsplit
  refine (execPwm_ready hw hm).trans ((runWholePass_fault hsplit hok hfault).trans ?_)
  rw [raise_pinFault, endPass_of_ready (s := (s.afterActs before).issueWrite _) hm, ← List.tail_drop]
  rfl

end Sys2Proof.Machine
end

section
/-! PROOFS. The size of a PWM cycle, counted on the acts of its loop nest (rule R174). -/

namespace Sys2Proof.Machine

/-! The events of acts. -/

@[simp] theorem emit_length (cfg : Config) (o : Out) (as : List Act) : (emit cfg o as).length = as.length := by
  induction as generalizing o with
  | nil => rfl
  | cons a as ih => simp [emit, ih]

/-- An event only one act issues is issued as often as that act is done. -/
theorem count_emit {cfg : Config} {e : Event} {a₀ : Act} {as : List Act}
    (h : ∀ a ∈ as, ∀ o, a.event cfg o = e ↔ a = a₀) (o : Out) : (emit cfg o as).count e = as.count a₀ := by
  induction as generalizing o with
  | nil => rfl
  | cons a as ih =>
    obtain ⟨ha, hrest⟩ := List.forall_mem_cons.mp h
    simp [emit, List.count_cons, ih hrest, ha o]

/-- A delay is issued by its own act; the model's event of an empty group is a delay of 0. -/
theorem Act.event_eq_delay_iff {cfg : Config} {us : Nat} (hus : us ≠ 0) (a : Act) (o : Out) :
    a.event cfg o = .d us ↔ a = .wait us := by
  cases a with
  | wait n => simp [Act.event]
  | set vs =>
    simp only [Act.event, reduceCtorEq, iff_false]
    split
    · exact nofun
    · simpa using hus.symm
    · exact nofun

/-- On discrete lines a write is issued by the act of its own line. -/
theorem Act.event_eq_write_iff {cfg : Config} (hv : cfg.variant = .pins) {as : List Act} (sig : Signal) (l : Level) :
    ∀ a ∈ portActs cfg as, ∀ o, a.event cfg o = .w sig l ↔ a = .set [(sig, l)] := by
  refine List.forall_mem_flatMap.mpr fun group _ => ?_
  cases group with
  | wait us => simp [Act.split, Act.event]
  | set vs =>
    have hsplit : (Act.set vs).split cfg = vs.map fun p => .set [p] := by simp [Act.split, hv]
    rw [hsplit]
    exact List.forall_mem_map.mpr fun p _ o => by simp [Act.event, hv, Prod.ext_iff]

/-! Counting along the loop nest. -/

theorem countP_flatMap_range {β : Type} {p : β → Bool} {f : Nat → List β} {m : Nat} (h : ∀ i, (f i).countP p = m)
    (n : Nat) : ((List.range n).flatMap f).countP p = n * m := by
  rw [List.countP_flatMap, List.sum_eq_card_nsmul _ m (by simpa using fun i _ => h i)]
  simp

section
variable {s : State} {p : Act → Bool} {column commit edge : Nat}

theorem countP_rowActs (hcolumn : ∀ lit row col, (portActs s.cfg (columnActs s lit row col)).countP p = column)
    (hcommit : ∀ row, (portActs s.cfg (commitActs s.cfg row)).countP p = commit) (lit : Byte → Bool) (row : Nat) :
    (portActs s.cfg (rowActs s lit row)).countP p = column * s.cfg.rowLength + commit := by
  rw [rowActs, portActs_append, portActs_flatMap, List.countP_append, countP_flatMap_range (hcolumn lit row), hcommit,
    Nat.mul_comm]

/-- A count over a PWM cycle, from its counts over a column, a commit and the writes at both ends. -/
theorem countP_pwmActs (hcolumn : ∀ lit row col, (portActs s.cfg (columnActs s lit row col)).countP p = column)
    (hcommit : ∀ row, (portActs s.cfg (commitActs s.cfg row)).countP p = commit)
    (hedge : ∀ l, (portActs s.cfg [.set [(.oe, l)]]).countP p = edge) :
    (portActs s.cfg (pwmActs s)).countP p
      = 2 * edge + s.countReg.toNat * s.cfg.scanRows * (column * s.cfg.rowLength + commit) := by
  simp only [pwmActs, portActs_append, portActs_flatMap, List.countP_append, hedge,
    countP_flatMap_range fun _ => countP_flatMap_range (fun row => countP_rowActs hcolumn hcommit _ row) _]
  ring

end

theorem rowAddress_length (cfg : Config) (row : Nat) : (rowAddress cfg row).length = cfg.nAddr := by
  by_cases h32 : cfg.scanRows = 32
  · simp [rowAddress, Config.nAddr, Config.hasF, h32]
  · simp [rowAddress, Config.nAddr, Config.hasF, h32]

theorem countP_isSet_split_wait (cfg : Config) (us : Nat) : ((Act.wait us).split cfg).countP Act.isSet = 0 := rfl

theorem countP_isSet_split_pins {cfg : Config} (hv : cfg.variant = .pins) (vs : List (Signal × Level)) :
    ((Act.set vs).split cfg).countP Act.isSet = vs.length := by
  simp [Act.split, hv, List.countP_map, Function.comp_def, Act.isSet]

theorem countP_isSet_split_word {cfg : Config} (hv : cfg.variant = .word) (vs : List (Signal × Level)) :
    ((Act.set vs).split cfg).countP Act.isSet = 1 := by
  simp [Act.split, hv, List.countP_cons, Act.isSet]

/-- The writes of a cycle on discrete lines (rule R174). -/
theorem writeCount_pwmActs_pins {s : State} (hv : s.cfg.variant = .pins) :
    writeCount (portActs s.cfg (pwmActs s))
      = 2 + s.countReg.toNat * s.cfg.scanRows * (8 * s.cfg.rowLength + 4 + s.cfg.nAddr) := by
  have hset := countP_isSet_split_pins hv
  rw [writeCount, countP_pwmActs (column := 8) (commit := 4 + s.cfg.nAddr) (edge := 1), Nat.add_assoc (8 * _)]
  · simp [portActs, columnActs, hset]
  · simp +arith [portActs, commitActs, hset, countP_isSet_split_wait, rowAddress_length]
  · simp [portActs, hset]

/-- The writes of a cycle on the parallel port (rule R174). -/
theorem writeCount_pwmActs_word {s : State} (hv : s.cfg.variant = .word) :
    writeCount (portActs s.cfg (pwmActs s))
      = 2 + s.countReg.toNat * s.cfg.scanRows * (3 * s.cfg.rowLength + 5) := by
  have hset := countP_isSet_split_word hv
  rw [writeCount, countP_pwmActs (column := 3) (commit := 5) (edge := 1)]
  · simp [portActs, columnActs, hset]
  · simp [portActs, commitActs, hset, countP_isSet_split_wait]
  · simp [portActs, hset]

/-- A count of the settling delays: three in each scanned row (rules R150, R174). -/
theorem countP_pwmActs_waits (s : State) {p : Act → Bool} (hset : ∀ vs, p (.set vs) = false)
    (hwait : p (.wait s.cfg.settleUs) = true) :
    (portActs s.cfg (pwmActs s)).countP p = 3 * s.countReg.toNat * s.cfg.scanRows := by
  have hgroup : ∀ vs, (Act.split s.cfg (.set vs)).countP p = 0 := fun vs => by
    cases hv : s.cfg.variant with
    | pins => simp [Act.split, hv, hset]
    | word => simp [Act.split, hv, hset]
  have hdelay : (Act.split s.cfg (.wait s.cfg.settleUs)).countP p = 1 := by simp [Act.split, hwait]
  rw [countP_pwmActs (p := p) (column := 0) (commit := 3) (edge := 0)]
  · ring
  all_goals simp [portActs, columnActs, commitActs, hgroup, hdelay]

/-- The clock pulses of a cycle on discrete lines: one in each column (rules R146, R174). -/
theorem count_pwmActs_clock {s : State} (hv : s.cfg.variant = .pins) :
    (portActs s.cfg (pwmActs s)).count (.set [(.clk, .high)])
      = s.countReg.toNat * s.cfg.scanRows * s.cfg.rowLength := by
  rw [List.count, countP_pwmActs (column := 1) (commit := 0) (edge := 0)]
  · ring
  · simp [portActs, columnActs, Act.split, hv]
  · simp [portActs, commitActs, Act.split, hv, rowAddress]
  · simp [portActs, Act.split, hv]

/-- Settles O40: the events of the cycle are those of its loop nest (O29), counted act by act. -/
theorem pwmCycleSize : Obligations.PwmCycleSize := by
  intro s writes hw hm hwrites hok
  have hcount : writeCount (portActs s.cfg (pwmActs s)) = writes := by
    rw [hwrites]
    split
    · exact writeCount_pwmActs_pins ‹_›
    · exact writeCount_pwmActs_word ‹_›
  rw [← hcount] at hok ⊢
  have hsettle : s.cfg.settleUs ≠ 0 := by
    obtain ⟨-, -, -, -, -, -, -, -, h1 | h2⟩ := Config.wf_parts hw
    · simp [h1]
    · simp [h2]
  refine ⟨_, emit s.cfg s.out (portActs s.cfg (pwmActs s)), pwmIssuesItsCycle s hw hm hok, ?_, rfl, ?_, ?_,
    fun hv => ?_⟩
  · simp [State.trace]
  · rw [emit_length, List.length_eq_countP_add_countP Act.isSet]
    exact congrArg _ (countP_pwmActs_waits s (fun _ => rfl) rfl)
  · rw [count_emit (fun a _ => Act.event_eq_delay_iff hsettle a)]
    exact countP_pwmActs_waits s (fun _ => rfl) (beq_self_eq_true _)
  · rw [count_emit (Act.event_eq_write_iff hv .clk .high)]
    exact count_pwmActs_clock hv

end Sys2Proof.Machine
end

section
/-! PROOFS. The requests of a BCM cycle stand for the acts of its loop nest (rules R142 to R153, R186 to R191). -/

namespace Sys2Proof.Machine

/-- The planes the pass scans are those the loop nest counts down (rule R187). -/
theorem planesFrom_eq_planes : ∀ shift : Nat, shift < 8 → planesFrom shift = planes shift := by decide

theorem State.planesFrom_shiftReg (s : State) : planesFrom s.shiftReg.toNat = planes s.shiftReg.toNat :=
  planesFrom_eq_planes _ s.shiftReg.isLt

@[simp] theorem portActs_nil (cfg : Config) : portActs cfg [] = [] := rfl

theorem act_delay_cons (s : State) (us : Nat) (later : List Request) :
    (.delay us :: later).map (·.act s) = portActs s.cfg [.wait us] ++ later.map (·.act s) := rfl

/-- The acts of a BCM cycle are those of the loop nest of rule R186. -/
theorem passSlots_bcm_act (s : State) (base : Nat) :
    (passSlots s .bcm base).map (·.req.act s) = portActs s.cfg (bcmActs s base) := by
  have hreq : (passSlots s .bcm base).map (·.req.act s) = ((passSlots s .bcm base).map (·.req)).map (·.act s) := by
    simp only [List.map_map, Function.comp_def]
  rw [hreq, passSlots, bcmSlots_req, bcmActs, s.planesFrom_shiftReg]
  simp only [drive, List.map_append, List.map_flatMap, act_driveGroup, act_scanRow, act_delay_cons, portActs_append,
    portActs_flatMap]
  cases s.cfg.bcmDwellPerRow with
  | true =>
    simp only [if_true, act_delay_cons, List.map_nil, portActs_nil, List.append_nil]
    rfl
  | false =>
    simp only [Bool.false_eq_true, if_false, act_delay_cons, List.map_nil, portActs_nil, List.append_nil,
      ← List.append_assoc]
    rfl

/-- Settles O30: the pass issues the acts of its requests, which are those of the loop nest. -/
theorem bcmIssuesItsCycle : Obligations.BcmIssuesItsCycle := by
  intro s base hw hm hok
  rw [← passSlots_bcm_act s base] at hok ⊢
  refine (execBcm_ready hw hm base).trans ((runWholePass_ok hok).trans ?_)
  rw [endPass_of_ready (s := s.afterActs _) hm]
  rfl

/-- Settles O32: the pass issues the acts of its requests up to the first write answered `fault`. -/
theorem bcmStopsAtFirstPinFault : Obligations.BcmStopsAtFirstPinFault := by
  intro s base before after vs hw hm hsplit hok hfault
  rw [← passSlots_bcm_act s base] at hsplit
  refine (execBcm_ready hw hm base).trans ((runWholePass_fault hsplit hok hfault).trans ?_)
  rw [raise_pinFault, endPass_of_ready (s := (s.afterActs before).issueWrite _) hm, ← List.tail_drop]
  rfl

end Sys2Proof.Machine
end

section
/-! PROOFS. The planes of a BCM cycle and what they weigh (rules R187, R190, R193). -/

namespace Sys2Proof.Machine

@[simp] theorem planes_length (shift : Nat) : (planes shift).length = 8 - shift := by simp [planes]

theorem planes_getElem? {shift k : Nat} (hk : k < 8 - shift) : (planes shift)[k]? = some (7 - k) := by
  simp [planes, hk]

theorem mem_planes {shift p : Nat} : p ∈ planes shift ↔ shift ≤ p ∧ p < 8 := by
  simp only [planes, List.mem_map, List.mem_range]
  constructor
  · rintro ⟨k, hk, rfl⟩
    omega
  · rintro ⟨hlow, hhigh⟩
    exact ⟨7 - p, by omega, by omega⟩

/-- One bit more of brightness adds one plane, scanned last. -/
theorem planes_eq_append {shift : Nat} (h : shift < 8) : planes shift = planes (shift + 1) ++ [shift] := by
  have hcount : 8 - shift = 8 - (shift + 1) + 1 := by omega
  have hlast : 7 - (8 - (shift + 1)) = shift := by omega
  rw [planes, hcount, List.range_succ, List.map_append, List.map_singleton, hlast, planes]

/-- The planes weighted as rule R193 weighs them: plane `p` counts `a p` times `2^(p - shift)`. -/
def planeSum (a : Nat → Nat) (shift : Nat) : Nat := ((planes shift).map fun p => a p * 2 ^ (p - shift)).sum

/-- One plane more doubles the weights of the planes before it. -/
theorem planeSum_succ (a : Nat → Nat) {shift : Nat} (h : shift < 8) :
    planeSum a shift = 2 * planeSum a (shift + 1) + a shift := by
  have hdouble : ∀ p ∈ planes (shift + 1), a p * 2 ^ (p - shift) = 2 * (a p * 2 ^ (p - (shift + 1))) := fun p hp => by
    obtain ⟨hlow, -⟩ := mem_planes.mp hp
    have hexp : p - shift = p - (shift + 1) + 1 := by omega
    rw [hexp, pow_succ]
    ring
  rw [planeSum, planes_eq_append h, List.map_append, List.sum_append, List.map_congr_left hdouble,
    List.sum_map_mul_left, planeSum]
  simp

theorem shiftOf_lt {bits : Nat} (h : bits < 8) : shiftOf (bits + 1) < 8 := by
  rw [shiftOf]
  omega

theorem shiftOf_succ {bits : Nat} (h : bits < 8) : shiftOf (bits + 1) + 1 = shiftOf bits := by
  simp only [shiftOf]
  omega

/-- The planes in which a duty is lit weigh its top bits, by induction on the number of planes (rule R193). -/
theorem planeSum_testBit (d : Byte) {bits : Nat} (h : bits ≤ 8) :
    planeSum (fun p => (d.toNat.testBit p).toNat) (shiftOf bits) = d.toNat / 2 ^ shiftOf bits := by
  induction bits with
  | zero => exact (Nat.div_eq_of_lt d.isLt).symm
  | succ bits ih =>
    rw [planeSum_succ _ (shiftOf_lt h), shiftOf_succ h, ih (Nat.le_of_lt h), ← shiftOf_succ h, pow_succ,
      ← Nat.div_div_eq_div_mul, Nat.toNat_testBit, Nat.div_add_mod]

/-- The dwells of a cycle sum to `base * COUNT`, by induction on the number of planes (rule R190). -/
theorem planeSum_const (base : Nat) {bits : Nat} (h : bits ≤ 8) :
    planeSum (fun _ => base) (shiftOf bits) = base * countOf bits := by
  induction bits with
  | zero => rfl
  | succ bits ih =>
    have hcount : countOf (bits + 1) = 2 * countOf bits + 1 := by
      have hpos := Nat.two_pow_pos bits
      simp only [countOf, pow_succ]
      omega
    rw [planeSum_succ _ (shiftOf_lt h), shiftOf_succ h, ih (Nat.le_of_lt h), hcount]
    ring

/-- Settles O44: the planes are counted down from 7, and their weights sum by `planeSum_testBit`. -/
theorem planeWeightsOfADuty : Obligations.PlaneWeightsOfADuty := by
  intro bits d _ hhigh
  have hcount : 8 - shiftOf bits = bits := Nat.sub_sub_self hhigh
  refine ⟨by rw [planes_length, hcount], fun k hk => planes_getElem? (hcount.symm ▸ hk), ?_⟩
  rw [← planeSum_testBit d hhigh, planeSum]
  refine congrArg List.sum (List.map_congr_left fun p _ => ?_)
  rw [Lit.test, BitVec.getLsbD]
  cases d.toNat.testBit p <;> simp

/-- Settles O45: a plane's exponent is one more than the next one's, and the dwells sum by `planeSum_const`. -/
theorem dwellsOfACycle : Obligations.DwellsOfACycle := by
  intro bits base _ hhigh
  refine ⟨fun p hp _ => ?_, ?_, planeSum_const base hhigh⟩
  · rw [dwell, dwell, Nat.sub_add_comm hp, pow_succ]
    ring
  · simp [dwell]

end Sys2Proof.Machine
end

section
/-! PROOFS. The size of a BCM cycle, counted on the acts of its loop nest (rule R192). -/

namespace Sys2Proof.Machine

/-! Counts over a scanned row. -/

/-- The writes of a scanned row on discrete lines (rules R146, R148). -/
theorem writeCount_rowActs_pins {s : State} (hv : s.cfg.variant = .pins) (lit : Byte → Bool) (row : Nat) :
    writeCount (portActs s.cfg (rowActs s lit row)) = 8 * s.cfg.rowLength + 4 + s.cfg.nAddr := by
  have hset := countP_isSet_split_pins hv
  rw [writeCount, countP_rowActs (column := 8) (commit := 4 + s.cfg.nAddr), Nat.add_assoc]
  · simp [portActs, columnActs, hset]
  · simp +arith [portActs, commitActs, hset, countP_isSet_split_wait, rowAddress_length]

/-- The writes of a scanned row on the parallel port (rules R146, R148). -/
theorem writeCount_rowActs_word {s : State} (hv : s.cfg.variant = .word) (lit : Byte → Bool) (row : Nat) :
    writeCount (portActs s.cfg (rowActs s lit row)) = 3 * s.cfg.rowLength + 5 := by
  have hset := countP_isSet_split_word hv
  rw [writeCount, countP_rowActs (column := 3) (commit := 5)]
  · simp [portActs, columnActs, hset]
  · simp [portActs, commitActs, hset, countP_isSet_split_wait]

/-- The port makes no delay of a write. -/
theorem countP_not_isSet_split_set (cfg : Config) (vs : List (Signal × Level)) :
    ((Act.set vs).split cfg).countP (fun a => !a.isSet) = 0 := by
  cases hv : cfg.variant with
  | pins => simp [Act.split, hv, Act.isSet]
  | word => simp [Act.split, hv, Act.isSet]

theorem countP_not_isSet_split_wait (cfg : Config) (us : Nat) :
    ((Act.wait us).split cfg).countP (fun a => !a.isSet) = 1 := rfl

/-- The settling delays of a scanned row (rules R148, R150). -/
theorem countP_not_isSet_rowActs (s : State) (lit : Byte → Bool) (row : Nat) :
    (portActs s.cfg (rowActs s lit row)).countP (fun a => !a.isSet) = 3 := by
  rw [countP_rowActs (column := 0) (commit := 3)]
  · simp
  · simp [portActs, columnActs, countP_not_isSet_split_set]
  · simp [portActs, commitActs, countP_not_isSet_split_set, countP_not_isSet_split_wait]

/-- The clock pulses of a scanned row on discrete lines: one in each column (rule R146). -/
theorem count_clock_rowActs {s : State} (hv : s.cfg.variant = .pins) (lit : Byte → Bool) (row : Nat) :
    (portActs s.cfg (rowActs s lit row)).count (.set [(.clk, .high)]) = s.cfg.rowLength := by
  rw [List.count, countP_rowActs (column := 1) (commit := 0)]
  · simp
  · simp [portActs, columnActs, Act.split, hv]
  · simp [portActs, commitActs, Act.split, hv, rowAddress]

/-! Counts over a cycle. -/

/-- The delays of one plane outside its scanned rows: the tail delay, and the dwell after each row or once (rules R189,
R190). -/
def planePauses (cfg : Config) : Nat := if cfg.bcmDwellPerRow then cfg.scanRows + 1 else 2

/-- A count over a BCM cycle, from its counts over a scanned row, a write of `OE` and a delay outside the rows. -/
theorem countP_bcmActs {s : State} {p : Act → Bool} {scanned edge pause : Nat}
    (hrow : ∀ lit row, (portActs s.cfg (rowActs s lit row)).countP p = scanned)
    (hedge : (portActs s.cfg [.set [(.oe, s.cfg.electrical .off)]]).countP p = edge)
    (hpause : ∀ us, (portActs s.cfg [.wait us]).countP p = pause) (base : Nat) :
    (portActs s.cfg (bcmActs s base)).countP p
      = edge + (8 - s.shiftReg.toNat) * (edge + s.cfg.scanRows * scanned + planePauses s.cfg * pause) := by
  rw [bcmActs, s.planesFrom_shiftReg, planes, List.flatMap_map, portActs_append, portActs_flatMap,
    List.countP_append, hedge, countP_flatMap_range fun _ => ?_, Nat.add_comm]
  simp only [portActs_append, portActs_flatMap, List.countP_append, hedge, hpause, planePauses]
  cases s.cfg.bcmDwellPerRow with
  | true =>
    simp only [if_true, portActs_nil, List.countP_nil]
    rw [countP_flatMap_range fun row => by rw [List.countP_append, hrow, hpause]]
    ring
  | false =>
    simp only [Bool.false_eq_true, if_false, portActs_nil, List.append_nil, hpause]
    rw [countP_flatMap_range fun row => hrow _ row]
    ring

/-- The writes of a cycle on discrete lines (rule R192). -/
theorem writeCount_bcmActs_pins {s : State} (hv : s.cfg.variant = .pins) (base : Nat) :
    writeCount (portActs s.cfg (bcmActs s base))
      = 1 + (8 - s.shiftReg.toNat) * (1 + s.cfg.scanRows * (8 * s.cfg.rowLength + 4 + s.cfg.nAddr)) := by
  rw [writeCount, countP_bcmActs (edge := 1) (pause := 0) (writeCount_rowActs_pins hv), Nat.mul_zero, Nat.add_zero]
  · simp [portActs, countP_isSet_split_pins hv]
  · simp [portActs, countP_isSet_split_wait]

/-- The writes of a cycle on the parallel port (rule R192). -/
theorem writeCount_bcmActs_word {s : State} (hv : s.cfg.variant = .word) (base : Nat) :
    writeCount (portActs s.cfg (bcmActs s base))
      = 1 + (8 - s.shiftReg.toNat) * (1 + s.cfg.scanRows * (3 * s.cfg.rowLength + 5)) := by
  rw [writeCount, countP_bcmActs (edge := 1) (pause := 0) (writeCount_rowActs_word hv), Nat.mul_zero, Nat.add_zero]
  · simp [portActs, countP_isSet_split_word hv]
  · simp [portActs, countP_isSet_split_wait]

/-- The delays of a cycle: those of its rows, and the pauses of each plane (rules R150, R189, R190, R192). -/
theorem countP_not_isSet_bcmActs (s : State) (base : Nat) :
    (portActs s.cfg (bcmActs s base)).countP (fun a => !a.isSet)
      = (8 - s.shiftReg.toNat) * (3 * s.cfg.scanRows + planePauses s.cfg) := by
  rw [countP_bcmActs (edge := 0) (pause := 1) (countP_not_isSet_rowActs s)]
  · ring
  · simp [portActs, countP_not_isSet_split_set]
  · simp [portActs, countP_not_isSet_split_wait]

/-- The clock pulses of a cycle on discrete lines (rule R192). -/
theorem count_clock_bcmActs {s : State} (hv : s.cfg.variant = .pins) (base : Nat) :
    (portActs s.cfg (bcmActs s base)).count (.set [(.clk, .high)])
      = (8 - s.shiftReg.toNat) * s.cfg.scanRows * s.cfg.rowLength := by
  rw [List.count, countP_bcmActs (edge := 0) (pause := 0) (count_clock_rowActs hv)]
  · ring
  · simp [portActs, Act.split, hv]
  · simp [portActs, Act.split]

/-- The planes of a constructed block are `BITS` in number (rules R7, R187). -/
theorem State.brightnessOk.planeCount {s : State} (h : s.brightnessOk) : 8 - s.shiftReg.toNat = s.bitsReg.toNat := by
  obtain ⟨-, hbits, -, -, hshift⟩ := h
  rw [hshift, Nat.sub_sub_self hbits]

/-- Settles O41: the events of the cycle are those of its loop nest (O30), counted act by act. -/
theorem bcmCycleSize : Obligations.BcmCycleSize := by
  intro s base writes hw hm hbright hwrites hok
  have hcount : writeCount (portActs s.cfg (bcmActs s base)) = writes := by
    rw [hwrites, ← hbright.planeCount]
    split
    · exact writeCount_bcmActs_pins ‹_› base
    · exact writeCount_bcmActs_word ‹_› base
  rw [← hcount] at hok ⊢
  refine ⟨_, emit s.cfg s.out (portActs s.cfg (bcmActs s base)), bcmIssuesItsCycle s base hw hm hok, ?_, rfl, ?_,
    fun hv => ?_⟩
  · simp [State.trace]
  · rw [emit_length, List.length_eq_countP_add_countP Act.isSet]
    refine congrArg (writeCount _ + ·) ?_
    simp only [Bool.not_eq_true, Bool.decide_eq_false]
    rw [countP_not_isSet_bcmActs, hbright.planeCount, planePauses]
    split
    · ring
    · rfl
  · rw [count_emit (Act.event_eq_write_iff hv .clk .high), count_clock_bcmActs hv, hbright.planeCount]

end Sys2Proof.Machine
end

section
/-! PROOFS. A legal INIT constructs the block, and its frame (rules R24, R200, R202). -/

namespace Sys2Proof.Machine

theorem bitsLegal_iff {bits : Byte} : bitsLegal bits = true ↔ 1 ≤ bits.toNat ∧ bits.toNat ≤ 8 := by
  simp only [bitsLegal, Bool.and_eq_true, decide_eq_true_eq]

/-- `BITS` is the operand, which its four bits hold (rules R7, R200). -/
theorem construct_bitsReg_toNat {bits : Nat} (h8 : bits ≤ 8) (s : State) : (construct bits s).bitsReg.toNat = bits :=
  Nat.mod_eq_of_lt (by omega)

/-- A legal INIT before construction constructs and answers `OK` (rule R200). -/
theorem execInit_legal {s : State} {bits : Byte} (hw : s.cfg.wf = true) (hm : s.mode = .unconstructed)
    (h1 : 1 ≤ bits.toNat) (h8 : bits.toNat ≤ 8) : execInit bits s = .next (done (construct bits.toNat s)) := by
  rw [execInit, inUnconstructed_unconstructed hw hm, if_pos (bitsLegal_iff.mpr ⟨h1, h8⟩)]

/-- The framebuffer of zeros lists no entry (rule R24). -/
theorem construct_fb (bits : Nat) (s : State) : (construct bits s).fb = [] := rfl

/-- Settles O13: the registers by `construct_brightnessOk`, the framebuffer by `construct_fb`; the frame is as `construct`
leaves it. -/
theorem initConstructs : Obligations.InitConstructs := by
  intro s bits hw hm h1 h8
  have hbits := construct_bitsReg_toNat h8 s
  obtain ⟨-, -, hstep, hcount, hshift⟩ := construct_brightnessOk h1 h8 s
  rw [hbits] at hstep hcount hshift
  have hfb : (done (construct bits.toNat s)).fb = [] := construct_fb bits.toNat s
  refine ⟨done (construct bits.toNat s), execInit_legal hw hm h1 h8, hbits, hstep, hcount, hshift, ?zeros, ?canonical,
    rfl, rfl, rfl, rfl, rfl, rfl, rfl, rfl, rfl⟩
  case zeros => rw [hfb]; exact Memory.read_nil
  case canonical => rw [hfb]; exact ⟨List.Pairwise.nil, List.forall_mem_nil _⟩

end Sys2Proof.Machine
end

section
/-! PROOFS. Which command is allowed in which mode, and what it is answered (rules R211, R214, R218, R221, R226). -/

namespace Sys2Proof.Machine

/-! Where a command is not allowed (rules R203, R214, R226). -/

theorem inReady_busy {s : State} {body : State → Result} (hw : s.cfg.wf = true) (hm : s.mode = .busy) :
    inReady s body = .refused .portClosed := by simp [inReady, hw, hm]

theorem inUnconstructed_busy {s : State} {body : State → Result} (hw : s.cfg.wf = true) (hm : s.mode = .busy) :
    inUnconstructed s body = .refused .portClosed := by simp [inUnconstructed, hw, hm]

/-- Every command but INIT needs `READY`: what the check of the mode answers for every body, it answers (rule R214). -/
theorem exec_eq_of_inReady {s : State} {i : Instr} {r : Result} (hi : ∀ bits, i ≠ .init bits)
    (h : ∀ body, inReady s body = r) : exec i s = r := by
  cases i with
  | init bits => exact absurd rfl (hi bits)
  | wrpix x y r g b => simp only [exec, execWrpix, h]
  | clear r g b => simp only [exec, execClear, h]
  | clrd => simp only [exec, execClrd, h]
  | size => simp only [exec, execSize, h]
  | pwm => simp only [exec, execPwm, h]
  | bcm base => simp only [exec, execBcm, h]

theorem exec_unconstructed {s : State} {i : Instr} (hw : s.cfg.wf = true) (hm : s.mode = .unconstructed)
    (hi : ∀ bits, i ≠ .init bits) : exec i s = .next (raise .badState s) :=
  exec_eq_of_inReady hi fun _ => inReady_unconstructed hw hm

theorem execInit_ready {s : State} (hw : s.cfg.wf = true) (hm : s.mode = .ready) (bits : Byte) :
    execInit bits s = .next (raise .badState s) :=
  inUnconstructed_ready hw hm

theorem exec_busy {s : State} (hw : s.cfg.wf = true) (hm : s.mode = .busy) (i : Instr) :
    exec i s = .refused .portClosed := by
  by_cases hi : ∃ bits, i = .init bits
  · obtain ⟨bits, rfl⟩ := hi
    simp only [exec, execInit, inUnconstructed_busy hw hm]
  · exact exec_eq_of_inReady (not_exists.mp hi) fun _ => inReady_busy hw hm

theorem bitsLegal_eq_false_iff {bits : Byte} : bitsLegal bits = false ↔ bits.toNat = 0 ∨ 8 < bits.toNat := by
  rw [← Bool.not_eq_true, bitsLegal_iff]
  omega

/-- An INIT before construction whose operand is illegal (rules R201, R211). -/
theorem execInit_illegal {s : State} {bits : Byte} (hw : s.cfg.wf = true) (hm : s.mode = .unconstructed)
    (hbits : bits.toNat = 0 ∨ 8 < bits.toNat) : execInit bits s = .next (raise .configError s) := by
  rw [execInit, inUnconstructed_unconstructed hw hm, bitsLegal_eq_false_iff.mpr hbits]
  rfl

/-! How a pass ends (rules R170, R185, R221). -/

/-- The statuses a command allowed in `READY` can end with. -/
def Status.EndsWork (status : Status) : Prop := status = .ok ∨ status = .error .pinFault

theorem Status.EndsWork.code_ne {status : Status} (h : status.EndsWork) : status.code ≠ 0x01#8 ∧ status.code ≠ 0x04#8 := by
  rcases h with rfl | rfl
  · decide
  · decide

/-- How far a pass that `s` is in, or starts, is in `t`: going on with no response yet, or over with its one response. -/
inductive PassProgress (s t : State) : Prop
  | running : t.mode = .busy → t.responses = s.responses → PassProgress s t
  | ended (status : Status) : t.mode = .ready → status.EndsWork →
      t.responses = responseWord status 0 :: s.responses → PassProgress s t

theorem passProgress_advance (kind : PassKind) (later : List Slot) {s : State} (hbusy : s.mode = .busy) :
    PassProgress s (advance kind later s) := by
  cases later with
  | nil => exact .ended .ok rfl (.inl rfl) rfl
  | cons slot rest => exact .running hbusy rfl

theorem PassProgress.of_responses_eq {s s' t : State} (h : PassProgress s' t) (hresponses : s'.responses = s.responses) :
    PassProgress s t := by
  cases h with
  | running hmode hsame => exact .running hmode (hsame.trans hresponses)
  | ended status hmode hends hmore => exact .ended status hmode hends (hresponses ▸ hmore)

theorem passProgress_passStep {s t : State} (hbusy : s.mode = .busy) (h : passStep s = .next t) : PassProgress s t := by
  obtain ⟨kind, now, later, -, -, ⟨-, -, rfl⟩ | ⟨-, -, rfl⟩ | ⟨-, rfl⟩⟩ := passStep_next h
  · exact (passProgress_advance kind later (s := (s.issueWrite _).withOut _) hbusy).of_responses_eq rfl
  · exact .ended (.error .pinFault) rfl (.inr rfl) rfl
  · exact (passProgress_advance kind later (s := s.logEvent _) hbusy).of_responses_eq rfl

theorem passProgress_runWholePass {kind : PassKind} {slots : List Slot} {s t : State}
    (h : runWholePass kind slots s = .next t) : PassProgress s t := by
  refine runPass_induct (P := PassProgress s) (fun u v hbusy hu hstep => ?_)
    ((passProgress_advance kind slots (s := s.withMode .busy) rfl).of_responses_eq rfl) h
  cases hu with
  | running _ hsame => exact (passProgress_passStep hbusy hstep).of_responses_eq hsame
  | ended _ hready _ _ => cases hbusy.symm.trans hready

/-- A whole pass runs to its end: it leaves the block `READY`, with one response more. -/
theorem exists_runWholePass_ended (s : State) (kind : PassKind) (base : Nat) :
    ∃ t status, runWholePass kind (passSlots s kind base) s = .next t ∧ t.mode = .ready ∧ status.EndsWork
      ∧ t.responses = responseWord status 0 :: s.responses := by
  obtain ⟨t, -, -, hnext, -, -, hmode, -⟩ := answers_runWholePass True s kind base
  cases passProgress_runWholePass hnext with
  | running hbusy _ => exact absurd hbusy hmode
  | ended status hready hends hresponses => exact ⟨t, status, hnext, hready, hends, hresponses⟩

/-! What a command that is allowed is answered. -/

theorem exec_ready {s : State} {i : Instr} (hw : s.cfg.wf = true) (hm : s.mode = .ready) (hi : ∀ bits, i ≠ .init bits) :
    ∃ t status payload, exec i s = .next t ∧ t.responses = responseWord status payload :: s.responses
      ∧ status.EndsWork := by
  have hpass (kind : PassKind) (base : Nat) : ∃ t status payload,
      runWholePass kind (passSlots s kind base) s = .next t ∧ t.responses = responseWord status payload :: s.responses
        ∧ status.EndsWork := by
    obtain ⟨t, status, hnext, -, hends, hresponses⟩ := exists_runWholePass_ended s kind base
    exact ⟨t, status, 0, hnext, hresponses, hends⟩
  cases i with
  | init bits => exact absurd rfl (hi bits)
  | wrpix x y r g b => exact ⟨_, .ok, 0, execWrpix_ready hw hm ⟨x, y, r, g, b⟩, rfl, .inl rfl⟩
  | clear r g b => exact ⟨_, .ok, 0, execClear_ready hw hm r g b, rfl, .inl rfl⟩
  | clrd => exact ⟨_, .ok, 0, execClrd_ready hw hm, rfl, .inl rfl⟩
  | size => exact ⟨_, .ok, _, execSize_ready hw hm, rfl, .inl rfl⟩
  | pwm => rw [exec, execPwm_ready hw hm]; exact hpass .pwm 0
  | bcm base => rw [exec, execBcm_ready hw hm]; exact hpass .bcm base

/-- The command is allowed in the mode of the block (rule R214). -/
def State.Allows (s : State) (i : Instr) : Prop :=
  (s.mode = .unconstructed ∧ ∃ bits, i = .init bits) ∨ (s.mode = .ready ∧ ∀ bits, i ≠ .init bits)

theorem exec_of_not_allows {s : State} {i : Instr} (hw : s.cfg.wf = true) (hm : s.mode ≠ .busy) (hno : ¬ s.Allows i) :
    exec i s = .next (raise .badState s) := by
  simp only [State.Allows, not_or, not_and] at hno
  obtain ⟨hnotInit, hinit⟩ := hno
  cases hmode : s.mode with
  | unconstructed => exact exec_unconstructed hw hmode (not_exists.mp (hnotInit hmode))
  | busy => exact absurd hmode hm
  | ready =>
    obtain ⟨bits, hbits⟩ := not_forall_not.mp (hinit hmode)
    rw [hbits]
    exact execInit_ready hw hmode bits

/-- A command that is allowed is never answered `BadState`, and `ConfigError` only as an INIT with an illegal operand. -/
theorem exec_of_allows {s : State} {i : Instr} (hw : s.cfg.wf = true) (hallows : s.Allows i) :
    ∃ t status payload, exec i s = .next t ∧ t.responses = responseWord status payload :: s.responses
      ∧ status.code ≠ 0x04#8
      ∧ (status.code = 0x01#8 → ∃ bits : Byte, i = .init bits ∧ (bits.toNat = 0 ∨ 8 < bits.toNat)) := by
  rcases hallows with ⟨hm, bits, rfl⟩ | ⟨hm, hi⟩
  · by_cases hbits : bits.toNat = 0 ∨ 8 < bits.toNat
    · exact ⟨_, .error .configError, 0, execInit_illegal hw hm hbits, rfl, by decide, fun _ => ⟨bits, rfl, hbits⟩⟩
    · obtain ⟨h1, h8⟩ : 1 ≤ bits.toNat ∧ bits.toNat ≤ 8 := by omega
      exact ⟨_, .ok, 0, execInit_legal hw hm h1 h8, rfl, by decide, fun hcode => absurd hcode (by decide)⟩
  · obtain ⟨t, status, payload, hnext, hresponses, hends⟩ := exec_ready hw hm hi
    obtain ⟨hconfig, hbad⟩ := hends.code_ne
    exact ⟨t, status, payload, hnext, hresponses, hbad, fun hcode => absurd hcode hconfig⟩

/-- Settles O14: a command that is not allowed is answered `BadState`; the rest is `exec_of_allows`. -/
theorem configErrorExactlyForIllegalBits : Obligations.ConfigErrorExactlyForIllegalBits := by
  intro s hw
  refine ⟨fun bits hm hbits => execInit_illegal hw hm hbits, fun i t word hnext hword hcode => ?_⟩
  by_cases hbusy : s.mode = .busy
  · cases (exec_busy hw hbusy i).symm.trans hnext
  · by_cases hallows : s.Allows i
    · obtain ⟨t', status, payload, hnext', hresponses, -, hconfig⟩ := exec_of_allows hw hallows
      cases hnext.symm.trans hnext'
      cases hword.symm.trans hresponses
      exact hconfig (by rwa [responseWord_status] at hcode)
    · cases hnext.symm.trans (exec_of_not_allows hw hbusy hallows)
      cases hword
      exact absurd hcode (by decide)

/-- Settles O15: one lemma for each kind of cell of the table. -/
theorem lifecycleTable : Obligations.LifecycleTable := by
  intro s i hw
  refine ⟨fun hm hi => exec_unconstructed hw hm hi, ?inReady, fun hm => exec_busy hw hm i, fun hallows => ?allowed⟩
  case inReady =>
    rintro hm ⟨bits, rfl⟩
    exact execInit_ready hw hm bits
  case allowed =>
    obtain ⟨t, status, payload, hnext, hresponses, hbad, -⟩ := exec_of_allows hw hallows
    exact ⟨t, responseWord status payload, hnext, hresponses, by rwa [responseWord_status]⟩

end Sys2Proof.Machine
end

section
/-! PROOFS. How `MODE` moves (rule R224). -/

namespace Sys2Proof.Machine

theorem CommandEffect.mode {s t : State} (heffect : CommandEffect s t) : t.mode = s.mode ∨ t.mode = .ready := by
  cases heffect with
  | answered status payload => exact .inl rfl
  | constructed bits _ _ _ => exact .inr rfl
  | stored ws _ _ => exact .inl rfl
  | scanned kind base _ _ hrun =>
    obtain ⟨t', -, hnext, hready, -⟩ := exists_runWholePass_ended s kind base
    cases hrun.symm.trans hnext
    exact .inr hready

/-- A step keeps the mode or ends in `READY`. -/
theorem mode_step {s t : State} (h : step s = .next t) : t.mode = s.mode ∨ t.mode = .ready := by
  rcases step_next h with ⟨hbusy, hpass⟩ | ⟨-, rfl⟩ | ⟨cw, rest, -, heffect⟩
  · cases passProgress_passStep hbusy hpass with
    | running hstill _ => exact .inl (hstill.trans hbusy.symm)
    | ended _ hready _ _ => exact .inr hready
  · exact .inl rfl
  · exact heffect.mode

/-- The one command that leaves `UNCONSTRUCTED` is a legal INIT: every other is answered with an error alone. -/
theorem legal_init_of_exec_leaves_unconstructed {s t : State} {i : Instr} (hw : s.cfg.wf = true)
    (hm : s.mode = .unconstructed) (h : exec i s = .next t) (hleft : t.mode ≠ .unconstructed) :
    ∃ bits : Byte, i = .init bits ∧ 1 ≤ bits.toNat ∧ bits.toNat ≤ 8 := by
  by_cases hi : ∃ bits, i = .init bits
  · obtain ⟨bits, rfl⟩ := hi
    by_cases hbits : bits.toNat = 0 ∨ 8 < bits.toNat
    · cases h.symm.trans (execInit_illegal hw hm hbits)
      exact absurd hm hleft
    · exact ⟨bits, rfl, by omega⟩
  · cases h.symm.trans (exec_unconstructed hw hm (not_exists.mp hi))
    exact absurd hm hleft

/-- A step that leaves `UNCONSTRUCTED` takes a word, which decodes to that command. -/
theorem legal_init_of_step_leaves_unconstructed {s t : State} (hm : s.mode = .unconstructed) (h : step s = .next t)
    (hleft : t.mode ≠ .unconstructed) :
    ∃ cw rest, ∃ bits : Byte, s.port = cw :: rest ∧ decode cw = .ok (.init bits) ∧ 1 ≤ bits.toNat ∧ bits.toNat ≤ 8 := by
  have hbusy : s.mode ≠ .busy := by simp [hm]
  cases hw : s.cfg.wf with
  | false => cases (step_illFormed hw).symm.trans h
  | true =>
    cases hp : s.port with
    | nil =>
      cases h.symm.trans (step_of_port_nil hw hbusy hp)
      exact absurd hm hleft
    | cons cw rest =>
      cases hd : decode cw with
      | error e =>
        cases h.symm.trans (step_of_decode_error hw hbusy hp hd)
        exact absurd hm hleft
      | ok i =>
        rw [step_of_decode_ok hw hbusy hp hd] at h
        obtain ⟨bits, rfl, hlegal⟩ := legal_init_of_exec_leaves_unconstructed (s := s.withPort rest) hw hm h hleft
        exact ⟨cw, rest, bits, rfl, hd, hlegal⟩

/-- Settles O16: a step keeps the mode or ends in `READY`; out of `UNCONSTRUCTED` by the one command that can. -/
theorem modeTransitions : Obligations.ModeTransitions := by
  intro s t h
  have hmode := mode_step h
  have hkept {m : Mode} (hne : m ≠ .ready) (ht : t.mode = m) : s.mode = m :=
    (hmode.resolve_right (ht ▸ hne)).symm.trans ht
  refine ⟨hkept (by decide), hkept (by decide), fun hm hleft => ?_⟩
  obtain ⟨cw, rest, bits, hp, hd, h1, h8⟩ := legal_init_of_step_leaves_unconstructed hm h hleft
  exact ⟨cw, rest, bits, hp, hd, h1, h8, hmode.resolve_left (hm ▸ hleft)⟩

end Sys2Proof.Machine
end

section
/-! PROOFS. The step with no word presented, the port while `BUSY`, and the fault that ends a pass (rules R212, R221, R226,
R230). -/

namespace Sys2Proof.Machine

/-- Settles O8: the step has no word to take. -/
theorem idleBlockHoldsItsState : Obligations.IdleBlockHoldsItsState :=
  fun _ hw hm hp => step_of_port_nil hw hm hp

/-- Settles O11: the mode is checked before a command's own work, and no event of a pass writes the port. -/
theorem busyPortAcceptsNoWord : Obligations.BusyPortAcceptsNoWord := fun _ hw hm =>
  ⟨exec_busy hw hm, fun _ h => (passFrame_passStep ((step_of_busy hw hm).symm.trans h)).port⟩

/-- Settles O35: the step is the pass's next event, a write answered `fault`. -/
theorem pinFaultEndsThePass : Obligations.PinFaultEndsThePass := fun _ _ _ _ hw hm hseq hr hwrite hanswer =>
  (step_of_busy hw hm).trans (passStep_fault hseq hr hwrite hanswer)

end Sys2Proof.Machine
end

section
/-! PROOFS. The state after power-up (rules R37, R240, R242). -/

namespace Sys2Proof.Machine

/-- Every field of `OUT` is unknown, whatever level output-enable has for `on`. -/
@[simp] theorem Out.level_unknown (cfg : Config) (sig : Signal) : Out.unknown.level cfg sig = none := by
  cases sig <;> rfl

/-- Settles O47: the fields of the state after power-up, each as it is written down there. -/
theorem powerUpState : Obligations.PowerUpState := fun cfg _ =>
  ⟨rfl, rfl, Out.level_unknown cfg, rfl, rfl, rfl, rfl⟩

end Sys2Proof.Machine
end

section
/-! PROOFS. The latch and the address lines are written only while output is off (rule R251). -/

namespace Sys2Proof.Machine

/-! The events of a pass: those of its acts, up to the first write answered `fault`. -/

theorem State.afterActs_trace (s : State) (as : List Act) :
    (s.afterActs as).trace = s.trace ++ emit s.cfg s.out as := by
  simp [State.trace, State.afterActs]

/-- Whatever the answers, a pass issues a first part of the events of its acts: by induction on the events that are
left. -/
theorem exists_prefix_trace_runPass {s t : State} {kind : PassKind} {slots : List Slot} (hbusy : s.mode = .busy)
    (hr : ∀ slot ∈ slots, slot.req.inRange s.cfg = true) (hfits : ∀ slot ∈ slots, slot.req.FitsPort s.cfg)
    (hrun : runPass slots.length (advance kind slots s) = .next t) :
    ∃ es, t.trace = s.trace ++ es ∧ es <+: emit s.cfg s.out (slots.map (·.req.act s)) := by
  induction slots generalizing s with
  | nil =>
    injection hrun with hrun
    exact ⟨[], by simp [← hrun, advance_nil], List.nil_prefix⟩
  | cons slot rest ih =>
    obtain ⟨hslot, hrest⟩ := List.forall_mem_cons.mp hr
    obtain ⟨hfit, hfitsRest⟩ := List.forall_mem_cons.mp hfits
    by_cases hok : slot.req.isWrite = true → s.answerAt 0 = .ok
    · rw [runPass_act hbusy hslot hfit hok] at hrun
      obtain ⟨es, htrace, hprefix⟩ := ih (s := s.afterActs _) hbusy hrest hfitsRest hrun
      have hacts : rest.map (·.req.act (s.afterActs [slot.req.act s])) = rest.map (·.req.act s) :=
        List.map_congr_left fun later _ => (passFrame_afterActs s _).act later.req
      rw [hacts] at hprefix
      refine ⟨(slot.req.act s).event s.cfg s.out :: es, ?_, List.cons_prefix_cons.mpr ⟨rfl, hprefix⟩⟩
      rw [htrace, State.afterActs_trace, List.append_assoc]
      rfl
    · obtain ⟨hwrite, hanswer⟩ := Classical.not_imp.mp hok
      have hfault : s.answerAt 0 = .fault := by
        cases h : s.answerAt 0 with
        | ok => exact absurd h hanswer
        | fault => rfl
      rw [runPass_write_fault hbusy hslot hwrite hfault] at hrun
      injection hrun with hrun
      refine ⟨[(slot.req.act s).event s.cfg s.out], ?_, List.cons_prefix_cons.mpr ⟨rfl, List.nil_prefix⟩⟩
      rw [← hrun, Request.act_event hfit]
      simp [raise_pinFault]

/-- A trace that obeys rule R251 obeys it up to any point. -/
theorem darkWrites_of_prefix {cfg : Config} {o : Out} {es es' : List Event} (h : es <+: es')
    (hdark : darkWrites cfg o es' = true) : darkWrites cfg o es = true := by
  obtain ⟨later, rfl⟩ := h
  induction es generalizing o with
  | nil => rfl
  | cons e es ih =>
    cases e with
    | d us => exact ih hdark
    | w sig l =>
      obtain ⟨hnow, hlater⟩ := Bool.and_eq_true_iff.mp hdark
      exact Bool.and_eq_true_iff.mpr ⟨hnow, ih hlater⟩
    | ww v =>
      obtain ⟨hnow, hlater⟩ := Bool.and_eq_true_iff.mp hdark
      exact Bool.and_eq_true_iff.mpr ⟨hnow, ih hlater⟩

/-! One event. -/

theorem ne_of_needsDark {x sig : Signal} (hx : x.needsDark = false) (hsig : sig.needsDark = true) : x ≠ sig :=
  fun hsame => Bool.false_ne_true (hx.symm.trans (hsame ▸ hsig))

/-- `OUT` remembers that output is off. -/
def Out.Blanked (o : Out) : Prop := o.oe = some .off

theorem Out.Blanked.of_level {cfg : Config} {o : Out} (h : o.level cfg .oe = some (cfg.electrical .off)) : o.Blanked :=
  Out.oe_of_level h

theorem Out.Blanked.level {cfg : Config} {o : Out} (h : o.Blanked) : o.level cfg .oe = some (cfg.electrical .off) :=
  congrArg (Option.map cfg.electrical) h

section
variable {cfg : Config} {o : Out}

/-- A write of one line, made while output is off if the line needs that. -/
theorem darkWrites_line (hv : cfg.variant = .pins) {sig : Signal} (hdark : sig.needsDark = true → o.Blanked)
    (l : Level) (later : List Act) :
    darkWrites cfg o (emit cfg o (portActs cfg [.set [(sig, l)]] ++ later))
      = darkWrites cfg (o.put cfg sig l) (emit cfg (o.put cfg sig l) later) := by
  have hcheck : (!sig.needsDark || o.oe == some .off) = true := by
    cases hneeds : sig.needsDark with
    | false => rfl
    | true => exact beq_iff_eq.mpr (hdark hneeds)
  simp [portActs, Act.split, hv, emit, Act.event, Act.outAfter, darkWrites, hcheck]

variable {vs : List (Signal × Level)}

/-- An output word that keeps the lines that need output off, or is written with output off before and after it. -/
theorem darkWrites_word (hv : cfg.variant = .word) (hpos : cfg.bitposOk = true)
    (hdark : (∀ sig, sig.needsDark = true → wordLevel cfg o vs sig = (o.level cfg sig).getD .low)
      ∨ o.Blanked ∧ (outAfterWord cfg o vs).Blanked) (later : List Act) :
    darkWrites cfg o (emit cfg o (portActs cfg [.set vs] ++ later))
      = darkWrites cfg (outAfterWord cfg o vs) (emit cfg (outAfterWord cfg o vs) later) := by
  have hout : (wordLevels cfg (composeWord cfg o vs)).foldl (fun acc p => acc.put cfg p.1 p.2) o
      = outAfterWord cfg o vs := by
    rw [wordLevels_composeWord hpos, List.foldl_map]
    rfl
  have hcheck : ((wordLevels cfg (composeWord cfg o vs)).all fun p =>
      !p.1.needsDark || (o.level cfg p.1).getD .low == p.2
        || (o.oe == some .off && (outAfterWord cfg o vs).oe == some .off)) = true := by
    rw [wordLevels_composeWord hpos, List.all_map, List.all_eq_true]
    intro sig _
    rcases hdark with hkeeps | ⟨hbefore, hafter⟩
    · cases hneeds : sig.needsDark with
      | false => simp [hneeds]
      | true => simp [hkeeps sig hneeds]
    · simp [show o.oe = _ from hbefore, show (outAfterWord cfg o vs).oe = _ from hafter]
  simp [portActs, Act.split, hv, emit, Act.event, Act.outAfter, darkWrites, hout, hcheck]

theorem wordLevel_of_notMem {sig : Signal} (h : ∀ p ∈ vs, p.1 ≠ sig) :
    wordLevel cfg o vs sig = (o.level cfg sig).getD .low := by
  rw [wordLevel, List.lookup_eq_none_iff.mpr fun p hp => bne_iff_ne.mpr (h p hp).symm]

/-- A word that gives output-enable the level of `off` leaves output off. -/
theorem blanked_outAfterWord (h : wordLevel cfg o vs .oe = cfg.electrical .off) : (outAfterWord cfg o vs).Blanked := by
  refine .of_level (cfg := cfg) ?_
  rw [outAfterWord, Out.level_foldl_put, if_pos (oe_mem_signals cfg), h]

end

/-! Acts, from what is known of `OUT` before them to what is known after them. -/

/-- From any `OUT` of which `P` holds, the events of the acts obey rule R251 and leave an `OUT` of which `Q` holds, by
which whatever comes later is judged. -/
def DarkRun (cfg : Config) (P : Out → Prop) (as : List Act) (Q : Out → Prop) : Prop :=
  ∀ o, P o → ∃ o', Q o' ∧ ∀ later,
    darkWrites cfg o (emit cfg o (portActs cfg as ++ later)) = darkWrites cfg o' (emit cfg o' later)

section
variable {cfg : Config} {P Q R : Out → Prop}

theorem DarkRun.obeys {as : List Act} (h : DarkRun cfg ⊤ as Q) (o : Out) :
    darkWrites cfg o (emit cfg o (portActs cfg as)) = true := by
  obtain ⟨o', -, hjudged⟩ := h o trivial
  simpa [emit, darkWrites] using hjudged []

theorem darkRun_nil : DarkRun cfg P [] P := fun o ho => ⟨o, ho, fun _ => rfl⟩

theorem darkRun_wait (us : Nat) : DarkRun cfg P [.wait us] P := fun o ho => ⟨o, ho, fun _ => rfl⟩

theorem DarkRun.append {as bs : List Act} (has : DarkRun cfg P as Q) (hbs : DarkRun cfg Q bs R) :
    DarkRun cfg P (as ++ bs) R := by
  intro o ho
  obtain ⟨o', ho', hfirst⟩ := has o ho
  obtain ⟨o'', ho'', hsecond⟩ := hbs o' ho'
  refine ⟨o'', ho'', fun later => ?_⟩
  rw [portActs_append, List.append_assoc, hfirst, hsecond]

theorem DarkRun.cons {a : Act} {as : List Act} (ha : DarkRun cfg P [a] Q) (has : DarkRun cfg Q as R) :
    DarkRun cfg P (a :: as) R := ha.append has

theorem DarkRun.flatMap {α : Type} {l : List α} {f : α → List Act} (h : ∀ a ∈ l, DarkRun cfg P (f a) P) :
    DarkRun cfg P (l.flatMap f) P := by
  induction l with
  | nil => exact darkRun_nil
  | cons a l ih =>
    obtain ⟨ha, hl⟩ := List.forall_mem_cons.mp h
    exact ha.append (ih hl)

theorem DarkRun.of_any {as : List Act} (h : DarkRun cfg ⊤ as Q) : DarkRun cfg P as Q := fun o _ => h o trivial

variable {vs : List (Signal × Level)}

/-- On discrete lines a group is its lines one by one (rule R142). -/
theorem DarkRun.group_pins (hv : cfg.variant = .pins) (h : ∀ p ∈ vs, DarkRun cfg P [.set [p]] P) :
    DarkRun cfg P [.set vs] P := by
  have hsplit : portActs cfg [.set vs] = portActs cfg (vs.flatMap fun p => [.set [p]]) := by
    simp [portActs, Act.split, hv, List.flatMap_assoc, List.map_eq_flatMap]
  have hlines := DarkRun.flatMap h
  rwa [DarkRun, ← hsplit] at hlines

variable (hw : cfg.wf = true)
include hw

/-- Lines that rule R251 says nothing of may be driven at any time. -/
theorem darkRun_free (hfree : ∀ p ∈ vs, p.1.needsDark = false) : DarkRun cfg ⊤ [.set vs] ⊤ := by
  obtain ⟨-, -, -, -, -, hpos, -⟩ := Config.wf_parts hw
  cases hv : cfg.variant with
  | pins =>
    refine .group_pins hv fun p hp o _ => ⟨o.put cfg p.1 p.2, trivial, darkWrites_line hv (fun hneeds => ?_) p.2⟩
    exact (ne_of_needsDark (hfree p hp) hneeds rfl).elim
  | word =>
    refine fun o _ => ⟨outAfterWord cfg o vs, trivial, darkWrites_word hv (hpos hv) (.inl fun sig hneeds => ?_)⟩
    exact wordLevel_of_notMem fun p hp => ne_of_needsDark (hfree p hp) hneeds

/-- While output is off, every line but output-enable may be driven, and output stays off. -/
theorem darkRun_blanked (hoe : ∀ p ∈ vs, p.1 ≠ .oe) : DarkRun cfg Out.Blanked [.set vs] Out.Blanked := by
  obtain ⟨-, -, -, -, -, hpos, -⟩ := Config.wf_parts hw
  cases hv : cfg.variant with
  | pins =>
    refine .group_pins hv fun p hp o ho => ⟨o.put cfg p.1 p.2, ?_, darkWrites_line hv (fun _ => ho) p.2⟩
    exact .of_level ((Out.level_put_other cfg o p.2 (hoe p hp).symm).trans ho.level)
  | word =>
    intro o ho
    have hlevel : wordLevel cfg o vs .oe = cfg.electrical .off := by
      rw [wordLevel_of_notMem hoe, ho.level, Option.getD_some]
    have hafter := blanked_outAfterWord hlevel
    exact ⟨outAfterWord cfg o vs, hafter, darkWrites_word hv (hpos hv) (.inr ⟨ho, hafter⟩)⟩

/-- `OE off` may be driven at any time, and blanks the output. -/
theorem darkRun_output_off : DarkRun cfg ⊤ [.set [(.oe, cfg.electrical .off)]] Out.Blanked := by
  obtain ⟨-, -, -, -, -, hpos, -⟩ := Config.wf_parts hw
  intro o _
  cases hv : cfg.variant with
  | pins =>
    have hfree : Signal.oe.needsDark = true → o.Blanked := (absurd · Bool.false_ne_true)
    exact ⟨_, .of_level (Out.level_put_same cfg o .oe _), darkWrites_line hv hfree _⟩
  | word =>
    refine ⟨_, blanked_outAfterWord rfl, darkWrites_word hv (hpos hv) (.inl fun sig hneeds => ?_)⟩
    exact wordLevel_of_notMem (List.forall_mem_singleton.mpr (ne_of_needsDark rfl hneeds))

theorem darkRun_output (l : Level) : DarkRun cfg ⊤ [.set [(.oe, l)]] ⊤ :=
  darkRun_free hw (List.forall_mem_singleton.mpr rfl)

/-! The loop nests. -/

/-- A commit blanks the output before it touches the latch or the address (rule R148). -/
theorem darkRun_commitActs (row : Nat) : DarkRun cfg ⊤ (commitActs cfg row) ⊤ := by
  have hlatch : ∀ l, DarkRun cfg Out.Blanked [.set [(.lat, l)]] Out.Blanked := fun l =>
    darkRun_blanked hw (List.forall_mem_singleton.mpr nofun)
  have haddress : DarkRun cfg Out.Blanked [.set (rowAddress cfg row)] Out.Blanked :=
    darkRun_blanked hw fun _ hp => (rowAddress_ne hp).2.1
  exact (darkRun_output_off hw).cons <| (darkRun_wait _).cons <| (hlatch _).cons <| (darkRun_wait _).cons <|
    (hlatch _).cons <| haddress.cons <| (darkRun_wait _).cons (darkRun_output hw _).of_any

end

section
variable {s : State} (hw : s.cfg.wf = true)
include hw

/-- A row shifts data and clock, which rule R251 says nothing of, and commits. -/
theorem darkRun_rowActs (lit : Byte → Bool) (row : Nat) : DarkRun s.cfg ⊤ (rowActs s lit row) ⊤ := by
  refine .append (.flatMap fun col _ => ?_) (darkRun_commitActs hw row)
  have hdata := darkRun_free hw (vs := [(.r1, .ofBool (lit (s.readField row col .rTop))),
    (.g1, .ofBool (lit (s.readField row col .gTop))), (.b1, .ofBool (lit (s.readField row col .bTop))),
    (.r2, .ofBool (lit (s.readField row col .rBot))), (.g2, .ofBool (lit (s.readField row col .gBot))),
    (.b2, .ofBool (lit (s.readField row col .bBot)))]) (by simp [Signal.needsDark])
  have hclock : ∀ l, DarkRun s.cfg ⊤ [.set [(.clk, l)]] ⊤ := fun l =>
    darkRun_free hw (List.forall_mem_singleton.mpr rfl)
  exact hdata.cons ((hclock _).cons (hclock _))

theorem darkRun_pwmActs : DarkRun s.cfg ⊤ (pwmActs s) ⊤ :=
  ((darkRun_output hw _).append (.flatMap fun _ _ => .flatMap fun row _ => darkRun_rowActs hw _ row)).append
    (darkRun_output hw _)

theorem darkRun_bcmActs (base : Nat) : DarkRun s.cfg ⊤ (bcmActs s base) ⊤ := by
  refine .append (.flatMap fun p _ => ?_) (darkRun_output hw _)
  refine .append (.append (.append (darkRun_output hw _) (.flatMap fun row _ => ?_)) (darkRun_wait _)) ?_
  · refine (darkRun_rowActs hw _ row).append ?_
    split
    · exact darkRun_wait _
    · exact darkRun_nil
  · split
    · exact darkRun_nil
    · exact darkRun_wait _

theorem darkWrites_passSlots (kind : PassKind) (base : Nat) :
    darkWrites s.cfg s.out (emit s.cfg s.out ((passSlots s kind base).map (·.req.act s))) = true := by
  cases kind with
  | pwm => rw [passSlots_pwm_act]; exact (darkRun_pwmActs hw).obeys s.out
  | bcm => rw [passSlots_bcm_act]; exact (darkRun_bcmActs hw base).obeys s.out

end

/-- Settles O36: the events of a pass are a first part of those of its loop nest, in which every commit blanks first. -/
theorem latchAndAddressOnlyWhileDark : Obligations.LatchAndAddressOnlyWhileDark := by
  intro s t i hw hm hi hexec
  obtain ⟨kind, base, hpass⟩ := exists_pass_of_instr hi
  rw [hpass s hw hm] at hexec
  obtain ⟨es, htrace, hprefix⟩ := exists_prefix_trace_runPass (s := s.withMode .busy) rfl
    (passSlots_inRange s kind base) (passSlots_fitsPort s kind base) hexec
  exact ⟨es, htrace, darkWrites_of_prefix hprefix (darkWrites_passSlots hw kind base)⟩

end Sys2Proof.Machine
end

section
/-! PROOFS. Words of the opcode table written out (rules R81, R82, R84 to R86). -/

namespace Sys2Proof

/-- A word written out decodes to the well-formed command whose word it is. -/
theorem decode_of_encode_eq {i : Instr} {cw : PortWord} (hwf : i.wf = true) (hword : encode i = cw) :
    decode cw = .ok i :=
  hword ▸ decodeOfEncode i hwf

/-- Settles O1: the eight legal words are those of their commands; the ninth has a known opcode and matches no row, the
tenth has no known opcode. -/
theorem tableWordsDecode : Obligations.TableWordsDecode := by
  have hreserved : decode 0x0100000000000103#64 = .error .reservedField :=
    decode_eq_reservedField_iff.mpr (by decide)
  have hunknown : decode 0xFFFFFFFFFFFFFFFF#64 = .error .unknownOpcode :=
    decode_eq_unknownOpcode_iff.mpr rfl
  refine ⟨?_, ?_, ?_, ?_, ?_, ?_, ?_, ?_, hreserved, hunknown⟩
  all_goals exact decode_of_encode_eq rfl rfl

end Sys2Proof
end

section
/-! PROOFS. The invariant holds after power-up (rules R10, R22, R26, R28, R30, R37). -/

namespace Sys2Proof

/-- The configuration of notes/assumptions/1.md has the identity table. -/
@[simp] theorem Config.gammaAt_atReset (v : Byte) : Config.atReset.gammaAt v = v := by
  simp [Config.gammaAt, Config.atReset, Config.standard, Config.identityGamma]

/-- The identity table meets rule R27; without stripes or a parallel port the other clauses are about numerals. -/
theorem Config.atReset_wf : Config.atReset.wf = true := by
  refine (configurationWellFormed Config.atReset).mpr
    ⟨.inl rfl, ⟨by decide, by decide⟩, nofun, ?gamma, nofun, ⟨by decide, by decide⟩, .inr rfl⟩
  case gamma =>
    exact ⟨fun i j hle => by simpa using hle, Config.gammaAt_atReset 0, Config.gammaAt_atReset 255⟩

end Sys2Proof

namespace Sys2Proof.Machine

/-- The framebuffer reads 0 everywhere, as the model chose (notes/assumptions/4.md), which is the corrected value of 0;
the block is not constructed and no pass runs. -/
theorem State.Inv.resetWith {cfg : Config} (hw : cfg.wf = true) : (State.resetWith cfg).Inv where
  cfgWf := hw
  fbCanonical := State.resetWith_fb_wf cfg
  fbInSpace := fun _ hlisted => absurd hlisted List.not_mem_nil
  fbGamma := fun _ => by
    obtain ⟨-, -, -, -, hgamma, -⟩ := Config.wf_parts hw
    obtain ⟨-, hzero, -⟩ := Config.gamma_properties hgamma
    exact ⟨0, hzero.symm⟩
  brightness := fun hconstructed => absurd rfl hconstructed
  seqIdle := iff_of_true rfl nofun
  seqInPass := nofun
  noF := fun _ => rfl

/-- Settles O48: a well-formed configuration is all the invariant asks after power-up, and `Config.atReset` is one. -/
theorem invariantAtPowerUp : Obligations.InvariantAtPowerUp :=
  ⟨fun _ hw => .resetWith hw, .resetWith Config.atReset_wf⟩

end Sys2Proof.Machine
end
